-- ==== Sys2Proof/Word.lean ====
section
/-! DEFINITION. The word types of the CBVM-core: the 64-bit value of a register, of the accumulator and of an
operand's payload (00_scope.md R10, `XLEN` = 64), and the byte that the heap, the operand stack and the I/O queues hold
(20_memory.md R82). -/

namespace Sys2Proof

/-- A `u64` (R12): the contents of a register, the accumulator, an operand's payload. -/
abbrev Word := BitVec 64

/-- A `u8` (R12): one byte of the heap, the stack, an I/O queue or the byte image. -/
abbrev Byte := BitVec 8

/-- `NREG` (R10): the number of general registers. -/
abbrev NREG : Nat := 60

end Sys2Proof
end

