-- ==== Sys2Proof/Config.lean ====
section
/-! DEFINITION. What one implementation of the block fixes before a run (00_scope.md R10), and the one value the spec
leaves open. The parameters that R10 marks OPEN are fields of `Config`; a machine state carries its `Config`
(notes/assumptions/1.md), so a statement about every state is a statement for every value of the parameters. -/

namespace Sys2Proof

/-- `WIRE_FORM` (R10, 30_encoding.md R104 and R110): the binary form the decoder reads. -/
inductive WireForm where
  | compact
  | wide
  deriving DecidableEq, Repr

/-- The implementation parameters of R10. A capacity of `none` is `unbounded`. -/
structure Config where
  wireForm : WireForm
  /-- `HEAP_SIZE`: the heap has the addresses `0 .. heapSize - 1`. -/
  heapSize : Nat
  /-- `STACK_CAP`, in bytes. -/
  stackCap : Nat
  /-- `CS_CAP`, in return positions. -/
  csCap    : Option Nat
  /-- `JT_CAP`, in entries. -/
  jtCap    : Option Nat
  /-- `OUT_CAP`, in bytes. -/
  outCap   : Option Nat
  deriving DecidableEq, Repr

/-- The parameters of the reset state: those that 95_test_vectors.md section 3 uses "unless the start-state cell names
others", with the canonical wire form of R104. DESIGN CHOICE, unsafe (notes/assumptions/1.md): R10 leaves them OPEN. -/
def Config.vectors : Config where
  wireForm := .compact
  heapSize := 8
  stackCap := 4
  csCap    := none
  jtCap    := none
  outCap   := none

/-- FREE VALUE (notes/assumptions/6.md): the 64-bit value of a natural number that no 64-bit value equals. The spec
makes a stream position and a size a natural number (R11, 10_state.md R39) and the place it is delivered to 64 bits
wide (10_state.md R37, 40_pipeline.md R151); what is delivered for a number of `2^64` or more it does not state. -/
opaque Config.wordBeyond : Nat → Word

end Sys2Proof
end

