-- ==== Sys2Proof/Syntax.lean ====
section
/-! DEFINITION. Tagged operands, opcodes and instructions as data (30_encoding.md sections 1, 4 and 5). -/

namespace Sys2Proof

/-- The 15 operand tags, in the order of R100 and R101. -/
inductive Tag where
  | u8 | u64 | u128 | i8 | i64 | i128 | f32 | f64
  | addr | reg | func | op | derefStack | derefHeapReg | noType
  deriving DecidableEq, Repr

/-- A tagged operand: "a (tag, 64-bit payload) pair" (R100), the unit of the instruction stream. -/
structure Operand where
  tag     : Tag
  payload : Word
  deriving DecidableEq, Repr

/-- The place of an operand of an instruction in the stream. `none` is a place at or past the end of the stream
(40_pipeline.md R145): such an instruction is fetched, and faults with `Truncated` when it comes to that operand, so
that an earlier operand's fault is still reported first (R158). -/
abbrev Slot := Option Operand

/-- The 37 opcodes of R120, in the order of their codes. -/
inductive Opcode where
  | nop | add | sub | mul | div | mod | and | or | xor | not | eq | neq | lt | gt
  | push | pop | dup | swap | jmp | jz | jnz
  | load | store | write | read | flush
  | mov | inc | dec | alloc | free | realloc
  | func | call | ret | wracc | reacc
  deriving DecidableEq, Repr

/-- An instruction with the operands of its shape (R122), one constructor per row of the opcode table. A slot keeps the
operand's tag in every fetch mode, also where execution ignores it (R115). -/
inductive Instr where
  /-- R180. -/
  | nop
  /-- R181: Typed `l`, Typed `r`. -/
  | add (l r : Slot)
  /-- R182: Typed `l`, Typed `r`. -/
  | sub (l r : Slot)
  /-- R183: Typed `l`, Typed `r`. -/
  | mul (l r : Slot)
  /-- R184: Typed `l`, Typed `r`. -/
  | div (l r : Slot)
  /-- R185: Typed `l`, Typed `r`. -/
  | mod (l r : Slot)
  /-- R186: Typed `l`, Typed `r`. -/
  | and (l r : Slot)
  /-- R187: Typed `l`, Typed `r`. -/
  | or (l r : Slot)
  /-- R188: Typed `l`, Typed `r`. -/
  | xor (l r : Slot)
  /-- R189: Dest `d`. -/
  | not (d : Slot)
  /-- R190: Typed `l`, Typed `r`. -/
  | eq (l r : Slot)
  /-- R191: Typed `l`, Typed `r`. -/
  | neq (l r : Slot)
  /-- R192: Typed `l`, Typed `r`. -/
  | lt (l r : Slot)
  /-- R193: Typed `l`, Typed `r`. -/
  | gt (l r : Slot)
  /-- R210: Typed `v`. -/
  | push (v : Slot)
  /-- R211: Dest `d`. -/
  | pop (d : Slot)
  /-- R212. -/
  | dup
  /-- R213. -/
  | swap
  /-- R220: Typed `t`. -/
  | jmp (t : Slot)
  /-- R221: Func `f`. -/
  | jz (f : Slot)
  /-- R222: Func `f`. -/
  | jnz (f : Slot)
  /-- R230: Dest `d`, Typed `a`. -/
  | load (d a : Slot)
  /-- R231: Typed `a`, Typed `N`, then `N` Typed values. `N` is a run-time value (R116), so the instruction as data
  carries every operand the stream holds after `N`, and execution takes the first `N` of them
  (notes/assumptions/5.md). -/
  | store (a n : Slot) (data : List Operand)
  /-- R232: Typed `a`, Typed `n`. -/
  | write (a n : Slot)
  /-- R233: Typed `a`, Typed `n`. -/
  | read (a n : Slot)
  /-- R234. -/
  | flush
  /-- R250: Dest `d`, Typed `v`. -/
  | mov (d v : Slot)
  /-- R251: Dest when the tag is `Reg`, else a Typed heap address (R123). -/
  | inc (o : Slot)
  /-- R252: Dest when the tag is `Reg`, else a Typed heap address (R123). -/
  | dec (o : Slot)
  /-- R253: Dest `d`, Typed `n`. -/
  | alloc (d n : Slot)
  /-- R254: Typed `a`. -/
  | free (a : Slot)
  /-- R255: Dest `d`, Typed `n`. -/
  | realloc (d n : Slot)
  /-- R270: Untyped label. -/
  | func (label : Slot)
  /-- R271: Func `f`. -/
  | call (f : Slot)
  /-- R272. -/
  | ret
  /-- R280: Typed `v`. -/
  | wracc (v : Slot)
  /-- R281: Dest `d`. -/
  | reacc (d : Slot)
  deriving DecidableEq, Repr

end Sys2Proof
end

