-- ==== Sys2Proof/Decode.lean ====
section
/-! DEFINITION. The decoder DEC (30_encoding.md sections 1 to 5): the tag and opcode codes, the two wire forms, an
instruction read from the operands at a stream position, and the encoder written from the same tables. -/

namespace Sys2Proof

/-! ## Tag and opcode codes -/

/-- `TAG_CODE` (R101). -/
def tagCode : Tag → Byte
  | .u8 => 0x00
  | .u64 => 0x01
  | .u128 => 0x02
  | .i8 => 0x03
  | .i64 => 0x04
  | .i128 => 0x05
  | .f32 => 0x06
  | .f64 => 0x07
  | .addr => 0x08
  | .reg => 0x09
  | .func => 0x0A
  | .op => 0x0B
  | .derefStack => 0x0C
  | .derefHeapReg => 0x0D
  | .noType => 0x0E

/-- `TagOf` (R105): the tag of a tag byte. A byte with no tag assigned, 0x0F to 0xFF, is `NoType` (R102). -/
def tagOf (b : Byte) : Tag :=
  match b.toNat with
  | 0x00 => .u8
  | 0x01 => .u64
  | 0x02 => .u128
  | 0x03 => .i8
  | 0x04 => .i64
  | 0x05 => .i128
  | 0x06 => .f32
  | 0x07 => .f64
  | 0x08 => .addr
  | 0x09 => .reg
  | 0x0A => .func
  | 0x0B => .op
  | 0x0C => .derefStack
  | 0x0D => .derefHeapReg
  | _ => .noType

/-- `w(t)` (R101, R110): the payload bytes of a tag in the wide form. -/
def Tag.wideWidth : Tag → Nat
  | .u8 | .i8 | .op | .noType => 1
  | .f32 => 4
  | .u64 | .i64 | .f64 | .addr | .reg | .func | .derefStack | .derefHeapReg => 8
  | .u128 | .i128 => 16

/-- `OPCODE_CODE` (R120). -/
def opcodeCode : Opcode → Byte
  | .nop => 0x00
  | .add => 0x01
  | .sub => 0x02
  | .mul => 0x03
  | .div => 0x04
  | .mod => 0x05
  | .and => 0x06
  | .or => 0x07
  | .xor => 0x08
  | .not => 0x09
  | .eq => 0x0A
  | .neq => 0x0B
  | .lt => 0x0C
  | .gt => 0x0D
  | .push => 0x0E
  | .pop => 0x0F
  | .dup => 0x10
  | .swap => 0x11
  | .jmp => 0x12
  | .jz => 0x13
  | .jnz => 0x14
  | .load => 0x15
  | .store => 0x16
  | .write => 0x17
  | .read => 0x18
  | .flush => 0x19
  | .mov => 0x1A
  | .inc => 0x1B
  | .dec => 0x1C
  | .alloc => 0x1D
  | .free => 0x1E
  | .realloc => 0x1F
  | .func => 0x20
  | .call => 0x21
  | .ret => 0x22
  | .wracc => 0x23
  | .reacc => 0x24

/-- The opcode that an opcode operand's payload selects (R121): `none` from 0x25 up. -/
def opcodeOf (code : Nat) : Option Opcode :=
  match code with
  | 0x00 => some .nop
  | 0x01 => some .add
  | 0x02 => some .sub
  | 0x03 => some .mul
  | 0x04 => some .div
  | 0x05 => some .mod
  | 0x06 => some .and
  | 0x07 => some .or
  | 0x08 => some .xor
  | 0x09 => some .not
  | 0x0A => some .eq
  | 0x0B => some .neq
  | 0x0C => some .lt
  | 0x0D => some .gt
  | 0x0E => some .push
  | 0x0F => some .pop
  | 0x10 => some .dup
  | 0x11 => some .swap
  | 0x12 => some .jmp
  | 0x13 => some .jz
  | 0x14 => some .jnz
  | 0x15 => some .load
  | 0x16 => some .store
  | 0x17 => some .write
  | 0x18 => some .read
  | 0x19 => some .flush
  | 0x1A => some .mov
  | 0x1B => some .inc
  | 0x1C => some .dec
  | 0x1D => some .alloc
  | 0x1E => some .free
  | 0x1F => some .realloc
  | 0x20 => some .func
  | 0x21 => some .call
  | 0x22 => some .ret
  | 0x23 => some .wracc
  | 0x24 => some .reacc
  | _ => none

/-! ## The wire forms: a byte image to the stream of operands -/

/-- `zext_64` of a byte (R12): a compact payload (R104), a byte read from the heap or the stack (20_memory.md R82). -/
def zext64 (b : Byte) : Word := b.setWidth 64

/-- `DecodeCompact` (R105): two bytes an operand, tag then payload; an odd last byte is dropped (R106). -/
def decodeCompact : List Byte → List Operand
  | t :: p :: img => ⟨tagOf t, zext64 p⟩ :: decodeCompact img
  | _ => []

/-- The number that bytes spell, the most significant first (R110). -/
def bigEndian (bytes : List Byte) : Nat :=
  bytes.foldl (fun n b => 256 * n + b.toNat) 0

/-- The loop of `DecodeWide` (R112), run at most `fuel` times: each round takes at least one byte, so as many rounds as
the image has bytes are enough. An incomplete last operand is dropped. -/
def decodeWideLoop : (fuel : Nat) → List Byte → List Operand
  | 0, _ => []
  | _ + 1, [] => []
  | fuel + 1, t :: img =>
    let tag := tagOf t
    let w := tag.wideWidth
    if img.length < w then []
    else ⟨tag, BitVec.ofNat 64 (bigEndian (img.take w))⟩ :: decodeWideLoop fuel (img.drop w)

/-- `DecodeWide` (R112). -/
def decodeWide (img : List Byte) : List Operand :=
  decodeWideLoop img.length img

/-- DEC: the stream of a byte image in the wire form `WIRE_FORM` (R105, R112). It rejects nothing (R105). -/
def decodeImage : WireForm → List Byte → List Operand
  | .compact => decodeCompact
  | .wide => decodeWide

/-! ## An instruction from the operands at a position -/

/-- Why the operands at a stream position are no instruction. -/
inductive DecodeError where
  /-- No operand stands there: the position is the end of the stream (40_pipeline.md R141). -/
  | endOfStream
  /-- The operand there is not tagged `Op` (40_pipeline.md R142). -/
  | notOpTag
  /-- Its payload is no opcode (R121, 40_pipeline.md R143). -/
  | undefinedOpcode (payload : Word)
  deriving DecidableEq, Repr

/-- The operand-shape table OST (R122): the instruction of an opcode with the operands that follow the opcode operand
in the stream. A place past the end of the stream is an empty slot. -/
def instrOf (c : Opcode) (rest : List Operand) : Instr :=
  match c with
  | .nop => .nop
  | .add => .add rest[0]? rest[1]?
  | .sub => .sub rest[0]? rest[1]?
  | .mul => .mul rest[0]? rest[1]?
  | .div => .div rest[0]? rest[1]?
  | .mod => .mod rest[0]? rest[1]?
  | .and => .and rest[0]? rest[1]?
  | .or => .or rest[0]? rest[1]?
  | .xor => .xor rest[0]? rest[1]?
  | .not => .not rest[0]?
  | .eq => .eq rest[0]? rest[1]?
  | .neq => .neq rest[0]? rest[1]?
  | .lt => .lt rest[0]? rest[1]?
  | .gt => .gt rest[0]? rest[1]?
  | .push => .push rest[0]?
  | .pop => .pop rest[0]?
  | .dup => .dup
  | .swap => .swap
  | .jmp => .jmp rest[0]?
  | .jz => .jz rest[0]?
  | .jnz => .jnz rest[0]?
  | .load => .load rest[0]? rest[1]?
  | .store => .store rest[0]? rest[1]? (rest.drop 2)
  | .write => .write rest[0]? rest[1]?
  | .read => .read rest[0]? rest[1]?
  | .flush => .flush
  | .mov => .mov rest[0]? rest[1]?
  | .inc => .inc rest[0]?
  | .dec => .dec rest[0]?
  | .alloc => .alloc rest[0]? rest[1]?
  | .free => .free rest[0]?
  | .realloc => .realloc rest[0]? rest[1]?
  | .func => .func rest[0]?
  | .call => .call rest[0]?
  | .ret => .ret
  | .wracc => .wracc rest[0]?
  | .reacc => .reacc rest[0]?

/-- The instruction that begins a run of operands (R115): the first must be tagged `Op` and carry a defined opcode. -/
def decodeOperands : List Operand → Except DecodeError Instr
  | [] => .error .endOfStream
  | o :: rest =>
    if o.tag = .op then
      match opcodeOf o.payload.toNat with
      | some c => .ok (instrOf c rest)
      | none => .error (.undefinedOpcode o.payload)
    else .error .notOpTag

/-- The instruction that begins a byte image. -/
def decode (form : WireForm) (img : List Byte) : Except DecodeError Instr :=
  decodeOperands (decodeImage form img)

/-! ## The encoder -/

/-- The opcode of an instruction. -/
def Instr.opcode : Instr → Opcode
  | .nop => .nop
  | .add _ _ => .add
  | .sub _ _ => .sub
  | .mul _ _ => .mul
  | .div _ _ => .div
  | .mod _ _ => .mod
  | .and _ _ => .and
  | .or _ _ => .or
  | .xor _ _ => .xor
  | .not _ => .not
  | .eq _ _ => .eq
  | .neq _ _ => .neq
  | .lt _ _ => .lt
  | .gt _ _ => .gt
  | .push _ => .push
  | .pop _ => .pop
  | .dup => .dup
  | .swap => .swap
  | .jmp _ => .jmp
  | .jz _ => .jz
  | .jnz _ => .jnz
  | .load _ _ => .load
  | .store _ _ _ => .store
  | .write _ _ => .write
  | .read _ _ => .read
  | .flush => .flush
  | .mov _ _ => .mov
  | .inc _ => .inc
  | .dec _ => .dec
  | .alloc _ _ => .alloc
  | .free _ => .free
  | .realloc _ _ => .realloc
  | .func _ => .func
  | .call _ => .call
  | .ret => .ret
  | .wracc _ => .wracc
  | .reacc _ => .reacc

/-- The operand places of an instruction that its shape fixes (R122), in shape order; STORE's values come after its
two. -/
def Instr.slots : Instr → List Slot
  | .nop | .dup | .swap | .flush | .ret => []
  | .not d | .pop d | .reacc d => [d]
  | .push v | .wracc v => [v]
  | .jmp t => [t]
  | .jz f | .jnz f | .call f => [f]
  | .inc o | .dec o => [o]
  | .free a => [a]
  | .func label => [label]
  | .add l r | .sub l r | .mul l r | .div l r | .mod l r => [l, r]
  | .and l r | .or l r | .xor l r => [l, r]
  | .eq l r | .neq l r | .lt l r | .gt l r => [l, r]
  | .load d a => [d, a]
  | .store a n _ => [a, n]
  | .write a n | .read a n => [a, n]
  | .mov d v => [d, v]
  | .alloc d n | .realloc d n => [d, n]

/-- The operands that follow the fixed places: the values of STORE, nothing for any other instruction. -/
def Instr.tail : Instr → List Operand
  | .store _ _ data => data
  | _ => []

/-- The `w` low bytes of a number, the most significant first (R110, R113). -/
def bigEndianBytes : (w : Nat) → Nat → List Byte
  | 0, _ => []
  | w + 1, n => BitVec.ofNat 8 (n / 256 ^ w) :: bigEndianBytes w n

/-- An operand's bytes: `TAG_CODE` and one payload byte in the compact form (R107), `TAG_CODE` and `w(t)` payload bytes
in the wide form (R113), for a payload the form can carry. A larger payload has no encoding
(93_implementation_defined.md row 11: refuse): the refusal is `Operand.wellFormed`, and this function is total and keeps
the payload's low bytes there (DESIGN CHOICE, notes/assumptions/17.md). -/
def encodeOperand : WireForm → Operand → List Byte
  | .compact, o => [tagCode o.tag, o.payload.setWidth 8]
  | .wide, o => tagCode o.tag :: bigEndianBytes o.tag.wideWidth o.payload.toNat

/-- The bytes of a run of operands, each of which the form can carry (notes/assumptions/17.md). -/
def encodeImage (form : WireForm) (ops : List Operand) : List Byte :=
  ops.flatMap (encodeOperand form)

/-- The operands an instruction stands for in the stream: its opcode operand (R120), then its operands in shape order. -/
def encodeOperands (i : Instr) : List Operand :=
  ⟨.op, zext64 (opcodeCode i.opcode)⟩ :: (i.slots.filterMap id ++ i.tail)

/-- The bytes of a well-formed instruction. For another the answer is no encoding (notes/assumptions/17.md). -/
def encode (form : WireForm) (i : Instr) : List Byte :=
  encodeImage form (encodeOperands i)

/-! ## The opcode table's words -/

/-- The bytes of `n` 16-bit words: each word is one compact operand, its tag in bits 15..8 and its payload in bits 7..0,
the first word in the lowest 16 bits of `w` (the table writes NOP `0x0B00`; notes/assumptions/3.md). -/
def tableBytes : (n : Nat) → Nat → List Byte
  | 0, _ => []
  | n + 1, w => BitVec.ofNat 8 (w / 256) :: BitVec.ofNat 8 w :: tableBytes n (w / 65536)

/-- The operands of the instruction whose first `nbits` bits are those of `w` and whose further bits are zero. The
longest instruction with operand words of zeros has three operands (R122; STORE with `N` = 0). -/
def tableOperands (nbits w : Nat) : List Operand :=
  decodeCompact (tableBytes (max 3 ((nbits + 15) / 16)) (w % 2 ^ nbits))

/-- The instruction the decoder reads from a word of spec/opcode_table.json. -/
def decodeTableWord (nbits w : Nat) : Option Instr :=
  match decodeOperands (tableOperands nbits w) with
  | .ok i => some i
  | .error _ => none

end Sys2Proof
end

