-- ==== Sys2Proof/Machine/State.lean ====
section
/-! DEFINITION. The state of the block (10_state.md), its fault record (60_exceptions.md R300, R301), the reasons this
model's own step stops, and the state right after reset (R48). -/

namespace Sys2Proof.Machine

/-! ## Status: the engine state and the fault record -/

/-- `ENG_STATE` (R35). -/
inductive EngState where
  | ready
  | running
  | halted
  | faulted
  | aborted
  deriving DecidableEq, Repr

/-- The fault kinds (R300). -/
inductive FaultKind where
  | invalidOpcode
  | memoryFault
  | arithmeticFault
  | stackFault
  | callStackFault
  | operandFault
  | ioFault
  deriving DecidableEq, Repr

/-- The fault reasons (R301), in the order of their codes. -/
inductive FaultReason where
  | notOpTag
  | undefinedOpcode
  | noFit
  | zeroSize
  | writeOutsideExtent
  | freeOutsideExtent
  | sizeQueryOutsideExtent
  | readOutOfRange
  | divByZero
  | modByZero
  | overflow
  | underflow
  | offsetOutOfRange
  | returnEmpty
  | callOverflow
  | truncated
  | badRegister
  | opTagOperand
  | badFunctionIndex
  | jumpTableFull
  | inputExhausted
  | outputFull
  deriving DecidableEq, Repr

/-- `FAULT` (R37). `none` in `kind` and `reason` is the record's code 0, no fault. -/
structure FaultRecord where
  kind   : Option FaultKind
  reason : Option FaultReason
  pos    : Nat
  opnd   : Option Nat
  opcode : Option Byte
  addr   : Option Word
  deriving DecidableEq, Repr

/-- The fault record after reset (R48). -/
def FaultRecord.none : FaultRecord where
  kind   := Option.none
  reason := Option.none
  pos    := 0
  opnd   := Option.none
  opcode := Option.none
  addr   := Option.none

/-- What a failed check reports (R13 `raise Fault`, R301): the reason, which gives the kind, and the two fields the
check knows. The instruction adds `pos` and `opcode`. -/
structure FaultCause where
  reason : FaultReason
  opnd   : Option Nat
  addr   : Option Word
  deriving DecidableEq, Repr

/-! ## Storage -/

/-- A byte memory as the list of its cells that do not read as 0, addresses rising (20_memory.md R61, R75). -/
abbrev Memory := List Host.Cell

/-- What an address that is not listed reads as: 0, the reset contents of the heap and of the stack array (R48). -/
def Memory.unlisted : Byte := 0

/-- The canonical form: addresses strictly rising, and no cell that holds what an unlisted address reads as. -/
abbrev Memory.wf (m : Memory) : Prop :=
  m.Pairwise (fun c d => c.1 < d.1) ∧ ∀ c ∈ m, c.2 ≠ Memory.unlisted

/-- One live allocation `[start, stop)` of the extent set `EXT` (R42). -/
structure Extent where
  start : Nat
  stop  : Nat
  deriving DecidableEq, Repr

/-! ## The state -/

/-- All the state the spec gives the block, and with it the parameters its steps take (R10, R45) and the host's device
log (60_exceptions.md R333). -/
structure State where
  /-- The implementation parameters (R10). No step and no host transaction changes them. -/
  config   : Config
  /-- `ENG_STATE` (R35). -/
  engState : EngState
  /-- `FAULT` (R37). -/
  fault    : FaultRecord
  /-- The register file RF: `x[0]` to `x[59]` (R30). -/
  regs     : Vector Word NREG
  /-- The accumulator `ACC` (R32). -/
  acc      : Word
  /-- The instruction pointer `pc`, a stream position (R33). -/
  pc       : Nat
  /-- The instruction stream `STREAM` (R38). `LEN` is its length (R44). -/
  stream   : List Operand
  /-- The jump table `JT` (R39), entry 0 first. -/
  jt       : List Nat
  /-- The call stack `CS` (R40), the newest record last. -/
  cs       : List Nat
  /-- The stack array `S` (R41), the bytes at and above `SP` included (20_memory.md R77). -/
  stack    : Memory
  /-- The stack pointer `SP`, the next free slot (R41). -/
  sp       : Nat
  /-- The heap array `H` (R42). -/
  heap     : Memory
  /-- The extent set `EXT`, ordered by start address (R42). -/
  ext      : List Extent
  /-- The out queue `OUT` (R43), the front first. -/
  outq     : List Byte
  /-- The in queue `IN` (R43), the front first. -/
  inq      : List Byte
  /-- The device log: the byte strings that `DeviceOut` events have carried, the oldest first (60_exceptions.md R333).
  It is state of the host side (R45), kept here so that what a FLUSH hands over is in the state
  (notes/assumptions/7.md). -/
  devLog   : List (List Byte)
  deriving DecidableEq, Repr

/-- The block after reset, for any parameters (R48, 70_reset_and_hazards.md R340). -/
def State.resetWith (c : Config) : State where
  config   := c
  engState := .ready
  fault    := FaultRecord.none
  regs     := Vector.replicate NREG 0
  acc      := 0
  pc       := 0
  stream   := []
  jt       := []
  cs       := []
  stack    := []
  sp       := 0
  heap     := []
  ext      := []
  outq     := []
  inq      := []
  devLog   := []

/-- The block right after reset, with the parameters of `Config.vectors` (notes/assumptions/1.md). -/
def State.reset : State := State.resetWith Config.vectors

/-! ## How this model's own step stops

A fault of the spec is no stop of the model: it is a next state with `ENG_STATE` = `Faulted` and `FAULT` written
(60_exceptions.md R310). The model stops only where the block takes no step at all. -/

/-- Why there is no next state. -/
inductive Fault where
  /-- `step` in `Ready`: the `step` port is open only in `Running` (60_exceptions.md R330), and no program has been
  started. Raised by `step`; safe. -/
  | notStarted
  /-- `step` in `Halted`, `Faulted` or `Aborted`: a terminal state has no next step (60_exceptions.md R311,
  93_implementation_defined.md row 22). Raised by `step`; safe. -/
  | runEnded (st : EngState)
  /-- A host transaction in an engine state in which R330 does not open its port. Raised by the transactions of
  Machine/Ports.lean, never by `step` or `exec`; safe. -/
  | portClosed (st : EngState)
  deriving DecidableEq, Repr

/-- Why an instruction has no meaning in this model. -/
inductive Refusal where
  /-- An arm of `exec` whose instruction has no meaning yet. No arm answers it; safe. -/
  | notModelled (mnemonic : String)
  deriving DecidableEq, Repr

/-- What an instruction, a step or a host transaction answers. -/
abbrev Result := Host.Outcome State Fault Refusal

end Sys2Proof.Machine
end

