-- ==== Sys2Proof/Machine/Ops.lean ====
section
/-! DEFINITION. The named operations of the block: the state's updates, taking a fault (60_exceptions.md R310), the
registers, the heap and its allocator HAL, the stack unit STK, the I/O queues IOQ, the jump table and the call stack.
Each follows its pseudocode in 20_memory.md or 40_pipeline.md. -/

namespace Sys2Proof.Machine

/-! ## Codes the host reads -/

/-- The code of an engine state (10_state.md R35). -/
def engStateCode : EngState → Nat
  | .ready => 0
  | .running => 1
  | .halted => 2
  | .faulted => 3
  | .aborted => 4

/-- The code of a fault kind, 0 for no fault (R300). -/
def faultKindCode : Option FaultKind → Byte
  | none => 0
  | some .invalidOpcode => 1
  | some .memoryFault => 2
  | some .arithmeticFault => 3
  | some .stackFault => 4
  | some .callStackFault => 5
  | some .operandFault => 6
  | some .ioFault => 7

/-- The code of a fault reason, 0 for no fault (R301). -/
def faultReasonCode : Option FaultReason → Byte
  | none => 0
  | some .notOpTag => 1
  | some .undefinedOpcode => 2
  | some .noFit => 3
  | some .zeroSize => 4
  | some .writeOutsideExtent => 5
  | some .freeOutsideExtent => 6
  | some .sizeQueryOutsideExtent => 7
  | some .readOutOfRange => 8
  | some .divByZero => 9
  | some .modByZero => 10
  | some .overflow => 11
  | some .underflow => 12
  | some .offsetOutOfRange => 13
  | some .returnEmpty => 14
  | some .callOverflow => 15
  | some .truncated => 16
  | some .badRegister => 17
  | some .opTagOperand => 18
  | some .badFunctionIndex => 19
  | some .jumpTableFull => 20
  | some .inputExhausted => 21
  | some .outputFull => 22

/-- The kind of a reason (R301). -/
def faultKindOf : FaultReason → FaultKind
  | .notOpTag | .undefinedOpcode => .invalidOpcode
  | .noFit | .zeroSize | .writeOutsideExtent | .freeOutsideExtent => .memoryFault
  | .sizeQueryOutsideExtent | .readOutOfRange => .memoryFault
  | .divByZero | .modByZero => .arithmeticFault
  | .overflow | .underflow | .offsetOutOfRange => .stackFault
  | .returnEmpty | .callOverflow => .callStackFault
  | .truncated | .badRegister | .opTagOperand => .operandFault
  | .badFunctionIndex | .jumpTableFull => .operandFault
  | .inputExhausted | .outputFull => .ioFault

/-! ## Words and bytes -/

/-- `v[7:0]`: the byte a value stores (20_memory.md R82). -/
def lowByte (v : Word) : Byte := v.setWidth 8

/-- A natural number delivered as a 64-bit value: itself where 64 bits hold it. The spec states no value for a larger
one, so there it is the free value `Config.wordBeyond` (notes/assumptions/6.md). -/
def wordOfNat (n : Nat) : Word :=
  if n < 2 ^ 64 then BitVec.ofNat 64 n else Config.wordBeyond n

/-! ## Updates of the state -/

/-- `LEN` (10_state.md R44). -/
def State.len (s : State) : Nat := s.stream.length

/-- `x[d]`. -/
def State.reg (s : State) (d : Fin NREG) : Word := s.regs.get d

/-- `x[d] <- v`. -/
def State.setReg (s : State) (d : Fin NREG) (v : Word) : State := { s with regs := s.regs.set d v }

/-- `ACC <- v`. -/
def State.setAcc (s : State) (v : Word) : State := { s with acc := v }

/-- `pc <- t`. -/
def State.jumpTo (s : State) (t : Nat) : State := { s with pc := t }

/-- `pc <- pc + n`, for an instruction of `n` operands (10_state.md R34). -/
def State.advance (s : State) (n : Nat) : State := { s with pc := s.pc + n }

/-- `JT <- jt`. -/
def State.setJt (s : State) (jt : List Nat) : State := { s with jt := jt }

/-- `CS <- cs`. -/
def State.setCs (s : State) (cs : List Nat) : State := { s with cs := cs }

/-- `S <- stack ; SP <- sp`. -/
def State.setStack (s : State) (stack : Memory) (sp : Nat) : State := { s with stack := stack, sp := sp }

/-- `H <- heap`. -/
def State.setHeap (s : State) (heap : Memory) : State := { s with heap := heap }

/-- `EXT <- ext`. -/
def State.setExt (s : State) (ext : List Extent) : State := { s with ext := ext }

/-- `OUT <- outq`. -/
def State.setOut (s : State) (outq : List Byte) : State := { s with outq := outq }

/-- `IN <- inq`. -/
def State.setIn (s : State) (inq : List Byte) : State := { s with inq := inq }

/-- `DeviceOut(bytes)`: the host appends the event's bytes to its device log (60_exceptions.md R333). -/
def State.deviceOut (s : State) (bytes : List Byte) : State := { s with devLog := s.devLog ++ [bytes] }

/-- `ENG_STATE <- st`. -/
def State.setEng (s : State) (st : EngState) : State := { s with engState := st }

/-! ## Faults and the end of an instruction -/

/-- What a check or a computation of an instruction answers: a value, or the fault it raises. -/
abbrev Check (α : Type) := Except FaultCause α

/-- TAKING A FAULT (60_exceptions.md R310): `ENG_STATE <- Faulted ; FAULT <- (kind, reason, pos, opnd, opcode, addr)`,
and nothing else. There is no handler, no vector and no return from it (R311). -/
def takeFault (pos : Nat) (opcode : Option Byte) (c : FaultCause) (s : State) : State :=
  { s with
    engState := .faulted
    fault :=
      { kind := some (faultKindOf c.reason), reason := some c.reason, pos := pos, opnd := c.opnd, opcode := opcode,
        addr := c.addr } }

/-- All or nothing (40_pipeline.md R160): an instruction whose checks all passed answers the state with its writes; one
whose check failed answers the state from before it, with the fault taken at its own position. -/
def complete (opcode : Byte) (s : State) : Check State → Result
  | .ok t => .next t
  | .error c => .next (takeFault s.pc (some opcode) c s)

/-- The end of the stream, tested at commit (40_pipeline.md R141): `pc >= LEN` halts a running engine. -/
def endOfStream (s : State) : State :=
  if s.engState = .running ∧ s.len ≤ s.pc then s.setEng .halted else s

/-- A table that holds as many entries as its capacity allows; one without bound is never full (R10). -/
def atCapacity (cap : Option Nat) (n : Nat) : Bool := cap == some n

/-! ## Byte memories -/

/-- The byte at an address. -/
def Memory.read : Memory → Nat → Byte
  | [], _ => Memory.unlisted
  | (k, v) :: m, a => if k = a then v else Memory.read m a

/-- A cell put in front of cells of higher addresses, unless it holds what an unlisted address reads as. -/
def Memory.cons (a : Nat) (b : Byte) (m : Memory) : Memory :=
  if b = Memory.unlisted then m else (a, b) :: m

/-- A byte written at an address; the canonical form is kept. -/
def Memory.write : Memory → Nat → Byte → Memory
  | [], a, b => Memory.cons a b []
  | (k, v) :: m, a, b =>
    if a < k then Memory.cons a b ((k, v) :: m)
    else if a = k then Memory.cons a b m
    else (k, v) :: Memory.write m a b

/-- Bytes written at successive addresses, the first at `a`, in increasing order. -/
def Memory.writeBytes : Memory → Nat → List Byte → Memory
  | m, _, [] => m
  | m, a, b :: bs => Memory.writeBytes (m.write a b) (a + 1) bs

/-- The `n` bytes from `a`. -/
def Memory.readBytes (m : Memory) : Nat → (n : Nat) → List Byte
  | _, 0 => []
  | a, n + 1 => m.read a :: Memory.readBytes m (a + 1) n

/-- `for i in lo .. hi-1: H[i] <- 0` (20_memory.md R68, R69). -/
def Memory.zero (m : Memory) (lo hi : Nat) : Memory :=
  m.filter (fun c => c.1 < lo || hi ≤ c.1)

/-! ## The heap: extents and single bytes -/

/-- `s <= a < e`. -/
def Extent.holds (e : Extent) (a : Nat) : Bool := e.start ≤ a && a < e.stop

/-- `Containing(a)` (20_memory.md R61). -/
def containing (ext : List Extent) (a : Nat) : Option Extent := ext.find? (·.holds a)

/-- An address is live when some extent contains it (R61). -/
def live (ext : List Extent) (a : Nat) : Bool := (containing ext a).isSome

/-- No address in `lo .. hi-1` is live. -/
def rangeFree (ext : List Extent) (lo hi : Nat) : Bool :=
  ext.all (fun e => min e.stop hi ≤ max e.start lo)

/-- `MemRead(a, 1)` (R62). `opnd` is the operand the read resolves, none for an instruction's own read (R301). -/
def memRead (s : State) (opnd : Option Nat) (a : Nat) : Check Byte :=
  if a < s.config.heapSize then .ok (s.heap.read a)
  else .error { reason := .readOutOfRange, opnd := opnd, addr := some (wordOfNat a) }

/-- `MemRead(a + i, 1)` for `i` in `0 .. n-1`, in order: the first address outside the heap faults. -/
def memReadBytes (s : State) : (a n : Nat) → Check (List Byte)
  | _, 0 => .ok []
  | a, n + 1 => do
    let b ← memRead s none a
    let bs ← memReadBytes s (a + 1) n
    return b :: bs

/-- The check of `MemWrite` (R63): a write needs a live address. -/
def checkLive (s : State) (a : Nat) : Check Unit :=
  if live s.ext a then .ok ()
  else .error { reason := .writeOutsideExtent, opnd := none, addr := some (wordOfNat a) }

/-- The check of `MemWrite(a + i, 1, _)` for `i` in `0 .. n-1`, in increasing order: the lowest address that is not live
faults (44_heap_transfer.md R231, R233). -/
def checkLiveBytes (s : State) : (a n : Nat) → Check Unit
  | _, 0 => .ok ()
  | a, n + 1 => do
    checkLive s a
    checkLiveBytes s (a + 1) n

/-! ## The heap allocator HAL -/

/-- The loop of `FirstFit(n)` (R65) from the address `cur`: the gaps in front of each extent, in increasing order, then
the gap after the last. -/
def firstFitFrom (heapSize n : Nat) : (cur : Nat) → List Extent → Option Nat
  | cur, [] => if cur + n ≤ heapSize then some cur else none
  | cur, e :: ext => if cur + n ≤ e.start then some cur else firstFitFrom heapSize n e.stop ext

/-- `FirstFit(n)` (R65, R66). -/
def firstFit (s : State) (n : Nat) : Option Nat := firstFitFrom s.config.heapSize n 0 s.ext

/-- `EXT ∪ {[s, e)}`, kept ordered by start address (R61). -/
def insertExtent (e : Extent) : List Extent → List Extent
  | [] => [e]
  | f :: ext => if e.start < f.start then e :: f :: ext else f :: insertExtent e ext

/-- `EXT \ {[s, e)}`. -/
def removeExtent (e : Extent) (ext : List Extent) : List Extent := ext.filter (fun f => f ≠ e)

/-- `Alloc(n)` (R67): the state with the new extent, and its start address. -/
def heapAlloc (s : State) (n : Nat) : Check (State × Nat) :=
  if n = 0 then .error { reason := .zeroSize, opnd := none, addr := some 0 }
  else
    match firstFit s n with
    | none => .error { reason := .noFit, opnd := none, addr := some (wordOfNat n) }
    | some a => .ok (s.setExt (insertExtent ⟨a, a + n⟩ s.ext), a)

/-- `Free(a)` (R68). -/
def heapFree (s : State) (a : Nat) : Check State :=
  match containing s.ext a with
  | none => .error { reason := .freeOutsideExtent, opnd := none, addr := some (wordOfNat a) }
  | some e => .ok ((s.setHeap (s.heap.zero e.start e.stop)).setExt (removeExtent e s.ext))

/-- `Realloc(a, n)` (R69): shrink or grow in place, or allocate, copy and free; the state, and the start address
afterwards. -/
def heapRealloc (s : State) (a n : Nat) : Check (State × Nat) :=
  match containing s.ext a with
  | none => .error { reason := .sizeQueryOutsideExtent, opnd := none, addr := some (wordOfNat a) }
  | some e =>
    if n = 0 then .error { reason := .zeroSize, opnd := none, addr := some (wordOfNat a) }
    else
      let size := e.stop - e.start
      let inPlace := insertExtent ⟨e.start, e.start + n⟩ (removeExtent e s.ext)
      if n ≤ size then
        .ok ((s.setHeap (s.heap.zero (e.start + n) e.stop)).setExt inPlace, e.start)
      else if e.start + n ≤ s.config.heapSize && rangeFree s.ext e.stop (e.start + n) then
        .ok (s.setExt inPlace, e.start)
      else
        match firstFit s n with
        | none => .error { reason := .noFit, opnd := none, addr := some (wordOfNat n) }
        | some t =>
          let copied := s.heap.writeBytes t (s.heap.readBytes e.start size)
          .ok ((s.setHeap (copied.zero e.start e.stop)).setExt (insertExtent ⟨t, t + n⟩ (removeExtent e s.ext)), t)

/-! ## The stack unit STK and its bounds checker -/

/-- `Push(b)` (20_memory.md R76). -/
def stackPush (s : State) (b : Byte) : Check State :=
  if s.sp = s.config.stackCap then
    .error { reason := .overflow, opnd := none, addr := some (wordOfNat s.sp) }
  else .ok (s.setStack (s.stack.write s.sp b) (s.sp + 1))

/-- `Pop()` (R77): the state with the pointer retreated, and the vacated byte, which the array keeps. -/
def stackPop (s : State) : Check (State × Byte) :=
  if s.sp = 0 then .error { reason := .underflow, opnd := none, addr := some 0 }
  else .ok (s.setStack s.stack (s.sp - 1), s.stack.read (s.sp - 1))

/-- `Peek(k)` (R78), for the operand at position `opnd`. -/
def stackPeek (s : State) (opnd : Nat) (k : Word) : Check Byte :=
  if k.toNat < s.sp then .ok (s.stack.read (s.sp - 1 - k.toNat))
  else .error { reason := .offsetOutOfRange, opnd := some opnd, addr := some k }

/-- DUP's effect on the stack (42_stack.md R212). -/
def stackDup (s : State) : Check State :=
  if s.sp = 0 then .error { reason := .underflow, opnd := none, addr := some 0 }
  else if s.sp = s.config.stackCap then
    .error { reason := .overflow, opnd := none, addr := some (wordOfNat s.sp) }
  else .ok (s.setStack (s.stack.write s.sp (s.stack.read (s.sp - 1))) (s.sp + 1))

/-- SWAP's effect on the stack (42_stack.md R213). -/
def stackSwap (s : State) : Check State :=
  if s.sp < 2 then .error { reason := .underflow, opnd := none, addr := some (wordOfNat s.sp) }
  else
    let a := s.stack.read (s.sp - 1)
    let b := s.stack.read (s.sp - 2)
    .ok (s.setStack ((s.stack.write (s.sp - 1) b).write (s.sp - 2) a) s.sp)

/-! ## The I/O queues IOQ -/

/-- The append of WRITE (20_memory.md R88). -/
def outAppend (s : State) (bytes : List Byte) : Check State :=
  match s.config.outCap with
  | some cap =>
    if cap < s.outq.length + bytes.length then
      .error { reason := .outputFull, opnd := none, addr := some (wordOfNat bytes.length) }
    else .ok (s.setOut (s.outq ++ bytes))
  | none => .ok (s.setOut (s.outq ++ bytes))

/-- The bytes READ takes from the front of `IN` (20_memory.md R90): the state without them, and the bytes. -/
def inTake (s : State) (n : Nat) : Check (State × List Byte) :=
  if s.inq.length < n then .error { reason := .inputExhausted, opnd := none, addr := some (wordOfNat n) }
  else .ok (s.setIn (s.inq.drop n), s.inq.take n)

/-! ## The jump table JT and the call stack CS -/

/-- The append of FUNC (46_function_call.md R270). -/
def jtAppend (s : State) (p : Nat) : Check State :=
  if atCapacity s.config.jtCap s.jt.length then
    .error { reason := .jumpTableFull, opnd := some (s.pc + 1), addr := none }
  else .ok (s.setJt (s.jt ++ [p]))

/-- The push of CALL (46_function_call.md R271). -/
def csPush (s : State) (p : Nat) : Check State :=
  if atCapacity s.config.csCap s.cs.length then
    .error { reason := .callOverflow, opnd := none, addr := some (wordOfNat s.cs.length) }
  else .ok (s.setCs (s.cs ++ [p]))

/-- The pop of RET (46_function_call.md R272): the state without the newest record, and the record. -/
def csPop (s : State) : Check (State × Nat) :=
  match s.cs.getLast? with
  | none => .error { reason := .returnEmpty, opnd := none, addr := none }
  | some r => .ok (s.setCs s.cs.dropLast, r)

/-- Two neighbouring operands are a function-definition marker (40_pipeline.md R170). -/
def isMarker (o label : Operand) : Bool :=
  o.tag == .op && o.payload == 0x20 && label.tag == .func

/-- The pre-scan PSU (40_pipeline.md R170) from position `q` on: the jump table built, or the position of the marker that
did not fit and the fault. -/
def preScan (cap : Option Nat) : (q : Nat) → List Operand → (jt : List Nat) → Except (Nat × FaultCause) (List Nat)
  | q, o :: label :: rest, jt =>
    if isMarker o label then
      if atCapacity cap jt.length then
        .error (q, { reason := .jumpTableFull, opnd := some (q + 1), addr := none })
      else preScan cap (q + 1) (label :: rest) (jt ++ [q + 2])
    else preScan cap (q + 1) (label :: rest) jt
  | _, [_], jt => .ok jt
  | _, [], jt => .ok jt

end Sys2Proof.Machine
end

