-- ==== Sys2Proof/Machine/Operands.lean ====
section
/-! DEFINITION. The four operand fetch modes and the tag router TRM (40_pipeline.md sections 2 and 3). Every fetch takes
the operand's number `j` in its instruction, counted from 1: the operand stands at position `pc + j` (R144), and a fault
names that position. -/

namespace Sys2Proof.Machine

/-- The check before every fetch (R145): a place at or past the end of the stream is `Truncated`. -/
def fetchSlot (s : State) (j : Nat) : Slot → Check Operand
  | some o => .ok o
  | none => .error { reason := .truncated, opnd := some (s.pc + j), addr := none }

/-- A payload as a register index (R151, R152): 60 and above is `BadRegister`. -/
def registerIndex (s : State) (j : Nat) (p : Word) : Check (Fin NREG) :=
  if h : p.toNat < NREG then .ok ⟨p.toNat, h⟩
  else .error { reason := .badRegister, opnd := some (s.pc + j), addr := some p }

/-- A payload as a function index, resolved through the jump table (R151, R153). -/
def functionPosition (s : State) (j : Nat) (p : Word) : Check Nat :=
  match s.jt[p.toNat]? with
  | some t => .ok t
  | none => .error { reason := .badFunctionIndex, opnd := some (s.pc + j), addr := some p }

/-- The tag router TRM (R151): the 64-bit value an operand resolves to. -/
def resolveOperand (s : State) (j : Nat) (o : Operand) : Check Word :=
  match o.tag with
  | .u8 | .u64 | .u128 | .i8 | .i64 | .i128 | .f32 | .f64 => .ok o.payload
  | .addr => .ok o.payload
  | .noType => .ok o.payload
  | .reg => do
    let d ← registerIndex s j o.payload
    return s.reg d
  | .derefStack => do
    let b ← stackPeek s (s.pc + j) o.payload
    return zext64 b
  | .derefHeapReg => do
    let d ← registerIndex s j o.payload
    let b ← memRead s (some (s.pc + j)) (s.reg d).toNat
    return zext64 b
  | .func => do
    let t ← functionPosition s j o.payload
    return wordOfNat t
  | .op => .error { reason := .opTagOperand, opnd := some (s.pc + j), addr := none }

/-- `Typed` mode, `Resolve(pc + j)` (R151). -/
def typed (s : State) (j : Nat) (slot : Slot) : Check Word := do
  let o ← fetchSlot s j slot
  resolveOperand s j o

/-- `Untyped` mode, `Payload(pc + j)` (R150). -/
def untyped (s : State) (j : Nat) (slot : Slot) : Check Word := do
  let o ← fetchSlot s j slot
  return o.payload

/-- `Dest` mode, `DestReg(pc + j)` (R152), whatever the tag. -/
def dest (s : State) (j : Nat) (slot : Slot) : Check (Fin NREG) := do
  let o ← fetchSlot s j slot
  registerIndex s j o.payload

/-- `Func` mode, `FuncPos(pc + j)` (R153), whatever the tag. -/
def funcPos (s : State) (j : Nat) (slot : Slot) : Check Nat := do
  let o ← fetchSlot s j slot
  functionPosition s j o.payload

/-- The `n` values of STORE in `Typed` mode, the first at `pc + j` (44_heap_transfer.md R231), taken from the operands
the stream still holds: where they run out, the fetch at the end of the stream is `Truncated`. -/
def typedMany (s : State) : (j n : Nat) → List Operand → Check (List Word)
  | _, 0, _ => .ok []
  | j, _ + 1, [] => do
    let _ ← typed s j none
    return []
  | j, n + 1, o :: rest => do
    let v ← typed s j (some o)
    let vs ← typedMany s (j + 1) n rest
    return v :: vs

/-- The two forms of INC's and DEC's one operand (30_encoding.md R123). -/
def isRegisterForm (o : Operand) : Bool := o.tag == .reg

end Sys2Proof.Machine
end

