-- ==== Sys2Proof/Machine/Accumulator.lean ====
section
/-! DEFINITION. The accumulator transfer instructions (47_accumulator.md). -/

namespace Sys2Proof.Machine

/-- WRACC (R280). -/
def execWracc (v : Slot) (s : State) : Result :=
  complete 0x23 s do
    let x ← typed s 1 v
    return (s.setAcc x).advance 2

/-- REACC (R281): all 64 bits; `ACC` is unchanged. -/
def execReacc (d : Slot) (s : State) : Result :=
  complete 0x24 s do
    let i ← dest s 1 d
    return (s.setReg i s.acc).advance 2

end Sys2Proof.Machine
end

