-- ==== Sys2Proof/Machine/Flags.lean ====
section
/-! DEFINITION. Conditions. The block has no status flags and no condition codes (10_state.md R36): a comparison delivers
1 or 0 in `ACC`, and the only condition an instruction tests is whether `ACC` is 0. -/

namespace Sys2Proof.Machine

/-- The value a comparison leaves in `ACC`: 1 when it holds, else 0 (41_nop_alu.md R196). -/
def truthWord (b : Bool) : Word := if b then 1 else 0

/-- The condition JZ and JNZ test (10_state.md R36). -/
def accIsZero (s : State) : Bool := s.acc == 0

end Sys2Proof.Machine
end

