-- ==== Sys2Proof/Machine/Alu.lean ====
section
/-! DEFINITION. NOP and the instructions of the ALU (41_nop_alu.md): arithmetic, bitwise, comparison. -/

namespace Sys2Proof.Machine

/-- The shape of the ALU's instructions: two Typed operands, a result in `ACC`, length 3. -/
def binaryOp (opcode : Byte) (f : Word → Word → Check Word) (l r : Slot) (s : State) : Result :=
  complete opcode s do
    let x ← typed s 1 l
    let y ← typed s 2 r
    let v ← f x y
    return (s.setAcc v).advance 3

/-- A divisor of 0 is an `ArithmeticFault` at the second operand (R184, R185). -/
def nonzeroDivisor (s : State) (reason : FaultReason) (y : Word) : Check Unit :=
  if y = 0 then .error { reason := reason, opnd := some (s.pc + 2), addr := none } else .ok ()

/-- NOP (R180). -/
def execNop (s : State) : Result :=
  complete 0x00 s (.ok (s.advance 1))

/-- ADD (R181, R194): wrapping. -/
def execAdd (l r : Slot) (s : State) : Result :=
  binaryOp 0x01 (fun x y => .ok (x + y)) l r s

/-- SUB (R182, R195): wrapping, whether read as signed or as unsigned. -/
def execSub (l r : Slot) (s : State) : Result :=
  binaryOp 0x02 (fun x y => .ok (x - y)) l r s

/-- MUL (R183, R194): the low 64 bits of the product. -/
def execMul (l r : Slot) (s : State) : Result :=
  binaryOp 0x03 (fun x y => .ok (x * y)) l r s

/-- DIV (R184): unsigned quotient; a divisor of 0 faults. -/
def execDiv (l r : Slot) (s : State) : Result :=
  binaryOp 0x04 (fun x y => do nonzeroDivisor s .divByZero y; return x / y) l r s

/-- MOD (R185): unsigned remainder; a divisor of 0 faults. -/
def execMod (l r : Slot) (s : State) : Result :=
  binaryOp 0x05 (fun x y => do nonzeroDivisor s .modByZero y; return x % y) l r s

/-- AND (R186). -/
def execAnd (l r : Slot) (s : State) : Result :=
  binaryOp 0x06 (fun x y => .ok (x &&& y)) l r s

/-- OR (R187). -/
def execOr (l r : Slot) (s : State) : Result :=
  binaryOp 0x07 (fun x y => .ok (x ||| y)) l r s

/-- XOR (R188). -/
def execXor (l r : Slot) (s : State) : Result :=
  binaryOp 0x08 (fun x y => .ok (x ^^^ y)) l r s

/-- NOT (R189): a register complemented in place; `ACC` is not written. -/
def execNot (d : Slot) (s : State) : Result :=
  complete 0x09 s do
    let i ← dest s 1 d
    return (s.setReg i (~~~ s.reg i)).advance 2

/-- EQ (R190). -/
def execEq (l r : Slot) (s : State) : Result :=
  binaryOp 0x0A (fun x y => .ok (truthWord (x == y))) l r s

/-- NEQ (R191). -/
def execNeq (l r : Slot) (s : State) : Result :=
  binaryOp 0x0B (fun x y => .ok (truthWord (x != y))) l r s

/-- LT (R192, R196): unsigned. -/
def execLt (l r : Slot) (s : State) : Result :=
  binaryOp 0x0C (fun x y => .ok (truthWord (x.ult y))) l r s

/-- GT (R193, R196): unsigned. -/
def execGt (l r : Slot) (s : State) : Result :=
  binaryOp 0x0D (fun x y => .ok (truthWord (y.ult x))) l r s

end Sys2Proof.Machine
end

