-- ==== Sys2Proof/Machine/Function.lean ====
section
/-! DEFINITION. Function definition, call and return (46_function_call.md). -/

namespace Sys2Proof.Machine

/-- FUNC (R270): the position after its label appended to the jump table, whatever the label. -/
def execFunc (label : Slot) (s : State) : Result :=
  complete 0x20 s do
    let _ ← untyped s 1 label
    let t ← jtAppend s (s.pc + 2)
    return t.advance 2

/-- CALL (R271). -/
def execCall (f : Slot) (s : State) : Result :=
  complete 0x21 s do
    let target ← funcPos s 1 f
    let t ← csPush s (s.pc + 2)
    return t.jumpTo target

/-- RET (R272). -/
def execRet (s : State) : Result :=
  complete 0x22 s do
    let (t, r) ← csPop s
    return t.jumpTo r

end Sys2Proof.Machine
end

