-- ==== Sys2Proof/Machine/HeapTransfer.lean ====
section
/-! DEFINITION. The heap load, store and I/O transfer instructions (44_heap_transfer.md). Address sums are natural
numbers, never reduced (20_memory.md R64). -/

namespace Sys2Proof.Machine

/-- LOAD (R230): one heap byte to a register. -/
def execLoad (d a : Slot) (s : State) : Result :=
  complete 0x15 s do
    let i ← dest s 1 d
    let x ← typed s 2 a
    let b ← memRead s none x.toNat
    return (s.setReg i (zext64 b)).advance 3

/-- STORE (R231): the low bytes of `N` values to successive live addresses; length `3 + N`. -/
def execStore (a n : Slot) (data : List Operand) (s : State) : Result :=
  complete 0x16 s do
    let x ← typed s 1 a
    let k ← typed s 2 n
    let vs ← typedMany s 3 k.toNat data
    checkLiveBytes s x.toNat k.toNat
    return (s.setHeap (s.heap.writeBytes x.toNat (vs.map lowByte))).advance (3 + k.toNat)

/-- WRITE (R232): heap bytes to the out queue. -/
def execWrite (a n : Slot) (s : State) : Result :=
  complete 0x17 s do
    let x ← typed s 1 a
    let k ← typed s 2 n
    let bytes ← memReadBytes s x.toNat k.toNat
    let t ← outAppend s bytes
    return t.advance 3

/-- READ (R233): bytes from the in queue to live heap addresses; it never waits. -/
def execRead (a n : Slot) (s : State) : Result :=
  complete 0x18 s do
    let x ← typed s 1 a
    let k ← typed s 2 n
    checkLiveBytes s x.toNat k.toNat
    let (t, bytes) ← inTake s k.toNat
    return (t.setHeap (s.heap.writeBytes x.toNat bytes)).advance 3

/-- FLUSH (R234): one `DeviceOut` event with the whole of `OUT`, which is then empty. -/
def execFlush (s : State) : Result :=
  complete 0x19 s (.ok (((s.deviceOut s.outq).setOut []).advance 1))

end Sys2Proof.Machine
end

