-- ==== Sys2Proof/Machine/Jump.lean ====
section
/-! DEFINITION. The jump instructions (43_jump.md). A target is a stream position; one at or past the end of the stream
halts the engine at commit (R223). -/

namespace Sys2Proof.Machine

/-- The shape of JZ and JNZ: the function index is resolved also where the jump is not taken (40_pipeline.md R158). -/
def conditionalJump (opcode : Byte) (taken : Bool) (f : Slot) (s : State) : Result :=
  complete opcode s do
    let t ← funcPos s 1 f
    return if taken then s.jumpTo t else s.advance 2

/-- JMP (R220): to an absolute position. -/
def execJmp (t : Slot) (s : State) : Result :=
  complete 0x12 s do
    let x ← typed s 1 t
    return s.jumpTo x.toNat

/-- JZ (R221): taken when `ACC` is 0. -/
def execJz (f : Slot) (s : State) : Result :=
  conditionalJump 0x13 (accIsZero s) f s

/-- JNZ (R222): taken when `ACC` is not 0. -/
def execJnz (f : Slot) (s : State) : Result :=
  conditionalJump 0x14 (!accIsZero s) f s

end Sys2Proof.Machine
end

