-- ==== Sys2Proof/Machine/MoveAlloc.lean ====
section
/-! DEFINITION. The move, increment and allocation instructions (45_move_alloc.md). -/

namespace Sys2Proof.Machine

/-- MOV (R250). -/
def execMov (d v : Slot) (s : State) : Result :=
  complete 0x1A s do
    let i ← dest s 1 d
    let x ← typed s 2 v
    return (s.setReg i x).advance 3

/-- The shape of INC and DEC (R251, R252): a `Reg` operand names a register; any other is resolved to the address of a
live heap byte (30_encoding.md R123). -/
def bump (opcode : Byte) (onReg : Word → Word) (onByte : Byte → Byte) (slot : Slot) (s : State) : Result :=
  complete opcode s do
    let o ← fetchSlot s 1 slot
    if isRegisterForm o then
      let i ← registerIndex s 1 o.payload
      return (s.setReg i (onReg (s.reg i))).advance 2
    else
      let x ← resolveOperand s 1 o
      checkLive s x.toNat
      return (s.setHeap (s.heap.write x.toNat (onByte (s.heap.read x.toNat)))).advance 2

/-- INC (R251): wrapping at the width of the place. -/
def execInc (o : Slot) (s : State) : Result :=
  bump 0x1B (fun v => v + 1) (fun b => b + 1) o s

/-- DEC (R252): wrapping at the width of the place. -/
def execDec (o : Slot) (s : State) : Result :=
  bump 0x1C (fun v => v - 1) (fun b => b - 1) o s

/-- ALLOC (R253): the address of a new extent to a register. -/
def execAlloc (d n : Slot) (s : State) : Result :=
  complete 0x1D s do
    let i ← dest s 1 d
    let k ← typed s 2 n
    let (t, a) ← heapAlloc s k.toNat
    return (t.setReg i (wordOfNat a)).advance 3

/-- FREE (R254): the extent that contains the address. -/
def execFree (a : Slot) (s : State) : Result :=
  complete 0x1E s do
    let x ← typed s 1 a
    let t ← heapFree s x.toNat
    return t.advance 2

/-- REALLOC (R255): the extent the register points into; the register gets its start address afterwards. -/
def execRealloc (d n : Slot) (s : State) : Result :=
  complete 0x1F s do
    let i ← dest s 1 d
    let k ← typed s 2 n
    let (t, a) ← heapRealloc s (s.reg i).toNat k.toNat
    return (t.setReg i (wordOfNat a)).advance 3

end Sys2Proof.Machine
end

