-- ==== Sys2Proof/Machine/Stack.lean ====
section
/-! DEFINITION. The stack instructions (42_stack.md). -/

namespace Sys2Proof.Machine

/-- PUSH (R210): the low byte of a value. -/
def execPush (v : Slot) (s : State) : Result :=
  complete 0x0E s do
    let x ← typed s 1 v
    let t ← stackPush s (lowByte x)
    return t.advance 2

/-- POP (R211): the top byte to a register, its upper bits 0. -/
def execPop (d : Slot) (s : State) : Result :=
  complete 0x0F s do
    let i ← dest s 1 d
    let (t, b) ← stackPop s
    return (t.setReg i (zext64 b)).advance 2

/-- DUP (R212). -/
def execDup (s : State) : Result :=
  complete 0x10 s do
    let t ← stackDup s
    return t.advance 1

/-- SWAP (R213). -/
def execSwap (s : State) : Result :=
  complete 0x11 s do
    let t ← stackSwap s
    return t.advance 1

end Sys2Proof.Machine
end

