-- ==== Sys2Proof/Machine/Dispatch.lean ====
section
/-! DEFINITION. The execution dispatch multiplexer DSP (40_pipeline.md R159): one arm per instruction, each the
instruction's own meaning. -/

namespace Sys2Proof.Machine

def exec (i : Instr) (s : State) : Host.Outcome State Fault Refusal :=
  match i with
  | .nop => Sys2Proof.Machine.execNop s
  | .add l r => Sys2Proof.Machine.execAdd l r s
  | .sub l r => Sys2Proof.Machine.execSub l r s
  | .mul l r => Sys2Proof.Machine.execMul l r s
  | .div l r => Sys2Proof.Machine.execDiv l r s
  | .mod l r => Sys2Proof.Machine.execMod l r s
  | .and l r => Sys2Proof.Machine.execAnd l r s
  | .or l r => Sys2Proof.Machine.execOr l r s
  | .xor l r => Sys2Proof.Machine.execXor l r s
  | .not d => Sys2Proof.Machine.execNot d s
  | .eq l r => Sys2Proof.Machine.execEq l r s
  | .neq l r => Sys2Proof.Machine.execNeq l r s
  | .lt l r => Sys2Proof.Machine.execLt l r s
  | .gt l r => Sys2Proof.Machine.execGt l r s
  | .push v => Sys2Proof.Machine.execPush v s
  | .pop d => Sys2Proof.Machine.execPop d s
  | .dup => Sys2Proof.Machine.execDup s
  | .swap => Sys2Proof.Machine.execSwap s
  | .jmp t => Sys2Proof.Machine.execJmp t s
  | .jz f => Sys2Proof.Machine.execJz f s
  | .jnz f => Sys2Proof.Machine.execJnz f s
  | .load d a => Sys2Proof.Machine.execLoad d a s
  | .store a n data => Sys2Proof.Machine.execStore a n data s
  | .write a n => Sys2Proof.Machine.execWrite a n s
  | .read a n => Sys2Proof.Machine.execRead a n s
  | .flush => Sys2Proof.Machine.execFlush s
  | .mov d v => Sys2Proof.Machine.execMov d v s
  | .inc o => Sys2Proof.Machine.execInc o s
  | .dec o => Sys2Proof.Machine.execDec o s
  | .alloc d n => Sys2Proof.Machine.execAlloc d n s
  | .free a => Sys2Proof.Machine.execFree a s
  | .realloc d n => Sys2Proof.Machine.execRealloc d n s
  | .func label => Sys2Proof.Machine.execFunc label s
  | .call f => Sys2Proof.Machine.execCall f s
  | .ret => Sys2Proof.Machine.execRet s
  | .wracc v => Sys2Proof.Machine.execWracc v s
  | .reacc d => Sys2Proof.Machine.execReacc d s

end Sys2Proof.Machine
end

