-- ==== Sys2Proof/Machine/Fetch.lean ====
section
/-! DEFINITION. The fetch FET (40_pipeline.md R142, R143), what surrounds an instruction in a step (R140, R160, R161), and
where a program's operands are placed. -/

namespace Sys2Proof.Machine

/-- The operands from `pc` on. -/
def operandsAtPc (s : State) : List Operand := s.stream.drop s.pc

/-- What the fetch at `pc` finds (R142, R143): an instruction, or the state the step ends in. An operand that is no
opcode operand and an undefined opcode fault with `opnd = pc` and no opcode. A `pc` at or past the end of the stream is
no fetch: the engine halts there (R141, 10_state.md R33; notes/assumptions/10.md). -/
def fetch (s : State) : Except State Instr :=
  match decodeOperands (operandsAtPc s) with
  | .ok i => .ok i
  | .error .endOfStream => .error (endOfStream s)
  | .error .notOpTag =>
    .error (takeFault s.pc none { reason := .notOpTag, opnd := some s.pc, addr := none } s)
  | .error (.undefinedOpcode p) =>
    .error (takeFault s.pc none { reason := .undefinedOpcode, opnd := some s.pc, addr := some p } s)

/-- The commit (R141, R161): after an instruction, the end of the stream is tested. -/
def commit : Result → Result
  | .next t => .next (endOfStream t)
  | .fault r => .fault r
  | .refused r => .refused r

/-- A stream whose operands from position `pc` on are `ops`: the operands before `pc` stay, and where the stream is too
short for that, literal zeros fill it up. -/
def streamWith (stream : List Operand) (pc : Nat) (ops : List Operand) : List Operand :=
  stream.take pc ++ List.replicate (pc - stream.length) ⟨.u8, 0⟩ ++ ops

/-- A state that runs the operands `ops` next: they stand at `pc`, the stream ends after them, and the engine runs
(notes/assumptions/4.md). -/
def placeOperands (s : State) (ops : List Operand) : State :=
  { s with stream := streamWith s.stream s.pc ops, engState := .running }

end Sys2Proof.Machine
end

