-- ==== Sys2Proof/Machine/Step.lean ====
section
/-! DEFINITION. One step of the block (40_pipeline.md R140, R162), and the placing of an instruction where the step
fetches. -/

namespace Sys2Proof.Machine

/-- The `step` port (60_exceptions.md R330): in `Running`, one whole instruction; in any other engine state there is no
step to take (60_exceptions.md R311). -/
def step (s : State) : Host.Outcome State Fault Refusal :=
  match s.engState with
  | .running =>
    match fetch s with
    | .ok i => commit (exec i s)
    | .error t => .next t
  | .ready => .fault .notStarted
  | .halted => .fault (.runEnded .halted)
  | .faulted => .fault (.runEnded .faulted)
  | .aborted => .fault (.runEnded .aborted)

/-- The state in which the very next step fetches and runs the instruction that the word `w` of the opcode table begins
(notes/assumptions/3.md, notes/assumptions/4.md). -/
def State.withFetchWord (s : State) (nbits w : Nat) : State :=
  placeOperands s (tableOperands nbits w)

end Sys2Proof.Machine
end

