-- ==== Sys2Proof/Machine/Ports.lean ====
section
/-! DEFINITION. The host interface (60_exceptions.md R330 to R335, 70_reset_and_hazards.md R340, R341): the host's
transactions, each taken at an instruction boundary, and what the host reads. A `State` is the block at a boundary, so
"between two instructions" is: on the state between two steps (notes/assumptions/12.md). -/

namespace Sys2Proof.Machine

/-- Reset (70_reset_and_hazards.md R340): the only way out of a terminal engine state. The parameters stay
(notes/assumptions/13.md). DESIGN CHOICE: it is open in `Ready` and `Running` too, where no rule says whether the host may
take it (10_state.md R46, 60_exceptions.md R330; notes/assumptions/18.md). -/
def hostReset (s : State) : Result := .next (State.resetWith s.config)

/-- `start` after the image is decoded (70_reset_and_hazards.md R341, 40_pipeline.md R173): the pre-scan, then `Running`,
or `Halted` on an empty stream. A pre-scan fault leaves the jump table as it was (R310; notes/assumptions/9.md). -/
def enterRun (s : State) : State :=
  match preScan s.config.jtCap 0 s.stream [] with
  | .ok jt => (s.setJt jt).setEng (if s.len = 0 then .halted else .running)
  | .error (q, c) => takeFault q (some 0x20) c s

/-- `start(img, in0)` (70_reset_and_hazards.md R341), open in `Ready`. -/
def start (img in0 : List Byte) (s : State) : Result :=
  match s.engState with
  | .ready => .next (enterRun { s with inq := in0, stream := decodeImage s.config.wireForm img })
  | st => .fault (.portClosed st)

/-- `in_append(bytes)` (R331), open in any engine state but a terminal one. -/
def inAppend (bytes : List Byte) (s : State) : Result :=
  match s.engState with
  | .ready | .running => .next (s.setIn (s.inq ++ bytes))
  | st => .fault (.portClosed st)

/-- `abort` (R332), open in `Ready` and `Running`: `ENG_STATE <- Aborted`, and nothing else. -/
def hostAbort (s : State) : Result :=
  match s.engState with
  | .ready | .running => .next (s.setEng .aborted)
  | st => .fault (.portClosed st)

/-- The transactions of R330 that the host issues. -/
inductive HostEvent where
  | reset
  | start (img in0 : List Byte)
  | step
  | inAppend (bytes : List Byte)
  | abort
  deriving DecidableEq, Repr

/-- The block's answer to a transaction. -/
def transact (e : HostEvent) (s : State) : Result :=
  match e with
  | .reset => hostReset s
  | .start img in0 => start img in0 s
  | .step => step s
  | .inAppend bytes => inAppend bytes s
  | .abort => hostAbort s

/-! ## What the host reads (R334) -/

/-- The `state` port. -/
def stateView (s : State) : Nat := engStateCode s.engState

/-- The `out_view` port. -/
def outView (s : State) : List Byte := s.outq

/-- The `fault` port: the fields of `FAULT` with their codes (10_state.md R37). -/
structure FaultView where
  kind   : Byte
  reason : Byte
  pos    : Nat
  opnd   : Option Nat
  opcode : Option Byte
  addr   : Option Word
  deriving DecidableEq, Repr

/-- What the `fault` port shows. -/
def faultView (s : State) : FaultView where
  kind   := faultKindCode s.fault.kind
  reason := faultReasonCode s.fault.reason
  pos    := s.fault.pos
  opnd   := s.fault.opnd
  opcode := s.fault.opcode
  addr   := s.fault.addr

/-- How a run ended (70_reset_and_hazards.md R344; R312's `RunOutcome`, and the host's cancellation). -/
inductive RunOutcome where
  | halted
  | faulted (context : FaultRecord)
  | aborted
  deriving DecidableEq, Repr

/-- The outcome of a run that is over: `none` in `Ready` and `Running`. -/
def runOutcome (s : State) : Option RunOutcome :=
  match s.engState with
  | .ready | .running => none
  | .halted => some .halted
  | .faulted => some (.faulted s.fault)
  | .aborted => some .aborted

/-- The result of a run (70_reset_and_hazards.md R344): its outcome, the device log and the final `OUT`. -/
structure RunResult where
  outcome : RunOutcome
  devLog  : List (List Byte)
  outq    : List Byte
  deriving DecidableEq, Repr

/-- The result of a run that is over. -/
def runResult (s : State) : Option RunResult :=
  (runOutcome s).map fun o => { outcome := o, devLog := s.devLog, outq := s.outq }

end Sys2Proof.Machine
end

