-- ==== Sys2Proof/Safety.lean ====
section
/-! DEFINITION. What the spec promises of every state at an instruction boundary, as an invariant of the machine, and the
relations that the whole-machine claims compare states by. -/

namespace Sys2Proof.Machine

/-- A table of `n` entries keeps within its capacity (00_scope.md R10). -/
abbrev withinCapacity (cap : Option Nat) (n : Nat) : Prop := ∀ c, cap = some c → n ≤ c

/-- The invariants of every instruction boundary. -/
structure Inv (s : State) : Prop where
  /-- The heap is in canonical form. -/
  heapWf : s.heap.wf
  /-- Every heap byte that is not live holds 0 (20_memory.md R71): every listed cell is live. -/
  heapLive : ∀ c ∈ s.heap, live s.ext c.1 = true
  /-- `0 <= s < e <= HEAP_SIZE` (R61). -/
  extProper : ∀ e ∈ s.ext, e.start < e.stop ∧ e.stop ≤ s.config.heapSize
  /-- "Extents never overlap", and `EXT` is ordered by `s` (R61). -/
  extOrdered : s.ext.Pairwise (fun e f => e.stop ≤ f.start)
  /-- The stack array is in canonical form. -/
  stackWf : s.stack.wf
  /-- The stack array has the places `0 .. STACK_CAP-1` (R75). -/
  stackInside : ∀ c ∈ s.stack, c.1 < s.config.stackCap
  /-- `SP <= STACK_CAP` (R75). -/
  spBound : s.sp ≤ s.config.stackCap
  /-- `|CS| <= CS_CAP` (10_state.md R40). -/
  csBound : withinCapacity s.config.csCap s.cs.length
  /-- `|JT| <= JT_CAP` (10_state.md R39). -/
  jtBound : withinCapacity s.config.jtCap s.jt.length
  /-- `|OUT| <= OUT_CAP` (10_state.md R43). -/
  outBound : withinCapacity s.config.outCap s.outq.length
  /-- Every jump-table entry is the position after two operands of the stream (40_pipeline.md R170, 46_function_call.md
  R270), so at most `LEN`. -/
  jtInside : ∀ p ∈ s.jt, p ≤ s.len
  /-- Every return position is the position after a CALL (46_function_call.md R271), so at most `LEN`. -/
  csInside : ∀ p ∈ s.cs, p ≤ s.len
  /-- `Ready` (pointer = 0) (10_state.md R35), and no stream is loaded yet (70_reset_and_hazards.md R341). -/
  readyAtStart : s.engState = .ready → s.pc = 0 ∧ s.stream = []
  /-- `Running` only while `pc < LEN` (40_pipeline.md R141). -/
  runningInside : s.engState = .running → s.pc < s.len
  /-- `Halted`: the pointer reached the end of the stream (10_state.md R35). -/
  haltedAtEnd : s.engState = .halted → s.len ≤ s.pc
  /-- `FAULT` is written when the engine enters `Faulted`, and only then (10_state.md R37). -/
  faultRecorded : s.engState = .faulted ↔ s.fault.kind ≠ none
  /-- The recorded kind is the kind of the recorded reason (60_exceptions.md R301). -/
  faultConsistent : s.fault.kind = s.fault.reason.map faultKindOf

/-- What a fault leaves (60_exceptions.md R310, R160): the state from before the instruction, with `ENG_STATE` = `Faulted`
and `FAULT` written, its position that of the instruction. -/
def faultedState (s : State) (kind : FaultKind) (reason : FaultReason) (opnd : Option Nat) (opcode : Option Byte)
    (addr : Option Word) : State :=
  { s with
    engState := .faulted
    fault :=
      { kind := some kind, reason := some reason, pos := s.pc, opnd := opnd, opcode := opcode, addr := addr } }

/-- What an operand's fault leaves, for the instruction with the opcode's code. -/
def faultedBy (s : State) (opcode : Byte) (c : FaultCause) : State :=
  faultedState s (faultKindOf c.reason) c.reason c.opnd (some opcode) c.addr

/-- No address of `a .. a+n-1` is live, and all of them lie in the heap: a free range of `n` bytes (20_memory.md R65). -/
def Fits (s : State) (n a : Nat) : Prop :=
  a + n ≤ s.config.heapSize ∧ ∀ x, a ≤ x → x < a + n → live s.ext x = false

/-- `a` is the lowest start of a free range of `n` bytes (20_memory.md R65). -/
def LowestFit (s : State) (n a : Nat) : Prop :=
  Fits s n a ∧ ∀ b, b < a → ¬ Fits s n b

/-- A function-definition marker stands at position `q` (40_pipeline.md R170): an operand tagged `Op` with the payload
0x20, and after it one tagged `Func`. -/
def markerAt (stream : List Operand) (q : Nat) : Bool :=
  match stream[q]?, stream[q + 1]? with
  | some o, some label => o.tag == .op && o.payload == 0x20 && label.tag == .func
  | _, _ => false

/-- An engine state that no instruction and no step leaves (10_state.md R35). -/
def EngState.terminal : EngState → Bool
  | .ready | .running => false
  | .halted | .faulted | .aborted => true

/-- The states agree but for stack bytes at or above `SP` (20_memory.md R81). -/
def SameButResidue (s t : State) : Prop :=
  t = { s with stack := t.stack } ∧ ∀ k, k < s.sp → t.stack.read k = s.stack.read k

/-- The states agree but for what no instruction reads back: the fault record (10_state.md R37) and the device log
(60_exceptions.md R333). -/
def SameButReports (s t : State) : Prop :=
  t = { s with fault := t.fault, devLog := t.devLog }

/-- Both answers are next states and the next states are related, or neither is a next state. -/
def RelatedAnswers (R : State → State → Prop) (p q : Result) : Prop :=
  (∃ s t, p = .next s ∧ q = .next t ∧ R s t) ∨ ((∀ s, p ≠ .next s) ∧ ∀ t, q ≠ .next t)

end Sys2Proof.Machine
end

