-- ==== Sys2Proof/WellFormed.lean ====
section
/-! DEFINITION. Which instructions a wire form can carry. An operand is never illegal in itself (30_encoding.md R126),
so an instruction is well-formed when every operand of its shape is there (R122) and every payload fits the form's
payload bytes (R107 for the compact form, R113 for the wide form). -/

namespace Sys2Proof

/-- The payload bytes of a tag in a wire form (R104, R110). -/
def Tag.width (t : Tag) : WireForm → Nat
  | .compact => 1
  | .wide => t.wideWidth

/-- The wire form has an encoding for the operand (R107, R113). One whose payload is larger is refused
(93_implementation_defined.md row 11). -/
def Operand.wellFormed (form : WireForm) (o : Operand) : Bool :=
  o.payload.toNat < 256 ^ o.tag.width form

/-- The operand is in the stream, and the wire form has an encoding for it. -/
def Slot.wellFormed (form : WireForm) : Slot → Bool
  | some o => o.wellFormed form
  | none => false

/-- Every operand of the instruction is there and has an encoding. -/
def Instr.wellFormed (form : WireForm) (i : Instr) : Bool :=
  i.slots.all (Slot.wellFormed form) && i.tail.all (Operand.wellFormed form)

end Sys2Proof
end

