-- ==== Sys2Proof/Certificates/Slice0/Obligations.lean ====
section
/-! DEFINITION. The statements for the provers. Each says what the spec's rules say an instruction, the decoder, the
allocator or the whole block does. R<n> is a rule of the spec; D<n> is a decision of the spec itself
(92_eei_decisions.md) that the rule carries. `typed`, `untyped`, `dest` and `funcPos` are the operand fetches of
40_pipeline.md: a hypothesis `typed s 1 l = .ok x` says that the operand at `pc + 1` is readable and what it resolves to,
and `OperandsResolveByTag` and `OtherFetchModesIgnoreTheTag` say when that is so. `wordOfNat n` is the number `n` in 64
bits; for an `n` of `2^64` or more it is the free value of notes/assumptions/6.md, the model's choice, and every statement
that names it has basis 'derived'. -/

open Sys2Proof Sys2Proof.Machine

/-! ## Encoding -/

/-- Words written out from the encodings of 41_nop_alu.md to 47_accumulator.md decode to their instructions. -/
def Obligations.WrittenOutWordsDecode : Prop :=
  decode .compact [0x0B, 0x01, 0x00, 0x03, 0x00, 0x04] = .ok (.add (some ⟨.u8, 3⟩) (some ⟨.u8, 4⟩)) ∧
  decode .compact [0x0B, 0x09, 0x09, 0x02] = .ok (.not (some ⟨.reg, 2⟩)) ∧
  decode .compact [0x0B, 0x0F, 0x09, 0x04] = .ok (.pop (some ⟨.reg, 4⟩)) ∧
  decode .compact [0x0B, 0x13, 0x0A, 0x00] = .ok (.jz (some ⟨.func, 0⟩)) ∧
  decode .compact [0x0B, 0x16, 0x09, 0x02, 0x00, 0x01, 0x09, 0x03] =
    .ok (.store (some ⟨.reg, 2⟩) (some ⟨.u8, 1⟩) [⟨.reg, 3⟩]) ∧
  decode .compact [0x0B, 0x1D, 0x09, 0x01, 0x00, 0x05] = .ok (.alloc (some ⟨.reg, 1⟩) (some ⟨.u8, 5⟩)) ∧
  decode .compact [0x0B, 0x22] = .ok .ret ∧
  decode .wide [0x0B, 0x01, 0x01, 0x00, 0x00, 0x00, 0x00, 0x00, 0x00, 0x00, 0x03, 0x00, 0x04] =
    .ok (.add (some ⟨.u64, 3⟩) (some ⟨.u8, 4⟩))

/-- Decoding an encoded well-formed instruction gives it back, in both wire forms, with every operand at every value the
form can carry (R107, R113). -/
def Obligations.DecodeOfEncode : Prop :=
  ∀ (form : WireForm) (i : Instr), i.wellFormed form = true → decode form (encode form i) = .ok i

/-- The compact decoder (R105, R106): `LEN = n div 2`; operand `i` is the tag of byte `2i` and the widened byte `2i + 1`;
an odd last byte plays no part. Every tag is read back from its code, and 0x0F to 0xFF are `NoType` (R101, R102). -/
def Obligations.CompactDecoderPointwise : Prop :=
  (∀ img : List Byte,
    (decodeCompact img).length = img.length / 2 ∧
    ∀ i, i < img.length / 2 →
      (decodeCompact img)[i]? =
        some ⟨tagOf (img.getD (2 * i) 0), BitVec.ofNat 64 (img.getD (2 * i + 1) 0).toNat⟩) ∧
  (∀ t : Tag, tagOf (tagCode t) = t) ∧ ∀ b : Byte, 0x0F ≤ b.toNat → tagOf b = .noType

/-- The compact encoder (R107): an operand with a payload of at most 255 is its tag code and its payload, and comes back; no
image decodes to a larger payload; a decoded stream re-encodes to its image with an odd last byte removed and unknown tag
codes replaced by 0x0E. Nothing is said of what the model's encoder gives for a larger payload, which has no compact
encoding (notes/assumptions/17.md). -/
def Obligations.CompactEncoderRoundTrips : Prop :=
  (∀ o : Operand, o.payload.toNat ≤ 255 →
    encodeOperand .compact o = [tagCode o.tag, BitVec.ofNat 8 o.payload.toNat]) ∧
  (∀ ops : List Operand, (∀ o ∈ ops, o.payload.toNat ≤ 255) →
    decodeCompact (encodeImage .compact ops) = ops) ∧
  (∀ (img : List Byte), ∀ o ∈ decodeCompact img, o.payload.toNat ≤ 255) ∧
  ∀ (img : List Byte) (i : Nat), i < 2 * (img.length / 2) →
    (encodeImage .compact (decodeCompact img)).length = 2 * (img.length / 2) ∧
    (encodeImage .compact (decodeCompact img))[i]? =
      some (if i % 2 = 0 ∧ 0x0F ≤ (img.getD i 0).toNat then 0x0E else img.getD i 0)

/-- The wide decoder (R110, R112) takes operands off an image one by one: a tag byte and its `w(t)` payload bytes give the
number the bytes spell, most significant first, modulo `2^64`; an incomplete last operand is dropped. -/
def Obligations.WideDecoderTakesOperandsInOrder : Prop :=
  decodeWide [] = [] ∧
  (∀ (b : Byte) (payload rest : List Byte), payload.length = (tagOf b).wideWidth →
    decodeWide (b :: (payload ++ rest)) =
      ⟨tagOf b,
        BitVec.ofNat 64
          (((List.range payload.length).map fun i =>
              (payload.getD i 0).toNat * 256 ^ (payload.length - 1 - i)).sum % 2 ^ 64)⟩ :: decodeWide rest) ∧
  ∀ (b : Byte) (payload : List Byte), payload.length < (tagOf b).wideWidth → decodeWide (b :: payload) = []

/-- The wide encoder (R113): the operands whose payloads fit their width come back. Where every tag has a one-byte payload
the two forms are the same bytes and the same stream (R114). -/
def Obligations.WideEncoderRoundTrips : Prop :=
  (∀ ops : List Operand, (∀ o ∈ ops, o.payload.toNat < 256 ^ o.tag.wideWidth) →
    decodeWide (encodeImage .wide ops) = ops) ∧
  ∀ ops : List Operand, (∀ o ∈ ops, o.tag.wideWidth = 1 ∧ o.payload.toNat ≤ 255) →
    encodeImage .compact ops = encodeImage .wide ops ∧
    decodeWide (encodeImage .compact ops) = decodeCompact (encodeImage .compact ops)

/-! ## Fetch and step -/

/-- A step runs the decoded instruction (R140, R161, R162): `exec`, and then the test for the end of the stream. -/
def Obligations.StepRunsTheDecodedInstruction : Prop :=
  ∀ (s : State) (i : Instr), s.engState = .running → decodeOperands (s.stream.drop s.pc) = .ok i →
    ∃ t, exec i s = .next t ∧
      step s = .next
        { t with
          engState := if t.engState = .running ∧ t.stream.length ≤ t.pc then .halted else t.engState }

/-- The two faults of the fetch (R142, R143, R121): an operand that is not tagged `Op`, and an opcode above 0x24; up to
0x24 the operand begins an instruction. -/
def Obligations.FetchFaultsOnNonOpcodes : Prop :=
  ∀ (s : State) (o : Operand), s.engState = .running → s.stream[s.pc]? = some o →
    (o.tag ≠ .op → step s = .next (faultedState s .invalidOpcode .notOpTag (some s.pc) none none)) ∧
    (o.tag = .op → 0x24 < o.payload.toNat →
      step s = .next (faultedState s .invalidOpcode .undefinedOpcode (some s.pc) none (some o.payload))) ∧
    (o.tag = .op → o.payload.toNat ≤ 0x24 →
      ∃ i, decodeOperands (s.stream.drop s.pc) = .ok i ∧ (opcodeCode i.opcode).toNat = o.payload.toNat)

/-- After a step the engine is faulted, or it is halted when `pc >= LEN` and running otherwise (R141). The clause for a step
that itself starts at `pc >= LEN`, which no run reaches, is the model's (notes/assumptions/10.md). -/
def Obligations.StepHaltsExactlyAtTheEnd : Prop :=
  ∀ s t : State, step s = .next t →
    t.engState = .faulted ∨ t.engState = if t.stream.length ≤ t.pc then .halted else .running

/-- `step` is taken only in `Running` (R311, R330, R340): in any other engine state there is no next state, and of the
host's transactions only reset leaves a terminal one. The model's choices: the named answers where there is no next state
(notes/assumptions/2.md, notes/assumptions/11.md); that reset keeps the parameters and empties the device log
(notes/assumptions/13.md) and leaves `IN` empty (notes/assumptions/15.md). -/
def Obligations.TerminalStatesAreLeftOnlyByReset : Prop :=
  (∀ s : State, s.engState = .ready → step s = .fault .notStarted) ∧
  (∀ s : State, s.engState.terminal = true → step s = .fault (.runEnded s.engState)) ∧
  ∀ (e : HostEvent) (s t : State), s.engState.terminal = true → transact e s = .next t →
    e = .reset ∧ t = State.resetWith s.config

/-! ## Operands -/

/-- The tag router (R151, R154 to R157; D8, D9, D10, D11): the value of every tag, and every fault with its record. Of a
`Func` operand that names a position of `2^64` or more it says only that it resolves, which is the model's choice
(notes/assumptions/6.md). -/
def Obligations.OperandsResolveByTag : Prop :=
  ∀ (s : State) (j : Nat) (p : Word),
    (∀ t ∈ [Tag.u8, .u64, .u128, .i8, .i64, .i128, .f32, .f64, .addr, .noType],
      typed s j (some ⟨t, p⟩) = .ok p) ∧
    (∀ d : Fin 60, p.toNat = d.val → typed s j (some ⟨.reg, p⟩) = .ok (s.regs.get d)) ∧
    (p.toNat < s.sp →
      typed s j (some ⟨.derefStack, p⟩) = .ok (BitVec.ofNat 64 (s.stack.read (s.sp - 1 - p.toNat)).toNat)) ∧
    (s.sp ≤ p.toNat →
      typed s j (some ⟨.derefStack, p⟩) = .error ⟨.offsetOutOfRange, some (s.pc + j), some p⟩) ∧
    (∀ d : Fin 60, p.toNat = d.val → (s.regs.get d).toNat < s.config.heapSize →
      typed s j (some ⟨.derefHeapReg, p⟩) = .ok (BitVec.ofNat 64 (s.heap.read (s.regs.get d).toNat).toNat)) ∧
    (∀ d : Fin 60, p.toNat = d.val → s.config.heapSize ≤ (s.regs.get d).toNat →
      typed s j (some ⟨.derefHeapReg, p⟩) =
        .error ⟨.readOutOfRange, some (s.pc + j), some (s.regs.get d)⟩) ∧
    (60 ≤ p.toNat → ∀ t ∈ [Tag.reg, .derefHeapReg],
      typed s j (some ⟨t, p⟩) = .error ⟨.badRegister, some (s.pc + j), some p⟩) ∧
    (∀ q, s.jt[p.toNat]? = some q →
      ∃ v, typed s j (some ⟨.func, p⟩) = .ok v ∧ (q < 2 ^ 64 → v = BitVec.ofNat 64 q)) ∧
    (s.jt.length ≤ p.toNat →
      typed s j (some ⟨.func, p⟩) = .error ⟨.badFunctionIndex, some (s.pc + j), some p⟩) ∧
    typed s j (some ⟨.op, p⟩) = .error ⟨.opTagOperand, some (s.pc + j), none⟩

/-- The other fetch modes ignore the tag (R150, R152, R153): a label's payload, a register index below 60, a function
index below `|JT|`. -/
def Obligations.OtherFetchModesIgnoreTheTag : Prop :=
  ∀ (s : State) (j : Nat) (t : Tag) (p : Word),
    untyped s j (some ⟨t, p⟩) = .ok p ∧
    (∀ d : Fin 60, p.toNat = d.val → dest s j (some ⟨t, p⟩) = .ok d) ∧
    (60 ≤ p.toNat → dest s j (some ⟨t, p⟩) = .error ⟨.badRegister, some (s.pc + j), some p⟩) ∧
    (∀ q, s.jt[p.toNat]? = some q → funcPos s j (some ⟨t, p⟩) = .ok q) ∧
    (s.jt.length ≤ p.toNat →
      funcPos s j (some ⟨t, p⟩) = .error ⟨.badFunctionIndex, some (s.pc + j), some p⟩)

/-- An operand at or past the end of the stream is `Truncated` (R145, R158). Operand `j` of an instruction is the stream's
at `pc + 1 + j`, and an operand the stream does not hold is an empty slot (notes/assumptions/5.md); an empty slot is
`Truncated` in every mode, and where it is the first one the instruction takes that fault and does nothing else. So a step
whose shape runs past the end of the stream is `Truncated` at `LEN`, unless the operand before the missing one has a
fault of its own. -/
def Obligations.MissingOperandsAreTruncated : Prop :=
  (∀ (s : State) (j : Nat),
    typed s j none = .error ⟨.truncated, some (s.pc + j), none⟩ ∧
    untyped s j none = .error ⟨.truncated, some (s.pc + j), none⟩ ∧
    dest s j none = .error ⟨.truncated, some (s.pc + j), none⟩ ∧
    funcPos s j none = .error ⟨.truncated, some (s.pc + j), none⟩) ∧
  (∀ (s : State) (i : Instr), decodeOperands (s.stream.drop s.pc) = .ok i →
    (∀ j, j < i.slots.length → i.slots[j]? = some s.stream[s.pc + 1 + j]?) ∧
    (i.opcode = .store → ∀ k, i.tail[k]? = s.stream[s.pc + 3 + k]?)) ∧
  (∀ (i : Instr) (s : State), i.slots.head? = some none →
    exec i s = .next
      (faultedState s .operandFault .truncated (some (s.pc + 1)) (some (opcodeCode i.opcode)) none)) ∧
  ∀ (s : State) (i : Instr), s.engState = .running → decodeOperands (s.stream.drop s.pc) = .ok i →
    s.stream.length < s.pc + 1 + i.slots.length →
    ∃ c, step s = .next (faultedBy s (opcodeCode i.opcode) c) ∧
      (c = ⟨.truncated, some s.stream.length, none⟩ ∨
        (s.stream.length = s.pc + 2 ∧ c.opnd = some (s.pc + 1) ∧ c.reason ≠ .truncated))

/-! ## Faults -/

/-- All or nothing (R160, R310): a step that ends in `Faulted` has changed `ENG_STATE` and `FAULT` and nothing else; the
record names the instruction's position, and its kind is its reason's. Any other step leaves `FAULT` as it was (R37). -/
def Obligations.FaultsChangeNothingElse : Prop :=
  ∀ s t : State, step s = .next t →
    (t.engState = .faulted →
      t = { s with engState := .faulted, fault := t.fault } ∧ t.fault.pos = s.pc ∧
        ∃ r, t.fault.reason = some r ∧ t.fault.kind = some (faultKindOf r)) ∧
    (t.engState ≠ .faulted → t.fault = s.fault)

/-- "Every instruction may run at every point of every run" (R314): in every state every instruction answers a next state,
its effect or its fault, and a running engine still steps. -/
def Obligations.EveryInstructionRunsEverywhere : Prop :=
  (∀ (i : Instr) (s : State), ∃ t, exec i s = .next t ∧ (t.engState = s.engState ∨ t.engState = .faulted)) ∧
  ∀ s : State, s.engState = .running → ∃ t, step s = .next t

/-! ## NOP, arithmetic, bitwise and comparison -/

/-- NOP (R180): `pc <- pc + 1` and nothing else. -/
def Obligations.NopOnlyAdvances : Prop :=
  ∀ (s : State) (rest : List Operand),
    decodeOperands (⟨.op, 0x00⟩ :: rest) = .ok .nop ∧ exec .nop s = .next { s with pc := s.pc + 1 }

/-- ADD, SUB and MUL (R181, R182, R183): the result modulo `2^64` in `ACC`, nothing else written; the first operand that
faults decides the fault. -/
def Obligations.AddSubMulWrapIntoAcc : Prop :=
  ∀ (s : State) (l r : Slot),
    (∀ x y, typed s 1 l = .ok x → typed s 2 r = .ok y →
      exec (.add l r) s = .next { s with acc := BitVec.ofNat 64 (x.toNat + y.toNat), pc := s.pc + 3 } ∧
      exec (.sub l r) s = .next { s with acc := BitVec.ofInt 64 ((x.toNat : Int) - y.toNat), pc := s.pc + 3 } ∧
      exec (.mul l r) s = .next { s with acc := BitVec.ofNat 64 (x.toNat * y.toNat), pc := s.pc + 3 }) ∧
    (∀ c, (typed s 1 l = .error c ∨ ∃ x, typed s 1 l = .ok x ∧ typed s 2 r = .error c) →
      exec (.add l r) s = .next (faultedBy s 0x01 c) ∧
      exec (.sub l r) s = .next (faultedBy s 0x02 c) ∧
      exec (.mul l r) s = .next (faultedBy s 0x03 c)) ∧
    ∀ (o q : Operand) (rest : List Operand),
      decodeOperands (⟨.op, 0x01⟩ :: o :: q :: rest) = .ok (.add (some o) (some q)) ∧
      decodeOperands (⟨.op, 0x02⟩ :: o :: q :: rest) = .ok (.sub (some o) (some q)) ∧
      decodeOperands (⟨.op, 0x03⟩ :: o :: q :: rest) = .ok (.mul (some o) (some q))

/-- DIV and MOD (R184, R185): the unsigned quotient and remainder; a divisor of 0 is an `ArithmeticFault` at the second
operand. -/
def Obligations.DivModAreUnsignedAndFaultOnZero : Prop :=
  ∀ (s : State) (l r : Slot),
    (∀ x y, typed s 1 l = .ok x → typed s 2 r = .ok y → y ≠ 0 →
      exec (.div l r) s = .next { s with acc := BitVec.ofNat 64 (x.toNat / y.toNat), pc := s.pc + 3 } ∧
      exec (.mod l r) s = .next { s with acc := BitVec.ofNat 64 (x.toNat % y.toNat), pc := s.pc + 3 }) ∧
    (∀ x, typed s 1 l = .ok x → typed s 2 r = .ok 0 →
      exec (.div l r) s =
        .next (faultedState s .arithmeticFault .divByZero (some (s.pc + 2)) (some 0x04) none) ∧
      exec (.mod l r) s =
        .next (faultedState s .arithmeticFault .modByZero (some (s.pc + 2)) (some 0x05) none)) ∧
    (∀ c, (typed s 1 l = .error c ∨ ∃ x, typed s 1 l = .ok x ∧ typed s 2 r = .error c) →
      exec (.div l r) s = .next (faultedBy s 0x04 c) ∧
      exec (.mod l r) s = .next (faultedBy s 0x05 c)) ∧
    ∀ (o q : Operand) (rest : List Operand),
      decodeOperands (⟨.op, 0x04⟩ :: o :: q :: rest) = .ok (.div (some o) (some q)) ∧
      decodeOperands (⟨.op, 0x05⟩ :: o :: q :: rest) = .ok (.mod (some o) (some q))

/-- AND, OR and XOR (R186, R187, R188): bit by bit into `ACC`, nothing else written. -/
def Obligations.BitwiseOpsWriteAcc : Prop :=
  ∀ (s : State) (l r : Slot),
    (∀ x y, typed s 1 l = .ok x → typed s 2 r = .ok y →
      exec (.and l r) s = .next { s with acc := BitVec.ofNat 64 (x.toNat &&& y.toNat), pc := s.pc + 3 } ∧
      exec (.or l r) s = .next { s with acc := BitVec.ofNat 64 (x.toNat ||| y.toNat), pc := s.pc + 3 } ∧
      exec (.xor l r) s = .next { s with acc := BitVec.ofNat 64 (x.toNat ^^^ y.toNat), pc := s.pc + 3 }) ∧
    (∀ c, (typed s 1 l = .error c ∨ ∃ x, typed s 1 l = .ok x ∧ typed s 2 r = .error c) →
      exec (.and l r) s = .next (faultedBy s 0x06 c) ∧
      exec (.or l r) s = .next (faultedBy s 0x07 c) ∧
      exec (.xor l r) s = .next (faultedBy s 0x08 c)) ∧
    ∀ (o q : Operand) (rest : List Operand),
      decodeOperands (⟨.op, 0x06⟩ :: o :: q :: rest) = .ok (.and (some o) (some q)) ∧
      decodeOperands (⟨.op, 0x07⟩ :: o :: q :: rest) = .ok (.or (some o) (some q)) ∧
      decodeOperands (⟨.op, 0x08⟩ :: o :: q :: rest) = .ok (.xor (some o) (some q))

/-- NOT (R189; `~v` is `2^64-1-v`, R12): one register complemented in place; `ACC` is not written. -/
def Obligations.NotComplementsOneRegister : Prop :=
  ∀ (s : State) (d : Slot),
    (∀ i, dest s 1 d = .ok i →
      exec (.not d) s = .next
        { s with regs := s.regs.set i (BitVec.ofNat 64 (2 ^ 64 - 1 - (s.regs.get i).toNat)), pc := s.pc + 2 }) ∧
    (∀ c, dest s 1 d = .error c → exec (.not d) s = .next (faultedBy s 0x09 c)) ∧
    ∀ (o : Operand) (rest : List Operand), decodeOperands (⟨.op, 0x09⟩ :: o :: rest) = .ok (.not (some o))

/-- EQ, NEQ, LT and GT (R190 to R193, R196): unsigned (D26), 1 or 0 into `ACC`, nothing else written. -/
def Obligations.ComparisonsLeaveOneOrZero : Prop :=
  ∀ (s : State) (l r : Slot),
    (∀ x y, typed s 1 l = .ok x → typed s 2 r = .ok y →
      exec (.eq l r) s = .next { s with acc := if x.toNat = y.toNat then 1 else 0, pc := s.pc + 3 } ∧
      exec (.neq l r) s = .next { s with acc := if x.toNat ≠ y.toNat then 1 else 0, pc := s.pc + 3 } ∧
      exec (.lt l r) s = .next { s with acc := if x.toNat < y.toNat then 1 else 0, pc := s.pc + 3 } ∧
      exec (.gt l r) s = .next { s with acc := if y.toNat < x.toNat then 1 else 0, pc := s.pc + 3 }) ∧
    (∀ c, (typed s 1 l = .error c ∨ ∃ x, typed s 1 l = .ok x ∧ typed s 2 r = .error c) →
      exec (.eq l r) s = .next (faultedBy s 0x0A c) ∧
      exec (.neq l r) s = .next (faultedBy s 0x0B c) ∧
      exec (.lt l r) s = .next (faultedBy s 0x0C c) ∧
      exec (.gt l r) s = .next (faultedBy s 0x0D c)) ∧
    ∀ (o q : Operand) (rest : List Operand),
      decodeOperands (⟨.op, 0x0A⟩ :: o :: q :: rest) = .ok (.eq (some o) (some q)) ∧
      decodeOperands (⟨.op, 0x0B⟩ :: o :: q :: rest) = .ok (.neq (some o) (some q)) ∧
      decodeOperands (⟨.op, 0x0C⟩ :: o :: q :: rest) = .ok (.lt (some o) (some q)) ∧
      decodeOperands (⟨.op, 0x0D⟩ :: o :: q :: rest) = .ok (.gt (some o) (some q))

/-! ## Stack -/

/-- PUSH (R210, R76): the low byte at `SP`, every other stack byte as before; a full stack is `Overflow`. -/
def Obligations.PushStoresTheLowByte : Prop :=
  ∀ (s : State) (v : Slot),
    (∀ x, s.stack.wf → typed s 1 v = .ok x → s.sp ≠ s.config.stackCap →
      ∃ t, exec (.push v) s = .next t ∧
        t = { s with stack := t.stack, sp := s.sp + 1, pc := s.pc + 2 } ∧
        ∀ k, t.stack.read k = if k = s.sp then BitVec.ofNat 8 x.toNat else s.stack.read k) ∧
    (∀ x, typed s 1 v = .ok x → s.sp = s.config.stackCap →
      exec (.push v) s =
        .next (faultedState s .stackFault .overflow none (some 0x0E) (some (wordOfNat s.sp)))) ∧
    (∀ c, typed s 1 v = .error c → exec (.push v) s = .next (faultedBy s 0x0E c)) ∧
    ∀ (o : Operand) (rest : List Operand), decodeOperands (⟨.op, 0x0E⟩ :: o :: rest) = .ok (.push (some o))

/-- POP (R211, R77): the top byte, widened, to a register; no stack byte changes; an empty stack is `Underflow`, after
the register index is checked. -/
def Obligations.PopMovesTheTopByte : Prop :=
  ∀ (s : State) (d : Slot),
    (∀ i, dest s 1 d = .ok i → s.sp ≠ 0 →
      exec (.pop d) s = .next
        { s with
          regs := s.regs.set i (BitVec.ofNat 64 (s.stack.read (s.sp - 1)).toNat), sp := s.sp - 1, pc := s.pc + 2 }) ∧
    (∀ i, dest s 1 d = .ok i → s.sp = 0 →
      exec (.pop d) s = .next (faultedState s .stackFault .underflow none (some 0x0F) (some 0))) ∧
    (∀ c, dest s 1 d = .error c → exec (.pop d) s = .next (faultedBy s 0x0F c)) ∧
    ∀ (o : Operand) (rest : List Operand), decodeOperands (⟨.op, 0x0F⟩ :: o :: rest) = .ok (.pop (some o))

/-- DUP (R212): the top byte once more at `SP`, every other stack byte as before; `Underflow` on an empty stack, else
`Overflow` on a full one. -/
def Obligations.DupCopiesTheTopByte : Prop :=
  ∀ s : State,
    (s.stack.wf → s.sp ≠ 0 → s.sp ≠ s.config.stackCap →
      ∃ t, exec .dup s = .next t ∧
        t = { s with stack := t.stack, sp := s.sp + 1, pc := s.pc + 1 } ∧
        ∀ k, t.stack.read k = if k = s.sp then s.stack.read (s.sp - 1) else s.stack.read k) ∧
    (s.sp = 0 → exec .dup s = .next (faultedState s .stackFault .underflow none (some 0x10) (some 0))) ∧
    (s.sp ≠ 0 → s.sp = s.config.stackCap →
      exec .dup s =
        .next (faultedState s .stackFault .overflow none (some 0x10) (some (wordOfNat s.sp)))) ∧
    ∀ rest : List Operand, decodeOperands (⟨.op, 0x10⟩ :: rest) = .ok .dup

/-- SWAP (R213): the top two bytes exchanged, every other stack byte and `SP` as before; `Underflow` below two bytes. -/
def Obligations.SwapExchangesTheTopTwoBytes : Prop :=
  ∀ s : State,
    (s.stack.wf → 2 ≤ s.sp →
      ∃ t, exec .swap s = .next t ∧
        t = { s with stack := t.stack, pc := s.pc + 1 } ∧
        ∀ k, t.stack.read k =
          if k = s.sp - 1 then s.stack.read (s.sp - 2)
          else if k = s.sp - 2 then s.stack.read (s.sp - 1) else s.stack.read k) ∧
    (s.sp < 2 →
      exec .swap s =
        .next (faultedState s .stackFault .underflow none (some 0x11) (some (BitVec.ofNat 64 s.sp)))) ∧
    ∀ rest : List Operand, decodeOperands (⟨.op, 0x11⟩ :: rest) = .ok .swap

/-! ## Jumps -/

/-- JMP (R220): `pc` becomes the resolved value, whatever it is, also past the end of the stream (D14); nothing else
changes. -/
def Obligations.JmpGoesToTheResolvedPosition : Prop :=
  ∀ (s : State) (t : Slot),
    (∀ x, typed s 1 t = .ok x → exec (.jmp t) s = .next { s with pc := x.toNat }) ∧
    (∀ c, typed s 1 t = .error c → exec (.jmp t) s = .next (faultedBy s 0x12 c)) ∧
    ∀ (o : Operand) (rest : List Operand), decodeOperands (⟨.op, 0x12⟩ :: o :: rest) = .ok (.jmp (some o))

/-- JZ and JNZ (R221, R222): one of the two is taken, JZ when `ACC` is 0; a bad function index faults whether or not the
jump would be taken. -/
def Obligations.ConditionalJumpsTestAcc : Prop :=
  ∀ (s : State) (f : Slot),
    (∀ p, funcPos s 1 f = .ok p →
      exec (.jz f) s = .next { s with pc := if s.acc.toNat = 0 then p else s.pc + 2 } ∧
      exec (.jnz f) s = .next { s with pc := if s.acc.toNat = 0 then s.pc + 2 else p }) ∧
    (∀ c, funcPos s 1 f = .error c →
      exec (.jz f) s = .next (faultedBy s 0x13 c) ∧ exec (.jnz f) s = .next (faultedBy s 0x14 c)) ∧
    ∀ (o : Operand) (rest : List Operand),
      decodeOperands (⟨.op, 0x13⟩ :: o :: rest) = .ok (.jz (some o)) ∧
      decodeOperands (⟨.op, 0x14⟩ :: o :: rest) = .ok (.jnz (some o))

/-! ## Heap transfer and I/O -/

/-- LOAD (R230, R62): the byte at the address, widened, to the register; the address need only lie in the heap. -/
def Obligations.LoadReadsOneHeapByte : Prop :=
  ∀ (s : State) (d a : Slot),
    (∀ i x, dest s 1 d = .ok i → typed s 2 a = .ok x → x.toNat < s.config.heapSize →
      exec (.load d a) s = .next
        { s with regs := s.regs.set i (BitVec.ofNat 64 (s.heap.read x.toNat).toNat), pc := s.pc + 3 }) ∧
    (∀ i x, dest s 1 d = .ok i → typed s 2 a = .ok x → s.config.heapSize ≤ x.toNat →
      exec (.load d a) s =
        .next (faultedState s .memoryFault .readOutOfRange none (some 0x15) (some x))) ∧
    (∀ c, (dest s 1 d = .error c ∨ ∃ i, dest s 1 d = .ok i ∧ typed s 2 a = .error c) →
      exec (.load d a) s = .next (faultedBy s 0x15 c)) ∧
    ∀ (o q : Operand) (rest : List Operand),
      decodeOperands (⟨.op, 0x15⟩ :: o :: q :: rest) = .ok (.load (some o) (some q))

/-- STORE completes (R231, R63, R64): the low bytes of the `N` values at the `N` addresses from `a`, every other heap byte
as before, length `3 + N`. -/
def Obligations.StoreWritesExactlyItsBytes : Prop :=
  ∀ (s : State) (a n : Slot) (data : List Operand) (x k : Word) (v : Nat → Word),
    s.heap.wf → typed s 1 a = .ok x → typed s 2 n = .ok k →
    (∀ i, i < k.toNat → typed s (3 + i) data[i]? = .ok (v i)) →
    (∀ i, i < k.toNat → live s.ext (x.toNat + i) = true) →
    ∃ t, exec (.store a n data) s = .next t ∧
      t = { s with heap := t.heap, pc := s.pc + 3 + k.toNat } ∧
      ∀ b, t.heap.read b =
        if x.toNat ≤ b ∧ b < x.toNat + k.toNat then BitVec.ofNat 8 (v (b - x.toNat)).toNat else s.heap.read b

/-- STORE's faults, in the order of R231 and R305: the address, `N`, the first value that does not resolve (`Truncated`
where the stream ends), then the lowest address that is not live. -/
def Obligations.StoreFaultsInOrder : Prop :=
  ∀ (s : State) (a n : Slot) (data : List Operand),
    (∀ c, (typed s 1 a = .error c ∨ ∃ x, typed s 1 a = .ok x ∧ typed s 2 n = .error c) →
      exec (.store a n data) s = .next (faultedBy s 0x16 c)) ∧
    (∀ x k c i, typed s 1 a = .ok x → typed s 2 n = .ok k → i < k.toNat →
      (∀ j, j < i → ∃ v, typed s (3 + j) data[j]? = .ok v) → typed s (3 + i) data[i]? = .error c →
      exec (.store a n data) s = .next (faultedBy s 0x16 c)) ∧
    (∀ x k i, typed s 1 a = .ok x → typed s 2 n = .ok k →
      (∀ j, j < k.toNat → ∃ v, typed s (3 + j) data[j]? = .ok v) → i < k.toNat →
      (∀ j, j < i → live s.ext (x.toNat + j) = true) → live s.ext (x.toNat + i) = false →
      exec (.store a n data) s =
        .next (faultedState s .memoryFault .writeOutsideExtent none (some 0x16) (some (wordOfNat (x.toNat + i))))) ∧
    ∀ (o q : Operand) (rest : List Operand),
      decodeOperands (⟨.op, 0x16⟩ :: o :: q :: rest) = .ok (.store (some o) (some q) rest)

/-- WRITE (R232, R88): the `n` heap bytes from `a` at the end of `OUT`; the heap is unchanged; `ReadOutOfRange` at the first
address outside the heap, then `OutputFull`. -/
def Obligations.WriteAppendsHeapBytesToOut : Prop :=
  ∀ (s : State) (a n : Slot),
    (∀ x k, typed s 1 a = .ok x → typed s 2 n = .ok k → (k.toNat = 0 ∨ x.toNat + k.toNat ≤ s.config.heapSize) →
      withinCapacity s.config.outCap (s.outq.length + k.toNat) →
      exec (.write a n) s = .next
        { s with
          outq := s.outq ++ (List.range k.toNat).map fun i => s.heap.read (x.toNat + i)
          pc := s.pc + 3 }) ∧
    (∀ x k, typed s 1 a = .ok x → typed s 2 n = .ok k → k.toNat ≠ 0 → s.config.heapSize < x.toNat + k.toNat →
      exec (.write a n) s =
        .next (faultedState s .memoryFault .readOutOfRange none (some 0x17)
          (some (wordOfNat (max x.toNat s.config.heapSize))))) ∧
    (∀ x k cap, typed s 1 a = .ok x → typed s 2 n = .ok k →
      (k.toNat = 0 ∨ x.toNat + k.toNat ≤ s.config.heapSize) → s.config.outCap = some cap →
      cap < s.outq.length + k.toNat →
      exec (.write a n) s = .next (faultedState s .ioFault .outputFull none (some 0x17) (some k))) ∧
    (∀ c, (typed s 1 a = .error c ∨ ∃ x, typed s 1 a = .ok x ∧ typed s 2 n = .error c) →
      exec (.write a n) s = .next (faultedBy s 0x17 c)) ∧
    ∀ (o q : Operand) (rest : List Operand),
      decodeOperands (⟨.op, 0x17⟩ :: o :: q :: rest) = .ok (.write (some o) (some q))

/-- READ (R233, R90): the first `n` bytes of `IN` to the live addresses from `a`, every other heap byte as before, and
`IN` without them; `WriteOutsideExtent` at the lowest address that is not live, then `InputExhausted`. -/
def Obligations.ReadMovesInputBytesToTheHeap : Prop :=
  ∀ (s : State) (a n : Slot),
    (∀ x k, s.heap.wf → typed s 1 a = .ok x → typed s 2 n = .ok k →
      (∀ i, i < k.toNat → live s.ext (x.toNat + i) = true) → k.toNat ≤ s.inq.length →
      ∃ t, exec (.read a n) s = .next t ∧
        t = { s with heap := t.heap, inq := s.inq.drop k.toNat, pc := s.pc + 3 } ∧
        ∀ b, t.heap.read b =
          if x.toNat ≤ b ∧ b < x.toNat + k.toNat then s.inq.getD (b - x.toNat) 0 else s.heap.read b) ∧
    (∀ x k i, typed s 1 a = .ok x → typed s 2 n = .ok k → i < k.toNat →
      (∀ j, j < i → live s.ext (x.toNat + j) = true) → live s.ext (x.toNat + i) = false →
      exec (.read a n) s =
        .next (faultedState s .memoryFault .writeOutsideExtent none (some 0x18) (some (wordOfNat (x.toNat + i))))) ∧
    (∀ x k, typed s 1 a = .ok x → typed s 2 n = .ok k →
      (∀ i, i < k.toNat → live s.ext (x.toNat + i) = true) → s.inq.length < k.toNat →
      exec (.read a n) s = .next (faultedState s .ioFault .inputExhausted none (some 0x18) (some k))) ∧
    (∀ c, (typed s 1 a = .error c ∨ ∃ x, typed s 1 a = .ok x ∧ typed s 2 n = .error c) →
      exec (.read a n) s = .next (faultedBy s 0x18 c)) ∧
    ∀ (o q : Operand) (rest : List Operand),
      decodeOperands (⟨.op, 0x18⟩ :: o :: q :: rest) = .ok (.read (some o) (some q))

/-- FLUSH (R234, R89): one byte string, the whole of `OUT`, handed over; `OUT` is then empty. -/
def Obligations.FlushHandsOverTheWholeOut : Prop :=
  ∀ (s : State) (rest : List Operand),
    decodeOperands (⟨.op, 0x19⟩ :: rest) = .ok .flush ∧
    exec .flush s = .next { s with devLog := s.devLog ++ [s.outq], outq := [], pc := s.pc + 1 }

/-! ## Move, increment and allocation -/

/-- MOV (R250): the resolved value to the register, read before it is written; nothing else changes. -/
def Obligations.MovWritesOneRegister : Prop :=
  ∀ (s : State) (d v : Slot),
    (∀ i x, dest s 1 d = .ok i → typed s 2 v = .ok x →
      exec (.mov d v) s = .next { s with regs := s.regs.set i x, pc := s.pc + 3 }) ∧
    (∀ c, (dest s 1 d = .error c ∨ ∃ i, dest s 1 d = .ok i ∧ typed s 2 v = .error c) →
      exec (.mov d v) s = .next (faultedBy s 0x1A c)) ∧
    ∀ (o q : Operand) (rest : List Operand),
      decodeOperands (⟨.op, 0x1A⟩ :: o :: q :: rest) = .ok (.mov (some o) (some q))

/-- INC and DEC of a register (R251, R252, R123): the register form is chosen by the tag `Reg` alone, and wraps modulo
`2^64` (D25). -/
def Obligations.IncDecRegisterFormWraps : Prop :=
  ∀ (s : State) (p : Word),
    (∀ i : Fin 60, p.toNat = i.val →
      exec (.inc (some ⟨.reg, p⟩)) s = .next
        { s with regs := s.regs.set i (BitVec.ofNat 64 ((s.regs.get i).toNat + 1)), pc := s.pc + 2 } ∧
      exec (.dec (some ⟨.reg, p⟩)) s = .next
        { s with regs := s.regs.set i (BitVec.ofInt 64 ((s.regs.get i).toNat - 1)), pc := s.pc + 2 }) ∧
    (60 ≤ p.toNat →
      exec (.inc (some ⟨.reg, p⟩)) s =
        .next (faultedState s .operandFault .badRegister (some (s.pc + 1)) (some 0x1B) (some p)) ∧
      exec (.dec (some ⟨.reg, p⟩)) s =
        .next (faultedState s .operandFault .badRegister (some (s.pc + 1)) (some 0x1C) (some p))) ∧
    ∀ (o : Operand) (rest : List Operand),
      decodeOperands (⟨.op, 0x1B⟩ :: o :: rest) = .ok (.inc (some o)) ∧
      decodeOperands (⟨.op, 0x1C⟩ :: o :: rest) = .ok (.dec (some o))

/-- INC and DEC of a heap byte (R251, R252, R123): every other tag resolves to the address of a live byte, which wraps
modulo 256 (D25, D47); every other heap byte is as before. -/
def Obligations.IncDecHeapFormWrapsOneByte : Prop :=
  ∀ (s : State) (o : Operand), o.tag ≠ .reg →
    (∀ x, s.heap.wf → typed s 1 (some o) = .ok x → live s.ext x.toNat = true →
      (∃ t, exec (.inc (some o)) s = .next t ∧ t = { s with heap := t.heap, pc := s.pc + 2 } ∧
        ∀ b, t.heap.read b =
          if b = x.toNat then BitVec.ofNat 8 ((s.heap.read b).toNat + 1) else s.heap.read b) ∧
      ∃ t, exec (.dec (some o)) s = .next t ∧ t = { s with heap := t.heap, pc := s.pc + 2 } ∧
        ∀ b, t.heap.read b =
          if b = x.toNat then BitVec.ofInt 8 ((s.heap.read b).toNat - 1) else s.heap.read b) ∧
    (∀ x, typed s 1 (some o) = .ok x → live s.ext x.toNat = false →
      exec (.inc (some o)) s =
        .next (faultedState s .memoryFault .writeOutsideExtent none (some 0x1B) (some x)) ∧
      exec (.dec (some o)) s =
        .next (faultedState s .memoryFault .writeOutsideExtent none (some 0x1C) (some x))) ∧
    ∀ c, typed s 1 (some o) = .error c →
      exec (.inc (some o)) s = .next (faultedBy s 0x1B c) ∧
      exec (.dec (some o)) s = .next (faultedBy s 0x1C c)

/-- ALLOC (R253, R67): the lowest free range that fits becomes one new extent, its address goes to the register, no heap
byte changes and every other extent stays; size 0 is `ZeroSize` and no fit is `NoFit`. The premise `Inv s` is the
extent set's order, which every step keeps. -/
def Obligations.AllocTakesTheLowestFit : Prop :=
  ∀ (s : State) (d n : Slot), Inv s →
    (∀ i k a, dest s 1 d = .ok i → typed s 2 n = .ok k → k ≠ 0 → LowestFit s k.toNat a →
      ∃ t, exec (.alloc d n) s = .next t ∧
        t = { s with ext := t.ext, regs := s.regs.set i (wordOfNat a), pc := s.pc + 3 } ∧
        ∀ b, containing t.ext b =
          if a ≤ b ∧ b < a + k.toNat then some ⟨a, a + k.toNat⟩ else containing s.ext b) ∧
    (∀ i, dest s 1 d = .ok i → typed s 2 n = .ok 0 →
      exec (.alloc d n) s = .next (faultedState s .memoryFault .zeroSize none (some 0x1D) (some 0))) ∧
    (∀ i k, dest s 1 d = .ok i → typed s 2 n = .ok k → k ≠ 0 → (∀ a, ¬ Fits s k.toNat a) →
      exec (.alloc d n) s = .next (faultedState s .memoryFault .noFit none (some 0x1D) (some k))) ∧
    (∀ c, (dest s 1 d = .error c ∨ ∃ i, dest s 1 d = .ok i ∧ typed s 2 n = .error c) →
      exec (.alloc d n) s = .next (faultedBy s 0x1D c)) ∧
    ∀ (o q : Operand) (rest : List Operand),
      decodeOperands (⟨.op, 0x1D⟩ :: o :: q :: rest) = .ok (.alloc (some o) (some q))

/-- FREE (R254, R68): the extent that contains the address is gone and its bytes are 0; every other extent and byte stays;
an address that is not live is `FreeOutsideExtent`. -/
def Obligations.FreeReleasesTheContainingExtent : Prop :=
  ∀ (s : State) (a : Slot), Inv s →
    (∀ x e, typed s 1 a = .ok x → containing s.ext x.toNat = some e →
      ∃ t, exec (.free a) s = .next t ∧
        t = { s with heap := t.heap, ext := t.ext, pc := s.pc + 2 } ∧
        ∀ b, (t.heap.read b = if e.start ≤ b ∧ b < e.stop then 0 else s.heap.read b) ∧
          containing t.ext b = if e.start ≤ b ∧ b < e.stop then none else containing s.ext b) ∧
    (∀ x, typed s 1 a = .ok x → containing s.ext x.toNat = none →
      exec (.free a) s =
        .next (faultedState s .memoryFault .freeOutsideExtent none (some 0x1E) (some x))) ∧
    (∀ c, typed s 1 a = .error c → exec (.free a) s = .next (faultedBy s 0x1E c)) ∧
    ∀ (o : Operand) (rest : List Operand), decodeOperands (⟨.op, 0x1E⟩ :: o :: rest) = .ok (.free (some o))

/-- REALLOC in place (R255, R69): a size no larger than the old one shrinks the extent and zeroes what it gives up; a larger
one grows the extent where the addresses after it are in the heap and not live. The register gets the extent's start. -/
def Obligations.ReallocResizesInPlace : Prop :=
  ∀ (s : State) (d n : Slot) (i : Fin 60) (k : Word) (e : Extent), Inv s → dest s 1 d = .ok i →
    typed s 2 n = .ok k → k ≠ 0 → containing s.ext (s.regs.get i).toNat = some e →
    (k.toNat ≤ e.stop - e.start ∨
      (e.start + k.toNat ≤ s.config.heapSize ∧
        ∀ b, e.stop ≤ b → b < e.start + k.toNat → live s.ext b = false)) →
    ∃ t, exec (.realloc d n) s = .next t ∧
      t = { s with heap := t.heap, ext := t.ext, regs := s.regs.set i (wordOfNat e.start), pc := s.pc + 3 } ∧
      ∀ b, (t.heap.read b = if e.start + k.toNat ≤ b ∧ b < e.stop then 0 else s.heap.read b) ∧
        containing t.ext b =
          if e.start ≤ b ∧ b < e.start + k.toNat then some ⟨e.start, e.start + k.toNat⟩
          else if e.start ≤ b ∧ b < e.stop then none else containing s.ext b

/-- REALLOC that must move (R255, R69): the extent goes to the lowest fit, its bytes are copied there and the old ones are
0, every other byte and extent stays, and the register gets the new start. -/
def Obligations.ReallocMovesToTheLowestFit : Prop :=
  ∀ (s : State) (d n : Slot) (i : Fin 60) (k : Word) (e : Extent) (a : Nat), Inv s → dest s 1 d = .ok i →
    typed s 2 n = .ok k → containing s.ext (s.regs.get i).toNat = some e → e.stop - e.start < k.toNat →
    ¬ (e.start + k.toNat ≤ s.config.heapSize ∧
        ∀ b, e.stop ≤ b → b < e.start + k.toNat → live s.ext b = false) →
    LowestFit s k.toNat a →
    ∃ t, exec (.realloc d n) s = .next t ∧
      t = { s with heap := t.heap, ext := t.ext, regs := s.regs.set i (wordOfNat a), pc := s.pc + 3 } ∧
      ∀ b,
        (t.heap.read b =
          if e.start ≤ b ∧ b < e.stop then 0
          else if a ≤ b ∧ b < a + (e.stop - e.start) then s.heap.read (e.start + (b - a)) else s.heap.read b) ∧
        containing t.ext b =
          if a ≤ b ∧ b < a + k.toNat then some ⟨a, a + k.toNat⟩
          else if e.start ≤ b ∧ b < e.stop then none else containing s.ext b

/-- REALLOC's faults, in the order of R255 and R305: operands, the size query, the zero size, the fit. -/
def Obligations.ReallocFaultsInOrder : Prop :=
  ∀ (s : State) (d n : Slot), Inv s →
    (∀ c, (dest s 1 d = .error c ∨ ∃ i, dest s 1 d = .ok i ∧ typed s 2 n = .error c) →
      exec (.realloc d n) s = .next (faultedBy s 0x1F c)) ∧
    (∀ i k, dest s 1 d = .ok i → typed s 2 n = .ok k → containing s.ext (s.regs.get i).toNat = none →
      exec (.realloc d n) s =
        .next (faultedState s .memoryFault .sizeQueryOutsideExtent none (some 0x1F) (some (s.regs.get i)))) ∧
    (∀ i e, dest s 1 d = .ok i → typed s 2 n = .ok 0 → containing s.ext (s.regs.get i).toNat = some e →
      exec (.realloc d n) s =
        .next (faultedState s .memoryFault .zeroSize none (some 0x1F) (some (s.regs.get i)))) ∧
    (∀ i k e, dest s 1 d = .ok i → typed s 2 n = .ok k → containing s.ext (s.regs.get i).toNat = some e →
      e.stop - e.start < k.toNat →
      ¬ (e.start + k.toNat ≤ s.config.heapSize ∧
        ∀ b, e.stop ≤ b → b < e.start + k.toNat → live s.ext b = false) →
      (∀ a, ¬ Fits s k.toNat a) →
      exec (.realloc d n) s = .next (faultedState s .memoryFault .noFit none (some 0x1F) (some k))) ∧
    ∀ (o q : Operand) (rest : List Operand),
      decodeOperands (⟨.op, 0x1F⟩ :: o :: q :: rest) = .ok (.realloc (some o) (some q))

/-! ## Functions and the accumulator -/

/-- FUNC (R270, D27): the position after the label at the end of `JT`, whatever the label's tag and payload; a full table is
`JumpTableFull`. -/
def Obligations.FuncAppendsThePositionAfterItsLabel : Prop :=
  ∀ (s : State) (label : Slot),
    (∀ v, untyped s 1 label = .ok v → s.config.jtCap ≠ some s.jt.length →
      exec (.func label) s = .next { s with jt := s.jt ++ [s.pc + 2], pc := s.pc + 2 }) ∧
    (∀ v, untyped s 1 label = .ok v → s.config.jtCap = some s.jt.length →
      exec (.func label) s =
        .next (faultedState s .operandFault .jumpTableFull (some (s.pc + 1)) (some 0x20) none)) ∧
    (∀ c, untyped s 1 label = .error c → exec (.func label) s = .next (faultedBy s 0x20 c)) ∧
    ∀ (o : Operand) (rest : List Operand), decodeOperands (⟨.op, 0x20⟩ :: o :: rest) = .ok (.func (some o))

/-- CALL (R271): the position after the CALL pushed, `pc` at the function; a full call stack is `CallOverflow`. -/
def Obligations.CallPushesTheReturnPosition : Prop :=
  ∀ (s : State) (f : Slot),
    (∀ p, funcPos s 1 f = .ok p → s.config.csCap ≠ some s.cs.length →
      exec (.call f) s = .next { s with cs := s.cs ++ [s.pc + 2], pc := p }) ∧
    (∀ p, funcPos s 1 f = .ok p → s.config.csCap = some s.cs.length →
      exec (.call f) s =
        .next (faultedState s .callStackFault .callOverflow none (some 0x21) (some (wordOfNat s.cs.length)))) ∧
    (∀ c, funcPos s 1 f = .error c → exec (.call f) s = .next (faultedBy s 0x21 c)) ∧
    ∀ (o : Operand) (rest : List Operand), decodeOperands (⟨.op, 0x21⟩ :: o :: rest) = .ok (.call (some o))

/-- RET (R272): the newest record popped, `pc` at it; an empty call stack is `ReturnEmpty`. In any state whose call stack
is what a CALL left, RET resumes right after that CALL and gives the call stack back (R271; 95_test_vectors.md section
1, the source's 8.4). -/
def Obligations.RetPopsTheNewestRecord : Prop :=
  (∀ s : State,
    (∀ older r, s.cs = older ++ [r] → exec .ret s = .next { s with cs := older, pc := r }) ∧
    (s.cs = [] → exec .ret s = .next (faultedState s .callStackFault .returnEmpty none (some 0x22) none)) ∧
    ∀ rest : List Operand, decodeOperands (⟨.op, 0x22⟩ :: rest) = .ok .ret) ∧
  ∀ (s t u : State) (f : Slot), exec (.call f) s = .next t → t.engState = s.engState → s.engState ≠ .faulted →
    u.cs = t.cs → exec .ret u = .next { u with cs := s.cs, pc := s.pc + 2 }

/-- WRACC and REACC (R280, R281): a resolved value to `ACC`; all of `ACC` to a register. -/
def Obligations.AccumulatorTransfersCopyWholeWords : Prop :=
  ∀ (s : State) (v d : Slot),
    (∀ x, typed s 1 v = .ok x → exec (.wracc v) s = .next { s with acc := x, pc := s.pc + 2 }) ∧
    (∀ c, typed s 1 v = .error c → exec (.wracc v) s = .next (faultedBy s 0x23 c)) ∧
    (∀ i, dest s 1 d = .ok i → exec (.reacc d) s = .next { s with regs := s.regs.set i s.acc, pc := s.pc + 2 }) ∧
    (∀ c, dest s 1 d = .error c → exec (.reacc d) s = .next (faultedBy s 0x24 c)) ∧
    ∀ (o : Operand) (rest : List Operand),
      decodeOperands (⟨.op, 0x23⟩ :: o :: rest) = .ok (.wracc (some o)) ∧
      decodeOperands (⟨.op, 0x24⟩ :: o :: rest) = .ok (.reacc (some o))

/-! ## Whole-machine rules -/

/-- The stream is read-only during execution (R38, R95) and the parameters are fixed: no step changes either. The jump
table changes only by a FUNC, which appends one entry (R39). -/
def Obligations.StepsKeepTheStreamAndOnlyFuncGrowsTheJumpTable : Prop :=
  ∀ s t : State, step s = .next t →
    t.stream = s.stream ∧ t.config = s.config ∧
    (t.jt ≠ s.jt →
      t.jt = s.jt ++ [s.pc + 2] ∧ ∃ label, decodeOperands (s.stream.drop s.pc) = .ok (.func (some label)))

/-- Who writes what: the registers (R31), `ACC` (R32), the heap (R63, R68, R69), `EXT` (R67, R68, R69), the stack and `SP`
(R76, R77 with D41, 42_stack.md), the queues and the device log (44_heap_transfer.md), the call stack
(46_function_call.md): each part of the state is changed only by the instructions the spec lists for it. -/
def Obligations.OnlyListedInstructionsWriteEachPart : Prop :=
  ∀ (i : Instr) (s t : State), exec i s = .next t →
    (t.acc ≠ s.acc →
      i.opcode ∈ [Opcode.add, .sub, .mul, .div, .mod, .and, .or, .xor, .eq, .neq, .lt, .gt, .wracc]) ∧
    (t.regs ≠ s.regs →
      i.opcode ∈ [Opcode.not, .pop, .load, .mov, .inc, .dec, .alloc, .realloc, .reacc]) ∧
    (t.heap ≠ s.heap → i.opcode ∈ [Opcode.store, .read, .inc, .dec, .free, .realloc]) ∧
    (t.ext ≠ s.ext → i.opcode ∈ [Opcode.alloc, .free, .realloc]) ∧
    (t.stack ≠ s.stack → i.opcode ∈ [Opcode.push, .dup, .swap]) ∧
    (t.sp ≠ s.sp → i.opcode ∈ [Opcode.push, .pop, .dup]) ∧
    (t.cs ≠ s.cs → i.opcode ∈ [Opcode.call, .ret]) ∧
    (t.outq ≠ s.outq → i.opcode ∈ [Opcode.write, .flush]) ∧
    (t.inq ≠ s.inq → i.opcode = .read) ∧
    (t.devLog ≠ s.devLog → i.opcode = .flush)

/-- An instruction writes at most one register: the one its first operand names (R31), whatever else it does. -/
def Obligations.OnlyTheDestinationRegisterChanges : Prop :=
  ∀ (i : Instr) (s t : State) (e : Fin 60), exec i s = .next t → t.regs.get e ≠ s.regs.get e →
    ∃ o : Operand, i.slots.head? = some (some o) ∧ o.payload.toNat = e.val

/-- A heap byte changes only at an address that is live before the instruction or after it (R63, R68, R69), and every heap
byte that is not live after it holds 0 (R71). -/
def Obligations.OnlyLiveHeapBytesChange : Prop :=
  ∀ (i : Instr) (s t : State) (a : Nat), Inv s → exec i s = .next t →
    (t.heap.read a ≠ s.heap.read a → live s.ext a = true ∨ live t.ext a = true) ∧
    (live t.ext a = false → t.heap.read a = 0)

/-! ## The allocator -/

/-- First-fit (R65): the answer is the least start of a free range of `n` bytes, and there is none exactly when no range
fits. -/
def Obligations.FirstFitIsTheLeastFit : Prop :=
  ∀ (s : State) (n : Nat), Inv s → 1 ≤ n →
    (∀ a, firstFit s n = some a ↔ LowestFit s n a) ∧ (firstFit s n = none ↔ ∀ a, ¬ Fits s n a)

/-- Until the first FREE or REALLOC the allocator is a bump allocator (R72): where exactly the addresses below `a` are
live, an ALLOC that fits returns `a` and leaves exactly the addresses below `a + n` live. -/
def Obligations.AllocBumpsWithoutGaps : Prop :=
  ∀ (s : State) (d n : Slot) (i : Fin 60) (k : Word) (a : Nat), Inv s → dest s 1 d = .ok i → typed s 2 n = .ok k →
    k ≠ 0 → (∀ x, live s.ext x = true ↔ x < a) → a + k.toNat ≤ s.config.heapSize →
    ∃ t, exec (.alloc d n) s = .next t ∧ t.regs.get i = wordOfNat a ∧
      ∀ x, live t.ext x = true ↔ x < a + k.toNat

/-! ## Invariants and noninterference -/

/-- Reset (R48, D34, R340): every piece of state has its reset value, for any parameters. `IN` is empty: the host has
supplied no byte yet (notes/assumptions/15.md). -/
def Obligations.ResetValues : Prop :=
  ∀ c : Config, ∀ s, s = State.resetWith c →
    s.config = c ∧ s.pc = 0 ∧ s.engState = .ready ∧ (∀ d : Fin 60, s.regs.get d = 0) ∧ s.acc = 0 ∧
    s.stream = [] ∧ s.jt = [] ∧ s.cs = [] ∧ s.sp = 0 ∧ (∀ a, s.stack.read a = 0) ∧ (∀ a, s.heap.read a = 0) ∧
    s.ext = [] ∧ s.outq = [] ∧ s.inq = [] ∧ s.fault.kind = none ∧ s.fault.reason = none ∧ s.fault.pos = 0 ∧
    s.fault.opnd = none ∧ s.fault.opcode = none ∧ s.fault.addr = none

/-- The reset state meets the invariant, for any parameters. -/
def Obligations.ResetMeetsTheInvariant : Prop :=
  ∀ c : Config, Inv (State.resetWith c)

/-- Every step keeps the invariant, and so does every transaction of the host: reset, start with its decoding and
pre-scan, appended input, abort. That a reset may be taken in `Ready` and `Running` too is the model's choice
(notes/assumptions/18.md). -/
def Obligations.StepKeepsTheInvariant : Prop :=
  (∀ s t : State, Inv s → step s = .next t → Inv t) ∧
  ∀ (e : HostEvent) (s t : State), Inv s → transact e s = .next t → Inv t

/-- A stack byte at or above `SP` is never observable (R81): two states that agree but for such bytes step to states that
agree but for such bytes, with their stack arrays again in canonical form. -/
def Obligations.StackResidueIsUnobservable : Prop :=
  ∀ s t : State, s.stack.wf → t.stack.wf → SameButResidue s t →
    RelatedAnswers (fun u v => u.stack.wf ∧ v.stack.wf ∧ SameButResidue u v) (step s) (step t)

/-- No instruction reads the fault record or the device log (R37, R333): two states that agree but for these step to states
that agree but for these. -/
def Obligations.ReportsAreNeverReadBack : Prop :=
  ∀ s t : State, SameButReports s t → RelatedAnswers SameButReports (step s) (step t)

/-! ## The host interface -/

/-- The pre-scan (R170, R171, R172): the positions `q + 2` of the markers, in the order of `q`, whatever the labels' payloads
and whatever instruction the marker stands in. A table with room for `c` entries holds them all where there are at most
`c` markers; else the fault is `JumpTableFull` at the marker number `c`, counted from 0. -/
def Obligations.PreScanRecordsEveryMarker : Prop :=
  ∀ (cap : Option Nat) (stream : List Operand) (markers : List Nat),
    markers = (List.range stream.length).filter (fun q => markerAt stream q) →
    (withinCapacity cap markers.length → preScan cap 0 stream [] = .ok (markers.map fun q => q + 2)) ∧
    ∀ c q, cap = some c → markers[c]? = some q →
      preScan cap 0 stream [] = .error (q, ⟨.jumpTableFull, some (q + 1), none⟩)

/-- `start` (R341, R173): `IN`, then the stream in the chosen wire form, then the jump table, then `Running`, or `Halted`
on an empty stream. A pre-scan fault goes to `Faulted` instead, with `IN` and the stream written and nothing else but the
record (R310): the jump table is as it was (notes/assumptions/9.md). Open only in `Ready`; the answer elsewhere is the model's (notes/assumptions/11.md). -/
def Obligations.StartLoadsAndRuns : Prop :=
  ∀ (s : State) (img in0 : List Byte),
    (s.engState = .ready →
      (∀ jt, preScan s.config.jtCap 0 (decodeImage s.config.wireForm img) [] = .ok jt →
        start img in0 s = .next
          { s with
            inq := in0
            stream := decodeImage s.config.wireForm img
            jt := jt
            engState := if (decodeImage s.config.wireForm img).length = 0 then .halted else .running }) ∧
      ∀ q c, preScan s.config.jtCap 0 (decodeImage s.config.wireForm img) [] = .error (q, c) →
        start img in0 s = .next
          { s with
            inq := in0
            stream := decodeImage s.config.wireForm img
            engState := .faulted
            fault := ⟨some .operandFault, some .jumpTableFull, q, some (q + 1), some 0x20, none⟩ }) ∧
    (s.engState ≠ .ready → start img in0 s = .fault (.portClosed s.engState))

/-- `in_append` and `abort` (R331, R332): bytes at the end of `IN`, or `Aborted`, and nothing else; both only before a
terminal state; the answer there is the model's (notes/assumptions/11.md). -/
def Obligations.AppendAndAbortChangeNothingElse : Prop :=
  ∀ (s : State) (bytes : List Byte),
    (s.engState.terminal = false →
      inAppend bytes s = .next { s with inq := s.inq ++ bytes } ∧
      hostAbort s = .next { s with engState := .aborted }) ∧
    (s.engState.terminal = true →
      inAppend bytes s = .fault (.portClosed s.engState) ∧ hostAbort s = .fault (.portClosed s.engState))

/-- What the host reads (R334, R344): the codes of the engine states (R35), of the fault kinds (R300) and of the fault
reasons with each reason's kind (R301), the three views at any boundary, and the result of a run, which is there exactly
in a terminal state. -/
def Obligations.HostReadsCodesViewsAndResult : Prop :=
  (∀ x ∈ [(EngState.ready, 0), (.running, 1), (.halted, 2), (.faulted, 3), (.aborted, 4)],
    engStateCode x.1 = x.2) ∧
  (faultKindCode none = 0 ∧
    ∀ x ∈ [(FaultKind.invalidOpcode, (1 : Byte)), (.memoryFault, 2), (.arithmeticFault, 3), (.stackFault, 4),
      (.callStackFault, 5), (.operandFault, 6), (.ioFault, 7)], faultKindCode (some x.1) = x.2) ∧
  (faultReasonCode none = 0 ∧
    ∀ x ∈ [((1 : Byte), FaultReason.notOpTag, FaultKind.invalidOpcode), (2, .undefinedOpcode, .invalidOpcode),
      (3, .noFit, .memoryFault), (4, .zeroSize, .memoryFault), (5, .writeOutsideExtent, .memoryFault),
      (6, .freeOutsideExtent, .memoryFault), (7, .sizeQueryOutsideExtent, .memoryFault),
      (8, .readOutOfRange, .memoryFault), (9, .divByZero, .arithmeticFault), (10, .modByZero, .arithmeticFault),
      (11, .overflow, .stackFault), (12, .underflow, .stackFault), (13, .offsetOutOfRange, .stackFault),
      (14, .returnEmpty, .callStackFault), (15, .callOverflow, .callStackFault), (16, .truncated, .operandFault),
      (17, .badRegister, .operandFault), (18, .opTagOperand, .operandFault), (19, .badFunctionIndex, .operandFault),
      (20, .jumpTableFull, .operandFault), (21, .inputExhausted, .ioFault), (22, .outputFull, .ioFault)],
      faultReasonCode (some x.2.1) = x.1 ∧ faultKindOf x.2.1 = x.2.2) ∧
  ∀ s : State,
    stateView s = engStateCode s.engState ∧ outView s = s.outq ∧
    faultView s =
      ⟨faultKindCode s.fault.kind, faultReasonCode s.fault.reason, s.fault.pos, s.fault.opnd, s.fault.opcode,
        s.fault.addr⟩ ∧
    (runResult s = none ↔ s.engState = .ready ∨ s.engState = .running) ∧
    (s.engState = .halted → runResult s = some ⟨.halted, s.devLog, s.outq⟩) ∧
    (s.engState = .faulted → runResult s = some ⟨.faulted s.fault, s.devLog, s.outq⟩) ∧
    (s.engState = .aborted → runResult s = some ⟨.aborted, s.devLog, s.outq⟩)
end

