-- ==== Sys2Proof/Laws/Memory.lean ====
section
/-! SUPPORT. The laws of a byte memory: reading after a write, and the canonical form that every operation keeps. -/

namespace Sys2Proof.Machine.Memory

@[simp] theorem read_nil (a : Nat) : Memory.read [] a = Memory.unlisted := rfl

/-- A memory with no cell at an address reads there as an unlisted one. -/
theorem read_of_not_listed {m : Memory} {a : Nat} (h : ∀ c ∈ m, c.1 ≠ a) : m.read a = Memory.unlisted := by
  induction m with
  | nil => rfl
  | cons c m ih =>
    have hc : c.1 ≠ a := h c (by simp)
    simp only [Memory.read, hc, if_false]
    exact ih fun d hd => h d (by simp [hd])

/-- An address that does not read as unlisted is listed. -/
theorem listed_of_read_ne {m : Memory} {a : Nat} (h : m.read a ≠ Memory.unlisted) : ∃ c ∈ m, c.1 = a := by
  by_contra hn
  exact h (read_of_not_listed fun c hc he => hn ⟨c, hc, he⟩)

theorem read_cons (a b : Nat) (v : Byte) (m : Memory) (h : ∀ c ∈ m, a < c.1) :
    Memory.read (Memory.cons a v m) b = if a = b then v else m.read b := by
  unfold Memory.cons
  split
  · rename_i hv
    split
    · rename_i hab
      subst hab
      rw [hv]
      exact read_of_not_listed fun c hc => Nat.ne_of_gt (h c hc)
    · rfl
  · rfl

theorem mem_cons {a : Nat} {v : Byte} {m : Memory} {c : Host.Cell} (h : c ∈ Memory.cons a v m) :
    c = (a, v) ∨ c ∈ m := by
  unfold Memory.cons at h
  split at h
  · exact .inr h
  · simpa using h

theorem wf_tail {c : Host.Cell} {m : Memory} (h : Memory.wf (c :: m)) : Memory.wf m := by
  obtain ⟨hp, hz⟩ := h
  exact ⟨(List.pairwise_cons.mp hp).2, fun d hd => hz d (by simp [hd])⟩

theorem wf_cons {a : Nat} {v : Byte} {m : Memory} (hm : Memory.wf m) (h : ∀ c ∈ m, a < c.1) :
    Memory.wf (Memory.cons a v m) := by
  unfold Memory.cons
  split
  · exact hm
  · rename_i hv
    refine ⟨List.pairwise_cons.mpr ⟨h, hm.1⟩, ?_⟩
    intro c hc
    rcases List.mem_cons.mp hc with rfl | hc
    · exact hv
    · exact hm.2 c hc

/-- A cell of a written memory is the written one or was there before. -/
theorem mem_write {m : Memory} {a : Nat} {v : Byte} {c : Host.Cell} (h : c ∈ m.write a v) : c = (a, v) ∨ c ∈ m := by
  induction m with
  | nil => exact mem_cons h
  | cons d m ih =>
    obtain ⟨k, w⟩ := d
    simp only [Memory.write] at h
    split at h
    · exact mem_cons h
    · split at h
      · rcases mem_cons h with h | h
        · exact .inl h
        · exact .inr (by simp [h])
      · rcases List.mem_cons.mp h with rfl | h
        · exact .inr (by simp)
        · rcases ih h with h | h
          · exact .inl h
          · exact .inr (by simp [h])

/-- A write keeps the canonical form. -/
theorem wf_write {m : Memory} (hm : m.wf) (a : Nat) (v : Byte) : (m.write a v).wf := by
  induction m with
  | nil => exact wf_cons hm (by simp)
  | cons d m ih =>
    obtain ⟨k, w⟩ := d
    have hlt : ∀ c ∈ m, k < c.1 := (List.pairwise_cons.mp hm.1).1
    have ht := wf_tail hm
    simp only [Memory.write]
    split
    · rename_i hak
      refine wf_cons hm ?_
      intro c hc
      rcases List.mem_cons.mp hc with rfl | hc
      · exact hak
      · exact lt_trans hak (hlt c hc)
    · split
      · rename_i hak
        exact wf_cons ht fun c hc => hak ▸ hlt c hc
      · rename_i h1 h2
        have hka : k < a := by omega
        refine ⟨List.pairwise_cons.mpr ⟨?_, (ih ht).1⟩, ?_⟩
        · intro c hc
          rcases mem_write hc with rfl | hc
          · exact hka
          · exact hlt c hc
        · intro c hc
          rcases List.mem_cons.mp hc with rfl | hc
          · exact hm.2 _ (by simp)
          · exact (ih ht).2 c hc

/-- Reading after a write: the written byte there, the old byte anywhere else. -/
theorem read_write {m : Memory} (hm : m.wf) (a b : Nat) (v : Byte) :
    (m.write a v).read b = if a = b then v else m.read b := by
  induction m with
  | nil => exact read_cons a b v [] (by simp)
  | cons d m ih =>
    obtain ⟨k, w⟩ := d
    have hlt : ∀ c ∈ m, k < c.1 := (List.pairwise_cons.mp hm.1).1
    have ht := wf_tail hm
    simp only [Memory.write]
    split
    · rename_i hak
      refine read_cons a b v _ ?_
      intro c hc
      rcases List.mem_cons.mp hc with rfl | hc
      · exact hak
      · exact lt_trans hak (hlt c hc)
    · split
      · rename_i hak
        rw [read_cons a b v m fun c hc => hak ▸ hlt c hc]
        simp only [Memory.read, ← hak]
        split <;> rfl
      · rename_i h1 h2
        simp only [Memory.read, ih ht]
        by_cases hkb : k = b
        · have : a ≠ b := by omega
          simp [hkb, this]
        · simp [hkb]

/-- Two memories in canonical form that read alike everywhere are the same list. -/
theorem ext_of_read {m m' : Memory} (hm : m.wf) (hm' : m'.wf) (h : ∀ a, m.read a = m'.read a) : m = m' := by
  induction m generalizing m' with
  | nil =>
    cases m' with
    | nil => rfl
    | cons d m' =>
      exact absurd (by simpa [Memory.read] using (h d.1).symm) (hm'.2 d (by simp))
  | cons c m ih =>
    cases m' with
    | nil => exact absurd (by simpa [Memory.read] using h c.1) (hm.2 c (by simp))
    | cons d m' =>
      have hc : ∀ x ∈ m, c.1 < x.1 := (List.pairwise_cons.mp hm.1).1
      have hd : ∀ x ∈ m', d.1 < x.1 := (List.pairwise_cons.mp hm'.1).1
      have hkey : c.1 = d.1 := by
        rcases Nat.lt_trichotomy c.1 d.1 with hlt | heq | hgt
        · have := h c.1
          rw [read_of_not_listed (m := d :: m') (a := c.1)] at this
          · exact absurd (by simpa [Memory.read] using this) (hm.2 c (by simp))
          · intro x hx
            rcases List.mem_cons.mp hx with rfl | hx
            · omega
            · have := hd x hx; omega
        · exact heq
        · have := h d.1
          rw [read_of_not_listed (m := c :: m) (a := d.1)] at this
          · exact absurd (by simpa [Memory.read] using this.symm) (hm'.2 d (by simp))
          · intro x hx
            rcases List.mem_cons.mp hx with rfl | hx
            · omega
            · have := hc x hx; omega
      have hval : c.2 = d.2 := by simpa [Memory.read, hkey] using h c.1
      have hcd : c = d := Prod.ext hkey hval
      subst hcd
      refine congrArg _ (ih (wf_tail hm) (wf_tail hm') ?_)
      intro a
      by_cases hca : c.1 = a
      · rw [read_of_not_listed (m := m), read_of_not_listed (m := m')]
        · intro x hx; have := hd x hx; omega
        · intro x hx; have := hc x hx; omega
      · simpa [Memory.read, hca] using h a

theorem wf_writeBytes {m : Memory} (hm : m.wf) (a : Nat) (bs : List Byte) : (m.writeBytes a bs).wf := by
  induction bs generalizing m a with
  | nil => exact hm
  | cons b bs ih => exact ih (wf_write hm a b) (a + 1)

theorem mem_writeBytes {m : Memory} {a : Nat} {bs : List Byte} {c : Host.Cell} (h : c ∈ m.writeBytes a bs) :
    c ∈ m ∨ a ≤ c.1 ∧ c.1 < a + bs.length := by
  induction bs generalizing m a with
  | nil => exact .inl h
  | cons b bs ih =>
    simp only [List.length_cons]
    rcases ih h with h | h
    · rcases mem_write h with rfl | h
      · simp
      · exact .inl h
    · right; omega

/-- Reading after a run of writes: the byte of the run inside it, the old byte outside it. -/
theorem read_writeBytes {m : Memory} (hm : m.wf) (a b : Nat) (bs : List Byte) :
    (m.writeBytes a bs).read b = if a ≤ b then (bs[b - a]?).getD (m.read b) else m.read b := by
  induction bs generalizing m a with
  | nil => simp [Memory.writeBytes]
  | cons v bs ih =>
    simp only [Memory.writeBytes]
    rw [ih (wf_write hm a v), read_write hm]
    by_cases hab : a = b
    · subst hab
      simp
    · by_cases hlt : a + 1 ≤ b
      · have h1 : a ≤ b := by omega
        have h2 : b - a = (b - (a + 1)) + 1 := by omega
        simp [h1, hlt, hab, h2]
      · have h1 : ¬ a ≤ b := by omega
        simp [h1, hlt, hab]

theorem length_readBytes (m : Memory) (a n : Nat) : (m.readBytes a n).length = n := by
  induction n generalizing a with
  | zero => rfl
  | succ n ih => simp [Memory.readBytes, ih]

theorem getElem?_readBytes (m : Memory) (a n i : Nat) :
    (m.readBytes a n)[i]? = if i < n then some (m.read (a + i)) else none := by
  induction n generalizing a i with
  | zero => simp [Memory.readBytes]
  | succ n ih =>
    cases i with
    | zero => simp [Memory.readBytes]
    | succ i => simp [Memory.readBytes, ih, Nat.add_assoc, Nat.add_comm 1 i]

/-- The bytes read are the bytes at the successive addresses. -/
theorem readBytes_eq (m : Memory) (a n : Nat) : m.readBytes a n = (List.range n).map fun i => m.read (a + i) := by
  apply List.ext_getElem?
  intro i
  rw [getElem?_readBytes]
  by_cases h : i < n <;> simp [h]

theorem wf_zero {m : Memory} (hm : m.wf) (lo hi : Nat) : (m.zero lo hi).wf :=
  ⟨hm.1.filter _, fun c hc => hm.2 c (List.mem_filter.mp hc).1⟩

theorem mem_zero {m : Memory} {lo hi : Nat} {c : Host.Cell} (h : c ∈ m.zero lo hi) :
    c ∈ m ∧ (c.1 < lo ∨ hi ≤ c.1) := by
  simpa [Memory.zero] using h

/-- Reading after a range was zeroed. -/
theorem read_zero (m : Memory) (lo hi a : Nat) :
    (m.zero lo hi).read a = if lo ≤ a ∧ a < hi then 0 else m.read a := by
  induction m with
  | nil => simp [Memory.zero, Memory.unlisted]
  | cons c m ih =>
    obtain ⟨k, v⟩ := c
    have hstep : Memory.zero ((k, v) :: m) lo hi =
        if k < lo ∨ hi ≤ k then (k, v) :: Memory.zero m lo hi else Memory.zero m lo hi := by
      simp [Memory.zero, List.filter_cons]
    rw [hstep]
    by_cases hk : k < lo ∨ hi ≤ k
    · simp only [hk, if_true, Memory.read, ih]
      by_cases hka : k = a
      · have : ¬ (lo ≤ a ∧ a < hi) := by omega
        simp [hka, this]
      · simp [hka]
    · simp only [hk, if_false, Memory.read, ih]
      by_cases hka : k = a
      · have : lo ≤ a ∧ a < hi := by omega
        simp [this]
      · simp [hka]

/-- The memories of the reset state are in canonical form, for any parameters. -/
theorem wf_reset (c : Config) : (State.resetWith c).heap.wf ∧ (State.resetWith c).stack.wf := by
  simp [State.resetWith, Memory.wf]

end Sys2Proof.Machine.Memory
end

