-- ==== Sys2Proof/Laws/Allocator.lean ====
section
/-! SUPPORT. The extent set and the allocator: what a live address is, where first-fit looks, and that every change of the
extent set keeps it proper and ordered (20_memory.md R61 to R69). -/

namespace Sys2Proof.Machine

/-- The extent set's invariant for a heap of a given size (R61). -/
abbrev ExtentsOk (heapSize : Nat) (ext : List Extent) : Prop :=
  (∀ e ∈ ext, e.start < e.stop ∧ e.stop ≤ heapSize) ∧ ext.Pairwise (fun e f => e.stop ≤ f.start)

theorem containing_some {ext : List Extent} {a : Nat} {e : Extent} (h : containing ext a = some e) :
    e ∈ ext ∧ e.start ≤ a ∧ a < e.stop := by
  refine ⟨List.mem_of_find?_eq_some h, ?_⟩
  have := List.find?_some h
  simpa [Extent.holds] using this

/-- An address is live exactly when some extent contains it (R61). -/
theorem live_iff {ext : List Extent} {a : Nat} : live ext a = true ↔ ∃ e ∈ ext, e.start ≤ a ∧ a < e.stop := by
  simp [live, containing, List.find?_isSome, Extent.holds]

theorem containing_isSome {ext : List Extent} {a : Nat} : (∃ e, containing ext a = some e) ↔ live ext a = true := by
  rw [live, Option.isSome_iff_exists]

/-- A range is free exactly when none of its addresses is live, where extents are proper. -/
theorem rangeFree_iff {ext : List Extent} {lo hi : Nat} :
    rangeFree ext lo hi = true ↔ ∀ a, lo ≤ a → a < hi → live ext a = false := by
  simp only [rangeFree, List.all_eq_true, decide_eq_true_eq]
  constructor
  · intro h a h1 h2
    rw [Bool.eq_false_iff]
    intro hl
    obtain ⟨e, he, h3, h4⟩ := live_iff.mp hl
    have := h e he
    omega
  · intro h e he
    by_contra hlt
    have h1 := h (max e.start lo) (by omega) (by omega)
    rw [Bool.eq_false_iff] at h1
    exact h1 (live_iff.mpr ⟨e, he, by omega, by omega⟩)

theorem mem_insertExtent {e f : Extent} {ext : List Extent} : f ∈ insertExtent e ext ↔ f = e ∨ f ∈ ext := by
  induction ext with
  | nil => simp [insertExtent]
  | cons g ext ih =>
    simp only [insertExtent]
    split
    · simp
    · simp only [List.mem_cons, ih]
      tauto

theorem mem_removeExtent {e f : Extent} {ext : List Extent} : f ∈ removeExtent e ext ↔ f ∈ ext ∧ f ≠ e := by
  simp [removeExtent]

theorem live_insertExtent {e : Extent} {ext : List Extent} {a : Nat} :
    live (insertExtent e ext) a = true ↔ (e.start ≤ a ∧ a < e.stop) ∨ live ext a = true := by
  simp only [live_iff, mem_insertExtent]
  constructor
  · rintro ⟨f, rfl | hf, h⟩
    · exact .inl h
    · exact .inr ⟨f, hf, h⟩
  · rintro (h | ⟨f, hf, h⟩)
    · exact ⟨e, .inl rfl, h⟩
    · exact ⟨f, .inr hf, h⟩

/-- Two extents of an ordered set that share an address are the same. -/
theorem extent_unique {n : Nat} {ext : List Extent} (h : ExtentsOk n ext) {e f : Extent} (he : e ∈ ext) (hf : f ∈ ext)
    {a : Nat} (h1 : e.start ≤ a ∧ a < e.stop) (h2 : f.start ≤ a ∧ a < f.stop) : e = f := by
  by_contra hne
  obtain ⟨hp, ho⟩ := h
  have key : ∀ (l : List Extent), l.Pairwise (fun e f => e.stop ≤ f.start) → e ∈ l → f ∈ l →
      e.stop ≤ f.start ∨ f.stop ≤ e.start := by
    intro l hl he hf
    induction l with
    | nil => simp at he
    | cons g l ih =>
      obtain ⟨hg, hl⟩ := List.pairwise_cons.mp hl
      rcases List.mem_cons.mp he with he | he <;> rcases List.mem_cons.mp hf with hf | hf
      · exact absurd (he.trans hf.symm) hne
      · exact .inl (he ▸ hg _ hf)
      · exact .inr (hf ▸ hg _ he)
      · exact ih hl he hf
  have := key ext ho he hf
  omega

theorem live_removeExtent {n : Nat} {ext : List Extent} (h : ExtentsOk n ext) {e : Extent} (he : e ∈ ext) {a : Nat} :
    live (removeExtent e ext) a = true ↔ live ext a = true ∧ ¬ (e.start ≤ a ∧ a < e.stop) := by
  simp only [live_iff, mem_removeExtent]
  constructor
  · rintro ⟨f, ⟨hf, hne⟩, hfa⟩
    exact ⟨⟨f, hf, hfa⟩, fun hea => hne (extent_unique h hf he hfa hea)⟩
  · rintro ⟨⟨f, hf, hfa⟩, hna⟩
    exact ⟨f, ⟨hf, fun hfe => hna (hfe ▸ hfa)⟩, hfa⟩

theorem extentsOk_removeExtent {n : Nat} {ext : List Extent} (h : ExtentsOk n ext) (e : Extent) :
    ExtentsOk n (removeExtent e ext) :=
  ⟨fun f hf => h.1 f (mem_removeExtent.mp hf).1, h.2.filter _⟩

/-- An extent put into the set where it meets none of it keeps the set proper and ordered. -/
theorem extentsOk_insertExtent {n : Nat} {ext : List Extent} (h : ExtentsOk n ext) {e : Extent}
    (he : e.start < e.stop ∧ e.stop ≤ n) (hd : ∀ f ∈ ext, e.stop ≤ f.start ∨ f.stop ≤ e.start) :
    ExtentsOk n (insertExtent e ext) := by
  constructor
  · intro f hf
    rcases mem_insertExtent.mp hf with rfl | hf
    · exact he
    · exact h.1 f hf
  · induction ext with
    | nil => simp [insertExtent]
    | cons g ext ih =>
      obtain ⟨hg, ho⟩ := List.pairwise_cons.mp h.2
      have hgp := h.1 g (by simp)
      have hgd := hd g (by simp)
      simp only [insertExtent]
      split
      · rename_i hlt
        refine List.pairwise_cons.mpr ⟨?_, h.2⟩
        intro f hf
        rcases List.mem_cons.mp hf with rfl | hf
        · omega
        · have := hg f hf; omega
      · rename_i hge
        refine List.pairwise_cons.mpr ⟨?_, ih ⟨fun f hf => h.1 f (by simp [hf]), ho⟩ fun f hf => hd f (by simp [hf])⟩
        intro f hf
        rcases mem_insertExtent.mp hf with rfl | hf
        · omega
        · exact hg f hf

/-- A range free of live addresses meets no proper extent. -/
theorem disjoint_of_free {n : Nat} {ext : List Extent} (h : ExtentsOk n ext) {lo hi : Nat} (hlt : lo < hi)
    (hf : ∀ a, lo ≤ a → a < hi → live ext a = false) : ∀ e ∈ ext, hi ≤ e.start ∨ e.stop ≤ lo := by
  intro e he
  by_contra hn
  have hp := (h.1 e he).1
  have := hf (max e.start lo) (by omega) (by omega)
  rw [Bool.eq_false_iff] at this
  exact this (live_iff.mpr ⟨e, he, by omega, by omega⟩)

/-- Every address below `cur` is at or past the extents already passed, so the loop's answer is the least fitting start
from `cur` on. -/
theorem firstFitFrom_some {n k : Nat} {ext : List Extent} (h : ExtentsOk n ext) {cur a : Nat}
    (hc : ∀ e ∈ ext, cur ≤ e.start) (hf : firstFitFrom n k cur ext = some a) :
    cur ≤ a ∧ a + k ≤ n ∧ (∀ e ∈ ext, a + k ≤ e.start ∨ e.stop ≤ a) ∧
      ∀ b, cur ≤ b → b < a → ∃ e ∈ ext, b < e.stop ∧ e.start < b + k := by
  induction ext generalizing cur with
  | nil =>
    simp only [firstFitFrom] at hf
    split at hf <;> simp at hf
    subst hf
    exact ⟨le_refl _, by assumption, by simp, by intro b h1 h2; omega⟩
  | cons e ext ih =>
    obtain ⟨ho, hord⟩ := List.pairwise_cons.mp h.2
    have hep := h.1 e (by simp)
    have hce := hc e (by simp)
    simp only [firstFitFrom] at hf
    split at hf
    · simp at hf
      subst hf
      refine ⟨le_refl _, by omega, ?_, by intro b h1 h2; omega⟩
      intro f hf
      rcases List.mem_cons.mp hf with rfl | hf
      · left; assumption
      · have := ho f hf; left; omega
    · rename_i hnf
      obtain ⟨h1, h2, h3, h4⟩ := ih ⟨fun f hf => h.1 f (by simp [hf]), hord⟩ (fun f hf => ho f hf) hf
      refine ⟨by omega, h2, ?_, ?_⟩
      · intro f hf
        rcases List.mem_cons.mp hf with rfl | hf
        · right; omega
        · exact h3 f hf
      · intro b hb1 hb2
        by_cases hbe : b < e.stop
        · exact ⟨e, by simp, hbe, by omega⟩
        · obtain ⟨f, hf, hfb⟩ := h4 b (by omega) hb2
          exact ⟨f, by simp [hf], hfb⟩

theorem firstFitFrom_none {n k : Nat} {ext : List Extent} (h : ExtentsOk n ext) {cur : Nat}
    (hc : ∀ e ∈ ext, cur ≤ e.start) (hf : firstFitFrom n k cur ext = none) :
    ∀ b, cur ≤ b → b + k ≤ n → ∃ e ∈ ext, b < e.stop ∧ e.start < b + k := by
  induction ext generalizing cur with
  | nil =>
    simp only [firstFitFrom] at hf
    split at hf <;> simp at hf
    intro b h1 h2
    omega
  | cons e ext ih =>
    obtain ⟨ho, hord⟩ := List.pairwise_cons.mp h.2
    simp only [firstFitFrom] at hf
    split at hf
    · simp at hf
    · intro b hb1 hb2
      by_cases hbe : b < e.stop
      · exact ⟨e, by simp, hbe, by omega⟩
      · obtain ⟨f, hf, hfb⟩ :=
          ih ⟨fun f hf => h.1 f (by simp [hf]), hord⟩ (fun f hf => ho f hf) hf b (by omega) hb2
        exact ⟨f, by simp [hf], hfb⟩

/-! ## The extent that contains an address -/

theorem containing_none {ext : List Extent} {a : Nat} : containing ext a = none ↔ live ext a = false := by
  simp [live]

/-- In a proper ordered set the containing extent is the one member that holds the address (R61). -/
theorem containing_iff {n : Nat} {ext : List Extent} (h : ExtentsOk n ext) {a : Nat} {e : Extent} :
    containing ext a = some e ↔ e ∈ ext ∧ e.start ≤ a ∧ a < e.stop := by
  constructor
  · exact containing_some
  · rintro ⟨he, h1⟩
    obtain ⟨f, hf⟩ := containing_isSome.mpr (live_iff.mpr ⟨e, he, h1⟩)
    obtain ⟨hfe, h2⟩ := containing_some hf
    rw [hf, extent_unique h he hfe h1 h2]

theorem containing_insertExtent {n : Nat} {ext : List Extent} {e : Extent} (h : ExtentsOk n (insertExtent e ext))
    (h' : ExtentsOk n ext) (a : Nat) :
    containing (insertExtent e ext) a = if e.start ≤ a ∧ a < e.stop then some e else containing ext a := by
  split
  · rename_i hea
    exact (containing_iff h).mpr ⟨mem_insertExtent.mpr (.inl rfl), hea⟩
  · rename_i hea
    apply Option.ext
    intro f
    rw [containing_iff h, containing_iff h', mem_insertExtent]
    constructor
    · rintro ⟨rfl | hf, hfa⟩
      · exact absurd hfa hea
      · exact ⟨hf, hfa⟩
    · rintro ⟨hf, hfa⟩
      exact ⟨.inr hf, hfa⟩

theorem containing_removeExtent {n : Nat} {ext : List Extent} {e : Extent} (h : ExtentsOk n ext) (he : e ∈ ext)
    (a : Nat) :
    containing (removeExtent e ext) a = if e.start ≤ a ∧ a < e.stop then none else containing ext a := by
  split
  · rename_i hea
    rw [containing_none, Bool.eq_false_iff]
    intro hl
    exact ((live_removeExtent h he).mp hl).2 hea
  · rename_i hea
    apply Option.ext
    intro f
    rw [containing_iff (extentsOk_removeExtent h e), containing_iff h, mem_removeExtent]
    constructor
    · rintro ⟨⟨hf, -⟩, hfa⟩
      exact ⟨hf, hfa⟩
    · rintro ⟨hf, hfa⟩
      exact ⟨⟨hf, fun hfe => hea (hfe ▸ hfa)⟩, hfa⟩

/-- An extent resized in place, within its old size or over free addresses after it, keeps the set proper and ordered
(R69). -/
theorem extentsOk_resize {n : Nat} {ext : List Extent} (h : ExtentsOk n ext) {e : Extent} (he : e ∈ ext) {k : Nat}
    (hk : 1 ≤ k)
    (hfit : k ≤ e.stop - e.start ∨
      (e.start + k ≤ n ∧ ∀ b, e.stop ≤ b → b < e.start + k → live ext b = false)) :
    ExtentsOk n (insertExtent ⟨e.start, e.start + k⟩ (removeExtent e ext)) := by
  have hp := h.1 e he
  have hlt : e.start < e.start + k := by omega
  have hle : e.start + k ≤ n := by omega
  refine extentsOk_insertExtent (extentsOk_removeExtent h e) ⟨hlt, hle⟩
    (disjoint_of_free (extentsOk_removeExtent h e) hlt ?_)
  intro a (h1 : e.start ≤ a) (h2 : a < e.start + k)
  rw [Bool.eq_false_iff]
  intro hl
  obtain ⟨hl, hn⟩ := (live_removeExtent h he).mp hl
  rcases hfit with hfit | ⟨-, hfit⟩
  · omega
  · rw [hfit a (by omega) h2] at hl
    cases hl

/-! ## The invariant's extents and dead bytes -/

theorem Inv.extents {s : State} (h : Inv s) : ExtentsOk s.config.heapSize s.ext := ⟨h.extProper, h.extOrdered⟩

/-- Under the invariant a heap byte that is not live is 0 (R71). -/
theorem Inv.read_dead {s : State} (h : Inv s) {a : Nat} (hl : live s.ext a = false) : s.heap.read a = 0 := by
  by_contra hn
  obtain ⟨c, hc, rfl⟩ := Memory.listed_of_read_ne hn
  rw [h.heapLive c hc] at hl
  cases hl

end Sys2Proof.Machine
end

