-- ==== Sys2Proof/Laws/Decode.lean ====
section
/-! SUPPORT. The codes read back, the opcode range, and the wide form's numbers (30_encoding.md R101, R105, R110, R112,
R120, R121). -/

namespace Sys2Proof

/-! ## Tag and opcode codes -/

/-- A tag is read back from its code (R101). -/
@[simp] theorem tagOf_tagCode (t : Tag) : tagOf (tagCode t) = t := by cases t <;> rfl

/-- An unassigned tag byte is `NoType` (R102). -/
theorem tagOf_unassigned {b : Byte} (h : 0x0F ≤ b.toNat) : tagOf b = .noType := by
  unfold tagOf
  split <;> first | omega | rfl

/-- A tag byte decoded and encoded again: an unassigned one comes back as the code of `NoType`. -/
theorem tagCode_tagOf (b : Byte) : tagCode (tagOf b) = if 0x0F ≤ b.toNat then 0x0E else b := by
  revert b
  decide

/-- An opcode is read back from its code (R120). -/
@[simp] theorem opcodeOf_opcodeCode (c : Opcode) : opcodeOf (opcodeCode c).toNat = some c := by cases c <;> rfl

/-- Every code up to 0x24 is an opcode's (R121). -/
theorem opcodeOf_defined {n : Nat} (h : n ≤ 0x24) : ∃ c, opcodeOf n = some c ∧ (opcodeCode c).toNat = n := by
  interval_cases n <;> exact ⟨_, rfl, rfl⟩

/-- No code from 0x25 up is an opcode's (R121). -/
theorem opcodeOf_undefined {n : Nat} (h : 0x24 < n) : opcodeOf n = none := by
  unfold opcodeOf
  split <;> first | omega | rfl

/-- The instruction a shape gives has the opcode it was asked for (R122). -/
@[simp] theorem instrOf_opcode (c : Opcode) (rest : List Operand) : (instrOf c rest).opcode = c := by
  cases c <;> rfl

/-- The operands of a shape are those that follow the opcode operand, in order; one that is not there is empty (R122). -/
theorem instrOf_slots {c : Opcode} {rest : List Operand} {j : Nat} (h : j < (instrOf c rest).slots.length) :
    (instrOf c rest).slots[j]? = some rest[j]? := by
  cases c <;> simp only [instrOf, Instr.slots, List.length_cons, List.length_nil] at h ⊢ <;> (try omega) <;>
    interval_cases j <;> rfl

/-- STORE's values are the operands after its second (R116). -/
theorem instrOf_store_tail (rest : List Operand) (k : Nat) : (instrOf .store rest).tail[k]? = rest[k + 2]? := by
  simp [instrOf, Instr.tail, Nat.add_comm]

/-- What decodes to an instruction is an opcode operand and its opcode's shape over the rest (R115). -/
theorem decodeOperands_ok {ops : List Operand} {i : Instr} :
    decodeOperands ops = .ok i ↔
      ∃ o rest c, ops = o :: rest ∧ o.tag = .op ∧ opcodeOf o.payload.toNat = some c ∧ i = instrOf c rest := by
  constructor
  · intro h
    cases ops with
    | nil => simp [decodeOperands] at h
    | cons o rest =>
      simp only [decodeOperands] at h
      split at h
      · rename_i ht
        split at h
        · rename_i c hc
          exact ⟨o, rest, c, rfl, ht, hc, (Except.ok.inj h).symm⟩
        · cases h
      · cases h
  · rintro ⟨o, rest, c, rfl, ht, hc, rfl⟩
    simp [decodeOperands, ht, hc]

/-! ## Bytes and numbers -/

theorem zext64_eq (b : Byte) : zext64 b = BitVec.ofNat 64 b.toNat := by
  apply BitVec.eq_of_toNat_eq
  simp [zext64]

/-- A payload of at most 255 survives the compact form's one byte (R107). -/
theorem zext64_setWidth {p : Word} (h : p.toNat ≤ 255) : zext64 (p.setWidth 8) = p := by
  apply BitVec.eq_of_toNat_eq
  simp only [zext64, BitVec.toNat_setWidth]
  omega

theorem bigEndian_foldl (bytes : List Byte) (n : Nat) :
    bytes.foldl (fun n b => 256 * n + b.toNat) n = n * 256 ^ bytes.length + bigEndian bytes := by
  induction bytes generalizing n with
  | nil => simp [bigEndian]
  | cons b bytes ih =>
    simp only [List.foldl_cons, bigEndian, List.length_cons]
    rw [ih, ih (256 * 0 + b.toNat)]
    ring

/-- The first byte is the most significant (R110). -/
theorem bigEndian_cons (b : Byte) (bytes : List Byte) :
    bigEndian (b :: bytes) = b.toNat * 256 ^ bytes.length + bigEndian bytes := by
  rw [bigEndian, List.foldl_cons, bigEndian_foldl]
  simp

theorem length_bigEndianBytes (w n : Nat) : (bigEndianBytes w n).length = w := by
  induction w with
  | zero => rfl
  | succ w ih => simp [bigEndianBytes, ih]

/-- The bytes of a number spell it, as far as they are wide (R113). -/
theorem bigEndian_bigEndianBytes (w n : Nat) : bigEndian (bigEndianBytes w n) = n % 256 ^ w := by
  induction w with
  | zero => simp [bigEndianBytes, bigEndian, Nat.mod_one]
  | succ w ih =>
    rw [bigEndianBytes, bigEndian_cons, ih, length_bigEndianBytes, BitVec.toNat_ofNat]
    rw [show 256 ^ (w + 1) = 256 ^ w * 2 ^ 8 by norm_num [pow_succ], Nat.mod_mul (x := n)]
    ring

/-! ## The two decoders, one operand at a time -/

theorem decodeCompact_cons (t p : Byte) (img : List Byte) :
    decodeCompact (t :: p :: img) = ⟨tagOf t, zext64 p⟩ :: decodeCompact img := rfl

theorem encodeImage_cons (form : WireForm) (o : Operand) (ops : List Operand) :
    encodeImage form (o :: ops) = encodeOperand form o ++ encodeImage form ops := rfl

/-- Rounds past the image's length change nothing. -/
theorem decodeWideLoop_fuel (f g : Nat) (img : List Byte) (hf : img.length ≤ f) (hg : img.length ≤ g) :
    decodeWideLoop f img = decodeWideLoop g img := by
  induction f generalizing g img with
  | zero =>
    obtain rfl : img = [] := List.length_eq_zero_iff.mp (by omega)
    cases g <;> rfl
  | succ f ih =>
    cases img with
    | nil => cases g <;> rfl
    | cons t img =>
      cases g with
      | zero => simp at hg
      | succ g =>
        simp only [List.length_cons] at hf hg
        simp only [decodeWideLoop]
        split
        · rfl
        · congr 1
          exact ih g _ (by simp; omega) (by simp; omega)

/-- One round of `DecodeWide` (R112). -/
theorem decodeWide_cons (t : Byte) (img : List Byte) :
    decodeWide (t :: img) =
      if img.length < (tagOf t).wideWidth then []
      else ⟨tagOf t, BitVec.ofNat 64 (bigEndian (img.take (tagOf t).wideWidth))⟩ ::
        decodeWide (img.drop (tagOf t).wideWidth) := by
  simp only [decodeWide, List.length_cons, decodeWideLoop]
  split
  · rfl
  · rw [decodeWideLoop_fuel _ (img.drop _).length _ (by simp) (le_refl _)]

end Sys2Proof
end

