-- ==== Sys2Proof/Laws/State.lean ====
section
/-! SUPPORT. One lemma per field per update of the state: what an update writes, and every field it leaves. -/

namespace Sys2Proof.Machine.State

variable (s : State)

@[simp] theorem setReg_config (d : Fin NREG) (v : Word) : (s.setReg d v).config = s.config := rfl
@[simp] theorem setReg_engState (d : Fin NREG) (v : Word) : (s.setReg d v).engState = s.engState := rfl
@[simp] theorem setReg_fault (d : Fin NREG) (v : Word) : (s.setReg d v).fault = s.fault := rfl
@[simp] theorem setReg_regs (d : Fin NREG) (v : Word) : (s.setReg d v).regs = s.regs.set d v := rfl
@[simp] theorem setReg_acc (d : Fin NREG) (v : Word) : (s.setReg d v).acc = s.acc := rfl
@[simp] theorem setReg_pc (d : Fin NREG) (v : Word) : (s.setReg d v).pc = s.pc := rfl
@[simp] theorem setReg_stream (d : Fin NREG) (v : Word) : (s.setReg d v).stream = s.stream := rfl
@[simp] theorem setReg_jt (d : Fin NREG) (v : Word) : (s.setReg d v).jt = s.jt := rfl
@[simp] theorem setReg_cs (d : Fin NREG) (v : Word) : (s.setReg d v).cs = s.cs := rfl
@[simp] theorem setReg_stack (d : Fin NREG) (v : Word) : (s.setReg d v).stack = s.stack := rfl
@[simp] theorem setReg_sp (d : Fin NREG) (v : Word) : (s.setReg d v).sp = s.sp := rfl
@[simp] theorem setReg_heap (d : Fin NREG) (v : Word) : (s.setReg d v).heap = s.heap := rfl
@[simp] theorem setReg_ext (d : Fin NREG) (v : Word) : (s.setReg d v).ext = s.ext := rfl
@[simp] theorem setReg_outq (d : Fin NREG) (v : Word) : (s.setReg d v).outq = s.outq := rfl
@[simp] theorem setReg_inq (d : Fin NREG) (v : Word) : (s.setReg d v).inq = s.inq := rfl
@[simp] theorem setReg_devLog (d : Fin NREG) (v : Word) : (s.setReg d v).devLog = s.devLog := rfl
@[simp] theorem setReg_len (d : Fin NREG) (v : Word) : (s.setReg d v).len = s.len := rfl

@[simp] theorem setAcc_config (v : Word) : (s.setAcc v).config = s.config := rfl
@[simp] theorem setAcc_engState (v : Word) : (s.setAcc v).engState = s.engState := rfl
@[simp] theorem setAcc_fault (v : Word) : (s.setAcc v).fault = s.fault := rfl
@[simp] theorem setAcc_regs (v : Word) : (s.setAcc v).regs = s.regs := rfl
@[simp] theorem setAcc_acc (v : Word) : (s.setAcc v).acc = v := rfl
@[simp] theorem setAcc_pc (v : Word) : (s.setAcc v).pc = s.pc := rfl
@[simp] theorem setAcc_stream (v : Word) : (s.setAcc v).stream = s.stream := rfl
@[simp] theorem setAcc_jt (v : Word) : (s.setAcc v).jt = s.jt := rfl
@[simp] theorem setAcc_cs (v : Word) : (s.setAcc v).cs = s.cs := rfl
@[simp] theorem setAcc_stack (v : Word) : (s.setAcc v).stack = s.stack := rfl
@[simp] theorem setAcc_sp (v : Word) : (s.setAcc v).sp = s.sp := rfl
@[simp] theorem setAcc_heap (v : Word) : (s.setAcc v).heap = s.heap := rfl
@[simp] theorem setAcc_ext (v : Word) : (s.setAcc v).ext = s.ext := rfl
@[simp] theorem setAcc_outq (v : Word) : (s.setAcc v).outq = s.outq := rfl
@[simp] theorem setAcc_inq (v : Word) : (s.setAcc v).inq = s.inq := rfl
@[simp] theorem setAcc_devLog (v : Word) : (s.setAcc v).devLog = s.devLog := rfl
@[simp] theorem setAcc_len (v : Word) : (s.setAcc v).len = s.len := rfl
@[simp] theorem setAcc_reg (v : Word) (e : Fin NREG) : (s.setAcc v).reg e = s.reg e := rfl

@[simp] theorem jumpTo_config (n : Nat) : (s.jumpTo n).config = s.config := rfl
@[simp] theorem jumpTo_engState (n : Nat) : (s.jumpTo n).engState = s.engState := rfl
@[simp] theorem jumpTo_fault (n : Nat) : (s.jumpTo n).fault = s.fault := rfl
@[simp] theorem jumpTo_regs (n : Nat) : (s.jumpTo n).regs = s.regs := rfl
@[simp] theorem jumpTo_acc (n : Nat) : (s.jumpTo n).acc = s.acc := rfl
@[simp] theorem jumpTo_pc (n : Nat) : (s.jumpTo n).pc = n := rfl
@[simp] theorem jumpTo_stream (n : Nat) : (s.jumpTo n).stream = s.stream := rfl
@[simp] theorem jumpTo_jt (n : Nat) : (s.jumpTo n).jt = s.jt := rfl
@[simp] theorem jumpTo_cs (n : Nat) : (s.jumpTo n).cs = s.cs := rfl
@[simp] theorem jumpTo_stack (n : Nat) : (s.jumpTo n).stack = s.stack := rfl
@[simp] theorem jumpTo_sp (n : Nat) : (s.jumpTo n).sp = s.sp := rfl
@[simp] theorem jumpTo_heap (n : Nat) : (s.jumpTo n).heap = s.heap := rfl
@[simp] theorem jumpTo_ext (n : Nat) : (s.jumpTo n).ext = s.ext := rfl
@[simp] theorem jumpTo_outq (n : Nat) : (s.jumpTo n).outq = s.outq := rfl
@[simp] theorem jumpTo_inq (n : Nat) : (s.jumpTo n).inq = s.inq := rfl
@[simp] theorem jumpTo_devLog (n : Nat) : (s.jumpTo n).devLog = s.devLog := rfl
@[simp] theorem jumpTo_len (n : Nat) : (s.jumpTo n).len = s.len := rfl
@[simp] theorem jumpTo_reg (n : Nat) (e : Fin NREG) : (s.jumpTo n).reg e = s.reg e := rfl

@[simp] theorem advance_config (n : Nat) : (s.advance n).config = s.config := rfl
@[simp] theorem advance_engState (n : Nat) : (s.advance n).engState = s.engState := rfl
@[simp] theorem advance_fault (n : Nat) : (s.advance n).fault = s.fault := rfl
@[simp] theorem advance_regs (n : Nat) : (s.advance n).regs = s.regs := rfl
@[simp] theorem advance_acc (n : Nat) : (s.advance n).acc = s.acc := rfl
@[simp] theorem advance_pc (n : Nat) : (s.advance n).pc = s.pc + n := rfl
@[simp] theorem advance_stream (n : Nat) : (s.advance n).stream = s.stream := rfl
@[simp] theorem advance_jt (n : Nat) : (s.advance n).jt = s.jt := rfl
@[simp] theorem advance_cs (n : Nat) : (s.advance n).cs = s.cs := rfl
@[simp] theorem advance_stack (n : Nat) : (s.advance n).stack = s.stack := rfl
@[simp] theorem advance_sp (n : Nat) : (s.advance n).sp = s.sp := rfl
@[simp] theorem advance_heap (n : Nat) : (s.advance n).heap = s.heap := rfl
@[simp] theorem advance_ext (n : Nat) : (s.advance n).ext = s.ext := rfl
@[simp] theorem advance_outq (n : Nat) : (s.advance n).outq = s.outq := rfl
@[simp] theorem advance_inq (n : Nat) : (s.advance n).inq = s.inq := rfl
@[simp] theorem advance_devLog (n : Nat) : (s.advance n).devLog = s.devLog := rfl
@[simp] theorem advance_len (n : Nat) : (s.advance n).len = s.len := rfl
@[simp] theorem advance_reg (n : Nat) (e : Fin NREG) : (s.advance n).reg e = s.reg e := rfl

@[simp] theorem setJt_config (v : List Nat) : (s.setJt v).config = s.config := rfl
@[simp] theorem setJt_engState (v : List Nat) : (s.setJt v).engState = s.engState := rfl
@[simp] theorem setJt_fault (v : List Nat) : (s.setJt v).fault = s.fault := rfl
@[simp] theorem setJt_regs (v : List Nat) : (s.setJt v).regs = s.regs := rfl
@[simp] theorem setJt_acc (v : List Nat) : (s.setJt v).acc = s.acc := rfl
@[simp] theorem setJt_pc (v : List Nat) : (s.setJt v).pc = s.pc := rfl
@[simp] theorem setJt_stream (v : List Nat) : (s.setJt v).stream = s.stream := rfl
@[simp] theorem setJt_jt (v : List Nat) : (s.setJt v).jt = v := rfl
@[simp] theorem setJt_cs (v : List Nat) : (s.setJt v).cs = s.cs := rfl
@[simp] theorem setJt_stack (v : List Nat) : (s.setJt v).stack = s.stack := rfl
@[simp] theorem setJt_sp (v : List Nat) : (s.setJt v).sp = s.sp := rfl
@[simp] theorem setJt_heap (v : List Nat) : (s.setJt v).heap = s.heap := rfl
@[simp] theorem setJt_ext (v : List Nat) : (s.setJt v).ext = s.ext := rfl
@[simp] theorem setJt_outq (v : List Nat) : (s.setJt v).outq = s.outq := rfl
@[simp] theorem setJt_inq (v : List Nat) : (s.setJt v).inq = s.inq := rfl
@[simp] theorem setJt_devLog (v : List Nat) : (s.setJt v).devLog = s.devLog := rfl
@[simp] theorem setJt_len (v : List Nat) : (s.setJt v).len = s.len := rfl
@[simp] theorem setJt_reg (v : List Nat) (e : Fin NREG) : (s.setJt v).reg e = s.reg e := rfl

@[simp] theorem setCs_config (v : List Nat) : (s.setCs v).config = s.config := rfl
@[simp] theorem setCs_engState (v : List Nat) : (s.setCs v).engState = s.engState := rfl
@[simp] theorem setCs_fault (v : List Nat) : (s.setCs v).fault = s.fault := rfl
@[simp] theorem setCs_regs (v : List Nat) : (s.setCs v).regs = s.regs := rfl
@[simp] theorem setCs_acc (v : List Nat) : (s.setCs v).acc = s.acc := rfl
@[simp] theorem setCs_pc (v : List Nat) : (s.setCs v).pc = s.pc := rfl
@[simp] theorem setCs_stream (v : List Nat) : (s.setCs v).stream = s.stream := rfl
@[simp] theorem setCs_jt (v : List Nat) : (s.setCs v).jt = s.jt := rfl
@[simp] theorem setCs_cs (v : List Nat) : (s.setCs v).cs = v := rfl
@[simp] theorem setCs_stack (v : List Nat) : (s.setCs v).stack = s.stack := rfl
@[simp] theorem setCs_sp (v : List Nat) : (s.setCs v).sp = s.sp := rfl
@[simp] theorem setCs_heap (v : List Nat) : (s.setCs v).heap = s.heap := rfl
@[simp] theorem setCs_ext (v : List Nat) : (s.setCs v).ext = s.ext := rfl
@[simp] theorem setCs_outq (v : List Nat) : (s.setCs v).outq = s.outq := rfl
@[simp] theorem setCs_inq (v : List Nat) : (s.setCs v).inq = s.inq := rfl
@[simp] theorem setCs_devLog (v : List Nat) : (s.setCs v).devLog = s.devLog := rfl
@[simp] theorem setCs_len (v : List Nat) : (s.setCs v).len = s.len := rfl
@[simp] theorem setCs_reg (v : List Nat) (e : Fin NREG) : (s.setCs v).reg e = s.reg e := rfl

@[simp] theorem setStack_config (m : Memory) (n : Nat) : (s.setStack m n).config = s.config := rfl
@[simp] theorem setStack_engState (m : Memory) (n : Nat) : (s.setStack m n).engState = s.engState := rfl
@[simp] theorem setStack_fault (m : Memory) (n : Nat) : (s.setStack m n).fault = s.fault := rfl
@[simp] theorem setStack_regs (m : Memory) (n : Nat) : (s.setStack m n).regs = s.regs := rfl
@[simp] theorem setStack_acc (m : Memory) (n : Nat) : (s.setStack m n).acc = s.acc := rfl
@[simp] theorem setStack_pc (m : Memory) (n : Nat) : (s.setStack m n).pc = s.pc := rfl
@[simp] theorem setStack_stream (m : Memory) (n : Nat) : (s.setStack m n).stream = s.stream := rfl
@[simp] theorem setStack_jt (m : Memory) (n : Nat) : (s.setStack m n).jt = s.jt := rfl
@[simp] theorem setStack_cs (m : Memory) (n : Nat) : (s.setStack m n).cs = s.cs := rfl
@[simp] theorem setStack_stack (m : Memory) (n : Nat) : (s.setStack m n).stack = m := rfl
@[simp] theorem setStack_sp (m : Memory) (n : Nat) : (s.setStack m n).sp = n := rfl
@[simp] theorem setStack_heap (m : Memory) (n : Nat) : (s.setStack m n).heap = s.heap := rfl
@[simp] theorem setStack_ext (m : Memory) (n : Nat) : (s.setStack m n).ext = s.ext := rfl
@[simp] theorem setStack_outq (m : Memory) (n : Nat) : (s.setStack m n).outq = s.outq := rfl
@[simp] theorem setStack_inq (m : Memory) (n : Nat) : (s.setStack m n).inq = s.inq := rfl
@[simp] theorem setStack_devLog (m : Memory) (n : Nat) : (s.setStack m n).devLog = s.devLog := rfl
@[simp] theorem setStack_len (m : Memory) (n : Nat) : (s.setStack m n).len = s.len := rfl
@[simp] theorem setStack_reg (m : Memory) (n : Nat) (e : Fin NREG) : (s.setStack m n).reg e = s.reg e := rfl

@[simp] theorem setHeap_config (m : Memory) : (s.setHeap m).config = s.config := rfl
@[simp] theorem setHeap_engState (m : Memory) : (s.setHeap m).engState = s.engState := rfl
@[simp] theorem setHeap_fault (m : Memory) : (s.setHeap m).fault = s.fault := rfl
@[simp] theorem setHeap_regs (m : Memory) : (s.setHeap m).regs = s.regs := rfl
@[simp] theorem setHeap_acc (m : Memory) : (s.setHeap m).acc = s.acc := rfl
@[simp] theorem setHeap_pc (m : Memory) : (s.setHeap m).pc = s.pc := rfl
@[simp] theorem setHeap_stream (m : Memory) : (s.setHeap m).stream = s.stream := rfl
@[simp] theorem setHeap_jt (m : Memory) : (s.setHeap m).jt = s.jt := rfl
@[simp] theorem setHeap_cs (m : Memory) : (s.setHeap m).cs = s.cs := rfl
@[simp] theorem setHeap_stack (m : Memory) : (s.setHeap m).stack = s.stack := rfl
@[simp] theorem setHeap_sp (m : Memory) : (s.setHeap m).sp = s.sp := rfl
@[simp] theorem setHeap_heap (m : Memory) : (s.setHeap m).heap = m := rfl
@[simp] theorem setHeap_ext (m : Memory) : (s.setHeap m).ext = s.ext := rfl
@[simp] theorem setHeap_outq (m : Memory) : (s.setHeap m).outq = s.outq := rfl
@[simp] theorem setHeap_inq (m : Memory) : (s.setHeap m).inq = s.inq := rfl
@[simp] theorem setHeap_devLog (m : Memory) : (s.setHeap m).devLog = s.devLog := rfl
@[simp] theorem setHeap_len (m : Memory) : (s.setHeap m).len = s.len := rfl
@[simp] theorem setHeap_reg (m : Memory) (e : Fin NREG) : (s.setHeap m).reg e = s.reg e := rfl

@[simp] theorem setExt_config (v : List Extent) : (s.setExt v).config = s.config := rfl
@[simp] theorem setExt_engState (v : List Extent) : (s.setExt v).engState = s.engState := rfl
@[simp] theorem setExt_fault (v : List Extent) : (s.setExt v).fault = s.fault := rfl
@[simp] theorem setExt_regs (v : List Extent) : (s.setExt v).regs = s.regs := rfl
@[simp] theorem setExt_acc (v : List Extent) : (s.setExt v).acc = s.acc := rfl
@[simp] theorem setExt_pc (v : List Extent) : (s.setExt v).pc = s.pc := rfl
@[simp] theorem setExt_stream (v : List Extent) : (s.setExt v).stream = s.stream := rfl
@[simp] theorem setExt_jt (v : List Extent) : (s.setExt v).jt = s.jt := rfl
@[simp] theorem setExt_cs (v : List Extent) : (s.setExt v).cs = s.cs := rfl
@[simp] theorem setExt_stack (v : List Extent) : (s.setExt v).stack = s.stack := rfl
@[simp] theorem setExt_sp (v : List Extent) : (s.setExt v).sp = s.sp := rfl
@[simp] theorem setExt_heap (v : List Extent) : (s.setExt v).heap = s.heap := rfl
@[simp] theorem setExt_ext (v : List Extent) : (s.setExt v).ext = v := rfl
@[simp] theorem setExt_outq (v : List Extent) : (s.setExt v).outq = s.outq := rfl
@[simp] theorem setExt_inq (v : List Extent) : (s.setExt v).inq = s.inq := rfl
@[simp] theorem setExt_devLog (v : List Extent) : (s.setExt v).devLog = s.devLog := rfl
@[simp] theorem setExt_len (v : List Extent) : (s.setExt v).len = s.len := rfl
@[simp] theorem setExt_reg (v : List Extent) (e : Fin NREG) : (s.setExt v).reg e = s.reg e := rfl

@[simp] theorem setOut_config (v : List Byte) : (s.setOut v).config = s.config := rfl
@[simp] theorem setOut_engState (v : List Byte) : (s.setOut v).engState = s.engState := rfl
@[simp] theorem setOut_fault (v : List Byte) : (s.setOut v).fault = s.fault := rfl
@[simp] theorem setOut_regs (v : List Byte) : (s.setOut v).regs = s.regs := rfl
@[simp] theorem setOut_acc (v : List Byte) : (s.setOut v).acc = s.acc := rfl
@[simp] theorem setOut_pc (v : List Byte) : (s.setOut v).pc = s.pc := rfl
@[simp] theorem setOut_stream (v : List Byte) : (s.setOut v).stream = s.stream := rfl
@[simp] theorem setOut_jt (v : List Byte) : (s.setOut v).jt = s.jt := rfl
@[simp] theorem setOut_cs (v : List Byte) : (s.setOut v).cs = s.cs := rfl
@[simp] theorem setOut_stack (v : List Byte) : (s.setOut v).stack = s.stack := rfl
@[simp] theorem setOut_sp (v : List Byte) : (s.setOut v).sp = s.sp := rfl
@[simp] theorem setOut_heap (v : List Byte) : (s.setOut v).heap = s.heap := rfl
@[simp] theorem setOut_ext (v : List Byte) : (s.setOut v).ext = s.ext := rfl
@[simp] theorem setOut_outq (v : List Byte) : (s.setOut v).outq = v := rfl
@[simp] theorem setOut_inq (v : List Byte) : (s.setOut v).inq = s.inq := rfl
@[simp] theorem setOut_devLog (v : List Byte) : (s.setOut v).devLog = s.devLog := rfl
@[simp] theorem setOut_len (v : List Byte) : (s.setOut v).len = s.len := rfl
@[simp] theorem setOut_reg (v : List Byte) (e : Fin NREG) : (s.setOut v).reg e = s.reg e := rfl

@[simp] theorem setIn_config (v : List Byte) : (s.setIn v).config = s.config := rfl
@[simp] theorem setIn_engState (v : List Byte) : (s.setIn v).engState = s.engState := rfl
@[simp] theorem setIn_fault (v : List Byte) : (s.setIn v).fault = s.fault := rfl
@[simp] theorem setIn_regs (v : List Byte) : (s.setIn v).regs = s.regs := rfl
@[simp] theorem setIn_acc (v : List Byte) : (s.setIn v).acc = s.acc := rfl
@[simp] theorem setIn_pc (v : List Byte) : (s.setIn v).pc = s.pc := rfl
@[simp] theorem setIn_stream (v : List Byte) : (s.setIn v).stream = s.stream := rfl
@[simp] theorem setIn_jt (v : List Byte) : (s.setIn v).jt = s.jt := rfl
@[simp] theorem setIn_cs (v : List Byte) : (s.setIn v).cs = s.cs := rfl
@[simp] theorem setIn_stack (v : List Byte) : (s.setIn v).stack = s.stack := rfl
@[simp] theorem setIn_sp (v : List Byte) : (s.setIn v).sp = s.sp := rfl
@[simp] theorem setIn_heap (v : List Byte) : (s.setIn v).heap = s.heap := rfl
@[simp] theorem setIn_ext (v : List Byte) : (s.setIn v).ext = s.ext := rfl
@[simp] theorem setIn_outq (v : List Byte) : (s.setIn v).outq = s.outq := rfl
@[simp] theorem setIn_inq (v : List Byte) : (s.setIn v).inq = v := rfl
@[simp] theorem setIn_devLog (v : List Byte) : (s.setIn v).devLog = s.devLog := rfl
@[simp] theorem setIn_len (v : List Byte) : (s.setIn v).len = s.len := rfl
@[simp] theorem setIn_reg (v : List Byte) (e : Fin NREG) : (s.setIn v).reg e = s.reg e := rfl

@[simp] theorem deviceOut_config (v : List Byte) : (s.deviceOut v).config = s.config := rfl
@[simp] theorem deviceOut_engState (v : List Byte) : (s.deviceOut v).engState = s.engState := rfl
@[simp] theorem deviceOut_fault (v : List Byte) : (s.deviceOut v).fault = s.fault := rfl
@[simp] theorem deviceOut_regs (v : List Byte) : (s.deviceOut v).regs = s.regs := rfl
@[simp] theorem deviceOut_acc (v : List Byte) : (s.deviceOut v).acc = s.acc := rfl
@[simp] theorem deviceOut_pc (v : List Byte) : (s.deviceOut v).pc = s.pc := rfl
@[simp] theorem deviceOut_stream (v : List Byte) : (s.deviceOut v).stream = s.stream := rfl
@[simp] theorem deviceOut_jt (v : List Byte) : (s.deviceOut v).jt = s.jt := rfl
@[simp] theorem deviceOut_cs (v : List Byte) : (s.deviceOut v).cs = s.cs := rfl
@[simp] theorem deviceOut_stack (v : List Byte) : (s.deviceOut v).stack = s.stack := rfl
@[simp] theorem deviceOut_sp (v : List Byte) : (s.deviceOut v).sp = s.sp := rfl
@[simp] theorem deviceOut_heap (v : List Byte) : (s.deviceOut v).heap = s.heap := rfl
@[simp] theorem deviceOut_ext (v : List Byte) : (s.deviceOut v).ext = s.ext := rfl
@[simp] theorem deviceOut_outq (v : List Byte) : (s.deviceOut v).outq = s.outq := rfl
@[simp] theorem deviceOut_inq (v : List Byte) : (s.deviceOut v).inq = s.inq := rfl
@[simp] theorem deviceOut_devLog (v : List Byte) : (s.deviceOut v).devLog = s.devLog ++ [v] := rfl
@[simp] theorem deviceOut_len (v : List Byte) : (s.deviceOut v).len = s.len := rfl
@[simp] theorem deviceOut_reg (v : List Byte) (e : Fin NREG) : (s.deviceOut v).reg e = s.reg e := rfl

@[simp] theorem setEng_config (v : EngState) : (s.setEng v).config = s.config := rfl
@[simp] theorem setEng_engState (v : EngState) : (s.setEng v).engState = v := rfl
@[simp] theorem setEng_fault (v : EngState) : (s.setEng v).fault = s.fault := rfl
@[simp] theorem setEng_regs (v : EngState) : (s.setEng v).regs = s.regs := rfl
@[simp] theorem setEng_acc (v : EngState) : (s.setEng v).acc = s.acc := rfl
@[simp] theorem setEng_pc (v : EngState) : (s.setEng v).pc = s.pc := rfl
@[simp] theorem setEng_stream (v : EngState) : (s.setEng v).stream = s.stream := rfl
@[simp] theorem setEng_jt (v : EngState) : (s.setEng v).jt = s.jt := rfl
@[simp] theorem setEng_cs (v : EngState) : (s.setEng v).cs = s.cs := rfl
@[simp] theorem setEng_stack (v : EngState) : (s.setEng v).stack = s.stack := rfl
@[simp] theorem setEng_sp (v : EngState) : (s.setEng v).sp = s.sp := rfl
@[simp] theorem setEng_heap (v : EngState) : (s.setEng v).heap = s.heap := rfl
@[simp] theorem setEng_ext (v : EngState) : (s.setEng v).ext = s.ext := rfl
@[simp] theorem setEng_outq (v : EngState) : (s.setEng v).outq = s.outq := rfl
@[simp] theorem setEng_inq (v : EngState) : (s.setEng v).inq = s.inq := rfl
@[simp] theorem setEng_devLog (v : EngState) : (s.setEng v).devLog = s.devLog := rfl
@[simp] theorem setEng_len (v : EngState) : (s.setEng v).len = s.len := rfl
@[simp] theorem setEng_reg (v : EngState) (e : Fin NREG) : (s.setEng v).reg e = s.reg e := rfl

/-- Reading a register file after a write. -/
@[simp] theorem regs_get_set (regs : Vector Word NREG) (d e : Fin NREG) (v : Word) :
    (regs.set d v).get e = if d = e then v else regs.get e := by
  simp only [Vector.get_eq_getElem, Vector.getElem_set, Fin.ext_iff]

/-- Reading a register after a write of a register. -/
@[simp] theorem setReg_reg (d e : Fin NREG) (v : Word) :
    (s.setReg d v).reg e = if d = e then v else s.reg e := by
  simp only [State.reg, State.setReg, Vector.get_eq_getElem, Vector.getElem_set, Fin.ext_iff]

end Sys2Proof.Machine.State

namespace Sys2Proof.Machine

variable (s : State) (p : Nat) (o : Option Byte) (c : FaultCause)

@[simp] theorem takeFault_config : (takeFault p o c s).config = s.config := rfl
@[simp] theorem takeFault_engState : (takeFault p o c s).engState = .faulted := rfl
@[simp] theorem takeFault_fault : (takeFault p o c s).fault = 
      { kind := some (faultKindOf c.reason), reason := some c.reason, pos := p, opnd := c.opnd, opcode := o, addr := c.addr } := rfl
@[simp] theorem takeFault_regs : (takeFault p o c s).regs = s.regs := rfl
@[simp] theorem takeFault_acc : (takeFault p o c s).acc = s.acc := rfl
@[simp] theorem takeFault_pc : (takeFault p o c s).pc = s.pc := rfl
@[simp] theorem takeFault_stream : (takeFault p o c s).stream = s.stream := rfl
@[simp] theorem takeFault_jt : (takeFault p o c s).jt = s.jt := rfl
@[simp] theorem takeFault_cs : (takeFault p o c s).cs = s.cs := rfl
@[simp] theorem takeFault_stack : (takeFault p o c s).stack = s.stack := rfl
@[simp] theorem takeFault_sp : (takeFault p o c s).sp = s.sp := rfl
@[simp] theorem takeFault_heap : (takeFault p o c s).heap = s.heap := rfl
@[simp] theorem takeFault_ext : (takeFault p o c s).ext = s.ext := rfl
@[simp] theorem takeFault_outq : (takeFault p o c s).outq = s.outq := rfl
@[simp] theorem takeFault_inq : (takeFault p o c s).inq = s.inq := rfl
@[simp] theorem takeFault_devLog : (takeFault p o c s).devLog = s.devLog := rfl
@[simp] theorem takeFault_len : (takeFault p o c s).len = s.len := rfl
@[simp] theorem takeFault_reg (e : Fin NREG) : (takeFault p o c s).reg e = s.reg e := rfl

@[simp] theorem endOfStream_config : (endOfStream s).config = s.config := by unfold endOfStream; split <;> rfl
@[simp] theorem endOfStream_engState :
    (endOfStream s).engState = if s.engState = .running ∧ s.len ≤ s.pc then .halted else s.engState := by
  unfold endOfStream; split <;> rfl
@[simp] theorem endOfStream_fault : (endOfStream s).fault = s.fault := by unfold endOfStream; split <;> rfl
@[simp] theorem endOfStream_regs : (endOfStream s).regs = s.regs := by unfold endOfStream; split <;> rfl
@[simp] theorem endOfStream_acc : (endOfStream s).acc = s.acc := by unfold endOfStream; split <;> rfl
@[simp] theorem endOfStream_pc : (endOfStream s).pc = s.pc := by unfold endOfStream; split <;> rfl
@[simp] theorem endOfStream_stream : (endOfStream s).stream = s.stream := by unfold endOfStream; split <;> rfl
@[simp] theorem endOfStream_jt : (endOfStream s).jt = s.jt := by unfold endOfStream; split <;> rfl
@[simp] theorem endOfStream_cs : (endOfStream s).cs = s.cs := by unfold endOfStream; split <;> rfl
@[simp] theorem endOfStream_stack : (endOfStream s).stack = s.stack := by unfold endOfStream; split <;> rfl
@[simp] theorem endOfStream_sp : (endOfStream s).sp = s.sp := by unfold endOfStream; split <;> rfl
@[simp] theorem endOfStream_heap : (endOfStream s).heap = s.heap := by unfold endOfStream; split <;> rfl
@[simp] theorem endOfStream_ext : (endOfStream s).ext = s.ext := by unfold endOfStream; split <;> rfl
@[simp] theorem endOfStream_outq : (endOfStream s).outq = s.outq := by unfold endOfStream; split <;> rfl
@[simp] theorem endOfStream_inq : (endOfStream s).inq = s.inq := by unfold endOfStream; split <;> rfl
@[simp] theorem endOfStream_devLog : (endOfStream s).devLog = s.devLog := by unfold endOfStream; split <;> rfl
@[simp] theorem endOfStream_len : (endOfStream s).len = s.len := by unfold endOfStream; split <;> rfl

end Sys2Proof.Machine
end

