-- ==== Sys2Proof/Laws/Ops.lean ====
section
/-! SUPPORT. One lemma per shared operation: what it answers, and when. Callers cite these instead of unfolding the
operation. -/

namespace Sys2Proof.Machine

/-- A check followed by another answers a value exactly when both do. -/
theorem bind_eq_ok {α β : Type} {x : Check α} {f : α → Check β} {r : β} :
    (x >>= f) = .ok r ↔ ∃ a, x = .ok a ∧ f a = .ok r := by
  cases x with
  | error c => simp [bind, Except.bind]
  | ok a => simp [bind, Except.bind]

/-- A check followed by another raises a fault exactly when the first does, or the second does after it. -/
theorem bind_eq_error {α β : Type} {x : Check α} {f : α → Check β} {c : FaultCause} :
    (x >>= f) = .error c ↔ x = .error c ∨ ∃ a, x = .ok a ∧ f a = .error c := by
  cases x with
  | error c => simp [bind, Except.bind]
  | ok a => simp [bind, Except.bind]

theorem pure_eq_ok {α : Type} {a b : α} : (pure a : Check α) = .ok b ↔ a = b := by
  simp [pure, Except.pure]

theorem pure_ne_error {α : Type} {a : α} {c : FaultCause} : (pure a : Check α) ≠ .error c := by
  simp [pure, Except.pure]

/-! ## Completing an instruction -/

theorem complete_next {op : Byte} {s t : State} {r : Check State} :
    complete op s r = .next t ↔ r = .ok t ∨ ∃ c, r = .error c ∧ t = takeFault s.pc (some op) c s := by
  cases r with
  | ok u => simp [complete]
  | error c =>
    simp only [complete, Host.Outcome.next.injEq, reduceCtorEq, false_or, Except.error.injEq]
    constructor
    · intro h; exact ⟨c, rfl, h.symm⟩
    · rintro ⟨d, rfl, h⟩; exact h.symm

theorem complete_isNext (op : Byte) (s : State) (r : Check State) : ∃ t, complete op s r = .next t := by
  cases r with
  | ok t => exact ⟨t, rfl⟩
  | error c => exact ⟨_, rfl⟩

/-! ## Words -/

theorem wordOfNat_of_lt {n : Nat} (h : n < 2 ^ 64) : wordOfNat n = BitVec.ofNat 64 n := by
  unfold wordOfNat
  exact if_pos h

theorem wordOfNat_toNat (v : Word) : wordOfNat v.toNat = v := by
  rw [wordOfNat_of_lt v.isLt, BitVec.ofNat_toNat, BitVec.setWidth_eq]

theorem toNat_wordOfNat {n : Nat} (h : n < 2 ^ 64) : (wordOfNat n).toNat = n := by
  rw [wordOfNat_of_lt h, BitVec.toNat_ofNat, Nat.mod_eq_of_lt h]

theorem toNat_zext64 (b : Byte) : (zext64 b).toNat = b.toNat := by
  have := b.isLt
  simp only [zext64, BitVec.toNat_setWidth]
  omega

theorem lowByte_zext64 (b : Byte) : lowByte (zext64 b) = b := by
  apply BitVec.eq_of_toNat_eq
  have := b.isLt
  simp only [lowByte, BitVec.toNat_setWidth, toNat_zext64]
  omega

/-! ## The heap -/

theorem memRead_ok {s : State} {o : Option Nat} {a : Nat} {b : Byte} :
    memRead s o a = .ok b ↔ a < s.config.heapSize ∧ b = s.heap.read a := by
  unfold memRead
  split <;> simp_all [eq_comm]

theorem memReadBytes_ok {s : State} {a n : Nat} {bs : List Byte} :
    memReadBytes s a n = .ok bs ↔ (n = 0 ∨ a + n ≤ s.config.heapSize) ∧ bs = s.heap.readBytes a n := by
  induction n generalizing a bs with
  | zero => simp [memReadBytes, Memory.readBytes, eq_comm]
  | succ n ih =>
    simp only [memReadBytes, bind_eq_ok, pure_eq_ok, memRead_ok, ih, Memory.readBytes]
    constructor
    · rintro ⟨b, ⟨h1, rfl⟩, l, ⟨h2, rfl⟩, rfl⟩
      exact ⟨by omega, rfl⟩
    · rintro ⟨h, rfl⟩
      exact ⟨_, ⟨by omega, rfl⟩, _, ⟨by omega, rfl⟩, rfl⟩

/-- A read that leaves the heap faults at its first address outside it (R62). -/
theorem memReadBytes_error {s : State} {a n : Nat} {c : FaultCause} :
    memReadBytes s a n = .error c ↔
      n ≠ 0 ∧ s.config.heapSize < a + n ∧
        c = { reason := .readOutOfRange, opnd := none, addr := some (wordOfNat (max a s.config.heapSize)) } := by
  induction n generalizing a with
  | zero => simp [memReadBytes]
  | succ n ih =>
    simp only [memReadBytes, bind_eq_error, ih, pure_ne_error]
    unfold memRead
    by_cases h : a < s.config.heapSize
    · have h1 : max (a + 1) s.config.heapSize = s.config.heapSize := by omega
      have h2 : max a s.config.heapSize = s.config.heapSize := by omega
      simp only [h, if_true, reduceCtorEq, false_or, Except.ok.injEq, exists_eq_left', h1, h2, and_false, exists_false,
        or_false]
      constructor
      · rintro ⟨_, h3, rfl⟩; exact ⟨by omega, by omega, rfl⟩
      · rintro ⟨_, h3, rfl⟩; exact ⟨by omega, by omega, rfl⟩
    · have h2 : max a s.config.heapSize = a := by omega
      simp only [h, if_false, Except.error.injEq, reduceCtorEq, false_and, exists_false, or_false, h2]
      constructor
      · rintro rfl; exact ⟨by omega, by omega, rfl⟩
      · rintro ⟨_, _, rfl⟩; rfl

theorem checkLive_ok {s : State} {a : Nat} {u : Unit} : checkLive s a = .ok u ↔ live s.ext a = true := by
  unfold checkLive
  split <;> simp_all

theorem checkLiveBytes_ok {s : State} {a n : Nat} {u : Unit} :
    checkLiveBytes s a n = .ok u ↔ ∀ i, i < n → live s.ext (a + i) = true := by
  induction n generalizing a with
  | zero => simp [checkLiveBytes]
  | succ n ih =>
    simp only [checkLiveBytes, bind_eq_ok, checkLive_ok, ih]
    constructor
    · rintro ⟨_, h0, h⟩ i hi
      cases i with
      | zero => exact h0
      | succ i =>
        have := h i (by omega)
        rwa [Nat.add_assoc, Nat.add_comm 1 i] at this
    · intro h
      refine ⟨(), h 0 (by omega), fun i hi => ?_⟩
      have := h (i + 1) (by omega)
      rwa [Nat.add_comm i 1, ← Nat.add_assoc] at this

/-- The lowest address that is not live is the one reported. -/
theorem checkLiveBytes_error {s : State} {a n : Nat} {c : FaultCause} :
    checkLiveBytes s a n = .error c ↔
      ∃ i, i < n ∧ (∀ j, j < i → live s.ext (a + j) = true) ∧ live s.ext (a + i) = false ∧
        c = { reason := .writeOutsideExtent, opnd := none, addr := some (wordOfNat (a + i)) } := by
  induction n generalizing a with
  | zero => simp [checkLiveBytes]
  | succ n ih =>
    simp only [checkLiveBytes, bind_eq_error, checkLive_ok, ih]
    constructor
    · rintro (h | ⟨_, h0, i, hi, hj, hl, hc⟩)
      · refine ⟨0, by omega, by omega, ?_⟩
        unfold checkLive at h
        split at h <;> simp_all
      · refine ⟨i + 1, by omega, ?_, ?_⟩
        · intro j hj'
          cases j with
          | zero => exact h0
          | succ j =>
            have := hj j (by omega)
            rwa [Nat.add_assoc, Nat.add_comm 1 j] at this
        · rw [Nat.add_comm i 1, ← Nat.add_assoc]
          exact ⟨hl, hc⟩
    · rintro ⟨i, hi, hj, hl, hc⟩
      cases i with
      | zero =>
        left
        simp only [Nat.add_zero] at hl hc
        simp [checkLive, hl, hc]
      | succ i =>
        rw [Nat.add_comm i 1, ← Nat.add_assoc] at hl hc
        refine .inr ⟨(), hj 0 (by omega), i, by omega, fun j hj' => ?_, hl, hc⟩
        have := hj (j + 1) (by omega)
        rwa [Nat.add_comm j 1, ← Nat.add_assoc] at this

theorem heapAlloc_ok {s t : State} {n a : Nat} :
    heapAlloc s n = .ok (t, a) ↔
      n ≠ 0 ∧ firstFit s n = some a ∧ t = s.setExt (insertExtent ⟨a, a + n⟩ s.ext) := by
  unfold heapAlloc
  by_cases h0 : n = 0
  · simp [h0]
  · cases hf : firstFit s n with
    | none => simp [h0]
    | some b =>
      simp only [h0, if_false, Except.ok.injEq, Prod.mk.injEq, Option.some.injEq]
      constructor
      · rintro ⟨rfl, rfl⟩; exact ⟨h0, rfl, rfl⟩
      · rintro ⟨-, rfl, rfl⟩; exact ⟨rfl, rfl⟩

theorem heapFree_ok {s t : State} {a : Nat} :
    heapFree s a = .ok t ↔
      ∃ e, containing s.ext a = some e ∧
        t = (s.setHeap (s.heap.zero e.start e.stop)).setExt (removeExtent e s.ext) := by
  unfold heapFree
  cases containing s.ext a with
  | none => simp
  | some e => simp [eq_comm]

/-- The three ways a REALLOC ends well (R69): a shorter or equal size in place, growth in place, and a move. -/
theorem heapRealloc_ok {s t : State} {a n b : Nat} :
    heapRealloc s a n = .ok (t, b) ↔
      ∃ e, containing s.ext a = some e ∧ n ≠ 0 ∧
        ((n ≤ e.stop - e.start ∧ b = e.start ∧
            t = (s.setHeap (s.heap.zero (e.start + n) e.stop)).setExt
              (insertExtent ⟨e.start, e.start + n⟩ (removeExtent e s.ext))) ∨
          (e.stop - e.start < n ∧ e.start + n ≤ s.config.heapSize ∧ rangeFree s.ext e.stop (e.start + n) = true ∧
            b = e.start ∧ t = s.setExt (insertExtent ⟨e.start, e.start + n⟩ (removeExtent e s.ext))) ∨
          (e.stop - e.start < n ∧
            ¬ (e.start + n ≤ s.config.heapSize ∧ rangeFree s.ext e.stop (e.start + n) = true) ∧
            firstFit s n = some b ∧
            t = (s.setHeap
                  ((s.heap.writeBytes b (s.heap.readBytes e.start (e.stop - e.start))).zero e.start e.stop)).setExt
              (insertExtent ⟨b, b + n⟩ (removeExtent e s.ext)))) := by
  unfold heapRealloc
  cases hc : containing s.ext a with
  | none => simp
  | some e =>
    by_cases h0 : n = 0
    · simp [h0]
    · by_cases hs : n ≤ e.stop - e.start
      · simp only [h0, hs, if_true, if_false, Except.ok.injEq, Prod.mk.injEq, Option.some.injEq]
        constructor
        · rintro ⟨rfl, rfl⟩; exact ⟨e, rfl, h0, .inl ⟨hs, rfl, rfl⟩⟩
        · rintro ⟨e', rfl, -, h⟩
          rcases h with ⟨-, rfl, rfl⟩ | ⟨h, -⟩ | ⟨h, -⟩
          · exact ⟨rfl, rfl⟩
          · omega
          · omega
      · have hlt : e.stop - e.start < n := by omega
        by_cases hg : e.start + n ≤ s.config.heapSize ∧ rangeFree s.ext e.stop (e.start + n) = true
        · simp only [h0, hs, hg.1, hg.2, decide_true, Bool.and_self, if_true, if_false, Except.ok.injEq,
            Prod.mk.injEq, Option.some.injEq]
          constructor
          · rintro ⟨rfl, rfl⟩; exact ⟨e, rfl, h0, .inr (.inl ⟨hlt, hg.1, hg.2, rfl, rfl⟩)⟩
          · rintro ⟨e', rfl, -, h⟩
            rcases h with ⟨h, -⟩ | ⟨-, -, -, rfl, rfl⟩ | ⟨-, h, -⟩
            · omega
            · exact ⟨rfl, rfl⟩
            · exact absurd hg h
        · have hg' : (decide (e.start + n ≤ s.config.heapSize) && rangeFree s.ext e.stop (e.start + n)) = false := by
            rw [Bool.eq_false_iff]
            intro h
            simp only [Bool.and_eq_true, decide_eq_true_eq] at h
            exact hg h
          cases hf : firstFit s n with
          | none =>
            simp only [h0, hs, hg', if_false, Bool.false_eq_true, reduceCtorEq, false_iff]
            rintro ⟨e', he', -, h⟩
            obtain rfl : e = e' := by simpa using he'
            rcases h with ⟨h, -⟩ | ⟨-, h1, h2, -⟩ | ⟨-, -, h, -⟩
            · omega
            · exact hg ⟨h1, h2⟩
            · simp at h
          | some f =>
            simp only [h0, hs, hg', if_false, Bool.false_eq_true, Except.ok.injEq, Prod.mk.injEq, Option.some.injEq]
            constructor
            · rintro ⟨rfl, rfl⟩; exact ⟨e, rfl, h0, .inr (.inr ⟨hlt, hg, rfl, rfl⟩)⟩
            · rintro ⟨e', rfl, -, h⟩
              rcases h with ⟨h, -⟩ | ⟨-, h1, h2, -⟩ | ⟨-, -, rfl, rfl⟩
              · omega
              · exact absurd ⟨h1, h2⟩ hg
              · exact ⟨rfl, rfl⟩

/-! ## The stack -/

theorem stackPush_ok {s t : State} {b : Byte} :
    stackPush s b = .ok t ↔ s.sp ≠ s.config.stackCap ∧ t = s.setStack (s.stack.write s.sp b) (s.sp + 1) := by
  unfold stackPush
  split <;> simp_all [eq_comm]

theorem stackPop_ok {s t : State} {b : Byte} :
    stackPop s = .ok (t, b) ↔ s.sp ≠ 0 ∧ t = s.setStack s.stack (s.sp - 1) ∧ b = s.stack.read (s.sp - 1) := by
  unfold stackPop
  split <;> simp_all [eq_comm]

theorem stackPeek_ok {s : State} {q : Nat} {k : Word} {b : Byte} :
    stackPeek s q k = .ok b ↔ k.toNat < s.sp ∧ b = s.stack.read (s.sp - 1 - k.toNat) := by
  unfold stackPeek
  split <;> simp_all [eq_comm]

theorem stackDup_ok {s t : State} :
    stackDup s = .ok t ↔
      s.sp ≠ 0 ∧ s.sp ≠ s.config.stackCap ∧
        t = s.setStack (s.stack.write s.sp (s.stack.read (s.sp - 1))) (s.sp + 1) := by
  unfold stackDup
  split
  · simp_all
  · split <;> simp_all [eq_comm]

theorem stackSwap_ok {s t : State} :
    stackSwap s = .ok t ↔
      2 ≤ s.sp ∧
        t = s.setStack ((s.stack.write (s.sp - 1) (s.stack.read (s.sp - 2))).write (s.sp - 2)
          (s.stack.read (s.sp - 1))) s.sp := by
  unfold stackSwap
  split
  · rename_i h
    simp only [reduceCtorEq, false_iff]
    omega
  · rename_i h
    simp only [Except.ok.injEq]
    constructor
    · intro h'; exact ⟨by omega, h'.symm⟩
    · rintro ⟨-, h'⟩; exact h'.symm

/-! ## The queues, the jump table and the call stack -/

theorem outAppend_ok {s t : State} {bytes : List Byte} :
    outAppend s bytes = .ok t ↔
      (∀ cap, s.config.outCap = some cap → s.outq.length + bytes.length ≤ cap) ∧ t = s.setOut (s.outq ++ bytes) := by
  unfold outAppend
  cases s.config.outCap with
  | none => simp [eq_comm]
  | some cap =>
    by_cases h : cap < s.outq.length + bytes.length
    · simp [h]
    · simp [h, Nat.not_lt.mp h, eq_comm]

theorem inTake_ok {s t : State} {n : Nat} {bytes : List Byte} :
    inTake s n = .ok (t, bytes) ↔ n ≤ s.inq.length ∧ t = s.setIn (s.inq.drop n) ∧ bytes = s.inq.take n := by
  unfold inTake
  by_cases h : s.inq.length < n
  · simp [h]
  · simp [h, Nat.not_lt.mp h, eq_comm]

theorem atCapacity_eq_false {cap : Option Nat} {n : Nat} : atCapacity cap n = false ↔ cap ≠ some n := by
  simp [atCapacity]

theorem jtAppend_ok {s t : State} {p : Nat} :
    jtAppend s p = .ok t ↔ s.config.jtCap ≠ some s.jt.length ∧ t = s.setJt (s.jt ++ [p]) := by
  unfold jtAppend
  by_cases h : s.config.jtCap = some s.jt.length
  · simp [atCapacity, h]
  · simp [atCapacity, h, eq_comm (a := t)]

theorem csPush_ok {s t : State} {p : Nat} :
    csPush s p = .ok t ↔ s.config.csCap ≠ some s.cs.length ∧ t = s.setCs (s.cs ++ [p]) := by
  unfold csPush
  by_cases h : s.config.csCap = some s.cs.length
  · simp [atCapacity, h]
  · simp [atCapacity, h, eq_comm (a := t)]

theorem csPop_ok {s t : State} {r : Nat} :
    csPop s = .ok (t, r) ↔ s.cs.getLast? = some r ∧ t = s.setCs s.cs.dropLast := by
  unfold csPop
  cases s.cs.getLast? with
  | none => simp
  | some q => simp [eq_comm, and_comm]

/-- The pre-scan's one fault (40_pipeline.md R170). -/
theorem preScan_error {cap : Option Nat} {q p : Nat} {ops : List Operand} {jt : List Nat} {c : FaultCause}
    (h : preScan cap p ops jt = .error (q, c)) : c = ⟨.jumpTableFull, some (q + 1), none⟩ := by
  induction ops generalizing p jt with
  | nil => simp [preScan] at h
  | cons o ops ih =>
    cases ops with
    | nil => simp [preScan] at h
    | cons label rest =>
      rw [preScan] at h
      split at h
      · split at h
        · simp only [Except.error.injEq, Prod.mk.injEq] at h
          obtain ⟨rfl, rfl⟩ := h
          rfl
        · exact ih h
      · exact ih h

/-! ## Operands -/

theorem fetchSlot_ok {s : State} {j : Nat} {slot : Slot} {o : Operand} :
    fetchSlot s j slot = .ok o ↔ slot = some o := by
  cases slot <;> simp [fetchSlot]

theorem registerIndex_ok {s : State} {j : Nat} {p : Word} {d : Fin NREG} :
    registerIndex s j p = .ok d ↔ p.toNat = d.val := by
  unfold registerIndex
  split
  · simp [Fin.ext_iff]
  · rename_i h
    simp only [reduceCtorEq, false_iff]
    intro h'
    exact h (h' ▸ d.isLt)

theorem functionPosition_ok {s : State} {j : Nat} {p : Word} {t : Nat} :
    functionPosition s j p = .ok t ↔ s.jt[p.toNat]? = some t := by
  unfold functionPosition
  cases s.jt[p.toNat]? <;> simp

theorem typed_ok {s : State} {j : Nat} {slot : Slot} {v : Word} :
    typed s j slot = .ok v ↔ ∃ o, slot = some o ∧ resolveOperand s j o = .ok v := by
  simp [typed, bind_eq_ok, fetchSlot_ok]

theorem untyped_ok {s : State} {j : Nat} {slot : Slot} {v : Word} :
    untyped s j slot = .ok v ↔ ∃ o, slot = some o ∧ o.payload = v := by
  simp only [untyped, bind_eq_ok, fetchSlot_ok, pure_eq_ok]

theorem dest_ok {s : State} {j : Nat} {slot : Slot} {d : Fin NREG} :
    dest s j slot = .ok d ↔ ∃ o, slot = some o ∧ o.payload.toNat = d.val := by
  simp [dest, bind_eq_ok, fetchSlot_ok, registerIndex_ok]

theorem funcPos_ok {s : State} {j : Nat} {slot : Slot} {t : Nat} :
    funcPos s j slot = .ok t ↔ ∃ o, slot = some o ∧ s.jt[o.payload.toNat]? = some t := by
  simp [funcPos, bind_eq_ok, fetchSlot_ok, functionPosition_ok]

theorem typedMany_ok {s : State} {j n : Nat} {data : List Operand} {vs : List Word} :
    typedMany s j n data = .ok vs ↔
      vs.length = n ∧ ∀ i, i < n → ∃ v, vs[i]? = some v ∧ typed s (j + i) data[i]? = .ok v := by
  induction data generalizing j n vs with
  | nil =>
    cases n with
    | zero => simp [typedMany, eq_comm (a := [])]
    | succ n =>
      simp only [typedMany, typed, fetchSlot, bind_eq_ok, reduceCtorEq, false_and, exists_false, false_iff]
      rintro ⟨-, h⟩
      obtain ⟨v, -, hv⟩ := h 0 (by omega)
      simp at hv
  | cons o rest ih =>
    cases n with
    | zero => simp [typedMany, eq_comm (a := [])]
    | succ n =>
      simp only [typedMany, bind_eq_ok, pure_eq_ok, ih]
      constructor
      · rintro ⟨v, hv, ws, ⟨hl, hw⟩, rfl⟩
        refine ⟨by simp [hl], fun i hi => ?_⟩
        cases i with
        | zero => exact ⟨v, by simp, by simpa using hv⟩
        | succ i =>
          obtain ⟨w, h1, h2⟩ := hw i (by omega)
          refine ⟨w, by simpa using h1, ?_⟩
          rw [List.getElem?_cons_succ, Nat.add_comm i 1, ← Nat.add_assoc]
          exact h2
      · rintro ⟨hl, h⟩
        cases vs with
        | nil => simp at hl
        | cons v ws =>
          obtain ⟨v', h1, h2⟩ := h 0 (by omega)
          refine ⟨v, ?_, ws, ⟨by simpa using hl, fun i hi => ?_⟩, rfl⟩
          · simp at h1; subst h1; simpa using h2
          · obtain ⟨w, h3, h4⟩ := h (i + 1) (by omega)
            refine ⟨w, by simpa using h3, ?_⟩
            rw [List.getElem?_cons_succ, Nat.add_comm i 1, ← Nat.add_assoc] at h4
            exact h4

/-- The first of STORE's values that does not resolve decides the fault (44_heap_transfer.md R231). -/
theorem typedMany_error {s : State} {j n i : Nat} {data : List Operand} {c : FaultCause} (hi : i < n)
    (hb : ∀ k, k < i → ∃ v, typed s (j + k) data[k]? = .ok v) (he : typed s (j + i) data[i]? = .error c) :
    typedMany s j n data = .error c := by
  induction data generalizing j n i with
  | nil =>
    cases n with
    | zero => omega
    | succ n =>
      cases i with
      | zero => exact bind_eq_error.mpr (.inl (by simpa using he))
      | succ i =>
        obtain ⟨v, hv⟩ := hb 0 (by omega)
        simp [typed_ok] at hv
  | cons o rest ih =>
    cases n with
    | zero => omega
    | succ n =>
      cases i with
      | zero => exact bind_eq_error.mpr (.inl (by simpa using he))
      | succ i =>
        obtain ⟨v, hv⟩ := hb 0 (by omega)
        refine bind_eq_error.mpr (.inr ⟨v, by simpa using hv, bind_eq_error.mpr (.inl ?_)⟩)
        refine ih (i := i) (by omega) (fun k hk => ?_) ?_
        · have := hb (k + 1) (by omega)
          rwa [List.getElem?_cons_succ, Nat.add_comm k 1, ← Nat.add_assoc] at this
        · rwa [List.getElem?_cons_succ, Nat.add_comm i 1, ← Nat.add_assoc] at he

/-! ## The fault of an operand that is there -/

theorem registerIndex_error {s : State} {j : Nat} {p : Word} {c : FaultCause}
    (h : registerIndex s j p = .error c) : c = ⟨.badRegister, some (s.pc + j), some p⟩ := by
  unfold registerIndex at h
  split at h
  · cases h
  · exact (Except.error.inj h).symm

theorem functionPosition_error {s : State} {j : Nat} {p : Word} {c : FaultCause}
    (h : functionPosition s j p = .error c) : c = ⟨.badFunctionIndex, some (s.pc + j), some p⟩ := by
  unfold functionPosition at h
  split at h
  · cases h
  · exact (Except.error.inj h).symm

/-- A fault of the tag router names the operand's position, and is not `Truncated` (40_pipeline.md R151). -/
theorem typed_some_error {s : State} {j : Nat} {o : Operand} {c : FaultCause}
    (h : typed s j (some o) = .error c) : c.opnd = some (s.pc + j) ∧ c.reason ≠ .truncated := by
  replace h : resolveOperand s j o = .error c := h
  unfold resolveOperand at h
  split at h <;> (try (cases h; done))
  · obtain h | ⟨d, hd, h⟩ := bind_eq_error.mp h
    · rw [registerIndex_error h]
      exact ⟨rfl, by simp⟩
    · exact absurd h pure_ne_error
  · obtain h | ⟨d, hd, h⟩ := bind_eq_error.mp h
    · unfold stackPeek at h
      split at h
      · cases h
      · rw [← Except.error.inj h]
        exact ⟨rfl, by simp⟩
    · exact absurd h pure_ne_error
  · obtain h | ⟨d, hd, h⟩ := bind_eq_error.mp h
    · rw [registerIndex_error h]
      exact ⟨rfl, by simp⟩
    · obtain h | ⟨b, hb, h⟩ := bind_eq_error.mp h
      · unfold memRead at h
        split at h
        · cases h
        · rw [← Except.error.inj h]
          exact ⟨rfl, by simp⟩
      · exact absurd h pure_ne_error
  · obtain h | ⟨d, hd, h⟩ := bind_eq_error.mp h
    · rw [functionPosition_error h]
      exact ⟨rfl, by simp⟩
    · exact absurd h pure_ne_error
  · rw [← Except.error.inj h]
    exact ⟨rfl, by simp⟩

theorem dest_some_error {s : State} {j : Nat} {o : Operand} {c : FaultCause}
    (h : dest s j (some o) = .error c) : c.opnd = some (s.pc + j) ∧ c.reason ≠ .truncated := by
  rw [registerIndex_error (show registerIndex s j o.payload = .error c from h)]
  exact ⟨rfl, by simp⟩

end Sys2Proof.Machine
end

