-- ==== Sys2Proof/Laws/Exec.lean ====
section
/-! SUPPORT. What each instruction does when it raises no fault, said once as a relation between the state before and the
state after, and the inversion of `exec`: an instruction answers a next state, and that state is its effect or the fault
it took. The whole-machine claims are proved from these, not by unfolding the meanings. -/

namespace Sys2Proof.Machine

/-- The effect of INC and DEC: on a register, or on a live heap byte (45_move_alloc.md R251, R252). -/
def Bumped (onReg : Word → Word) (onByte : Byte → Byte) (slot : Slot) (s t : State) : Prop :=
  ∃ o, slot = some o ∧
    ((o.tag = .reg ∧ ∃ i, registerIndex s 1 o.payload = .ok i ∧ t = (s.setReg i (onReg (s.reg i))).advance 2) ∨
      (o.tag ≠ .reg ∧ ∃ x, resolveOperand s 1 o = .ok x ∧ live s.ext x.toNat = true ∧
        t = (s.setHeap (s.heap.write x.toNat (onByte (s.heap.read x.toNat)))).advance 2))

/-- The effect of an instruction that raises no fault. -/
def Effect (i : Instr) (s t : State) : Prop :=
  match i with
  | .nop =>
      t = s.advance 1
  | .add l r =>
      ∃ x y, typed s 1 l = .ok x ∧ typed s 2 r = .ok y ∧ t = (s.setAcc (x + y)).advance 3
  | .sub l r =>
      ∃ x y, typed s 1 l = .ok x ∧ typed s 2 r = .ok y ∧ t = (s.setAcc (x - y)).advance 3
  | .mul l r =>
      ∃ x y, typed s 1 l = .ok x ∧ typed s 2 r = .ok y ∧ t = (s.setAcc (x * y)).advance 3
  | .div l r =>
      ∃ x y, typed s 1 l = .ok x ∧ typed s 2 r = .ok y ∧ y ≠ 0 ∧ t = (s.setAcc (x / y)).advance 3
  | .mod l r =>
      ∃ x y, typed s 1 l = .ok x ∧ typed s 2 r = .ok y ∧ y ≠ 0 ∧ t = (s.setAcc (x % y)).advance 3
  | .and l r =>
      ∃ x y, typed s 1 l = .ok x ∧ typed s 2 r = .ok y ∧ t = (s.setAcc (x &&& y)).advance 3
  | .or l r =>
      ∃ x y, typed s 1 l = .ok x ∧ typed s 2 r = .ok y ∧ t = (s.setAcc (x ||| y)).advance 3
  | .xor l r =>
      ∃ x y, typed s 1 l = .ok x ∧ typed s 2 r = .ok y ∧ t = (s.setAcc (x ^^^ y)).advance 3
  | .not d =>
      ∃ i, dest s 1 d = .ok i ∧ t = (s.setReg i (~~~ s.reg i)).advance 2
  | .eq l r =>
      ∃ x y, typed s 1 l = .ok x ∧ typed s 2 r = .ok y ∧ t = (s.setAcc (truthWord (x == y))).advance 3
  | .neq l r =>
      ∃ x y, typed s 1 l = .ok x ∧ typed s 2 r = .ok y ∧ t = (s.setAcc (truthWord (x != y))).advance 3
  | .lt l r =>
      ∃ x y, typed s 1 l = .ok x ∧ typed s 2 r = .ok y ∧ t = (s.setAcc (truthWord (x.ult y))).advance 3
  | .gt l r =>
      ∃ x y, typed s 1 l = .ok x ∧ typed s 2 r = .ok y ∧ t = (s.setAcc (truthWord (y.ult x))).advance 3
  | .push v =>
      ∃ x u, typed s 1 v = .ok x ∧ stackPush s (lowByte x) = .ok u ∧ t = u.advance 2
  | .pop d =>
      ∃ i u b, dest s 1 d = .ok i ∧ stackPop s = .ok (u, b) ∧ t = (u.setReg i (zext64 b)).advance 2
  | .dup =>
      ∃ u, stackDup s = .ok u ∧ t = u.advance 1
  | .swap =>
      ∃ u, stackSwap s = .ok u ∧ t = u.advance 1
  | .jmp w =>
      ∃ x, typed s 1 w = .ok x ∧ t = s.jumpTo x.toNat
  | .jz f =>
      ∃ p, funcPos s 1 f = .ok p ∧ t = if accIsZero s then s.jumpTo p else s.advance 2
  | .jnz f =>
      ∃ p, funcPos s 1 f = .ok p ∧ t = if !accIsZero s then s.jumpTo p else s.advance 2
  | .load d a =>
      ∃ i x b, dest s 1 d = .ok i ∧ typed s 2 a = .ok x ∧ memRead s none x.toNat = .ok b ∧
      t = (s.setReg i (zext64 b)).advance 3
  | .store a n data =>
      ∃ x k vs, typed s 1 a = .ok x ∧ typed s 2 n = .ok k ∧ typedMany s 3 k.toNat data = .ok vs ∧
      checkLiveBytes s x.toNat k.toNat = .ok () ∧
      t = (s.setHeap (s.heap.writeBytes x.toNat (vs.map lowByte))).advance (3 + k.toNat)
  | .write a n =>
      ∃ x k bytes u, typed s 1 a = .ok x ∧ typed s 2 n = .ok k ∧ memReadBytes s x.toNat k.toNat = .ok bytes ∧
      outAppend s bytes = .ok u ∧ t = u.advance 3
  | .read a n =>
      ∃ x k u bytes, typed s 1 a = .ok x ∧ typed s 2 n = .ok k ∧ checkLiveBytes s x.toNat k.toNat = .ok () ∧
      inTake s k.toNat = .ok (u, bytes) ∧ t = (u.setHeap (s.heap.writeBytes x.toNat bytes)).advance 3
  | .flush =>
      t = ((s.deviceOut s.outq).setOut []).advance 1
  | .mov d v =>
      ∃ i x, dest s 1 d = .ok i ∧ typed s 2 v = .ok x ∧ t = (s.setReg i x).advance 3
  | .inc o =>
      Bumped (fun v => v + 1) (fun b => b + 1) o s t
  | .dec o =>
      Bumped (fun v => v - 1) (fun b => b - 1) o s t
  | .alloc d n =>
      ∃ i k u a, dest s 1 d = .ok i ∧ typed s 2 n = .ok k ∧ heapAlloc s k.toNat = .ok (u, a) ∧
      t = (u.setReg i (wordOfNat a)).advance 3
  | .free a =>
      ∃ x u, typed s 1 a = .ok x ∧ heapFree s x.toNat = .ok u ∧ t = u.advance 2
  | .realloc d n =>
      ∃ i k u a, dest s 1 d = .ok i ∧ typed s 2 n = .ok k ∧ heapRealloc s (s.reg i).toNat k.toNat = .ok (u, a) ∧
      t = (u.setReg i (wordOfNat a)).advance 3
  | .func label =>
      ∃ v u, untyped s 1 label = .ok v ∧ jtAppend s (s.pc + 2) = .ok u ∧ t = u.advance 2
  | .call f =>
      ∃ p u, funcPos s 1 f = .ok p ∧ csPush s (s.pc + 2) = .ok u ∧ t = u.jumpTo p
  | .ret =>
      ∃ u p, csPop s = .ok (u, p) ∧ t = u.jumpTo p
  | .wracc v =>
      ∃ x, typed s 1 v = .ok x ∧ t = (s.setAcc x).advance 2
  | .reacc d =>
      ∃ i, dest s 1 d = .ok i ∧ t = (s.setReg i s.acc).advance 2

theorem binaryOp_next {op : Byte} {f : Word → Word → Check Word} {l r : Slot} {s t : State} :
    binaryOp op f l r s = .next t ↔
      (∃ x y v, typed s 1 l = .ok x ∧ typed s 2 r = .ok y ∧ f x y = .ok v ∧ t = (s.setAcc v).advance 3) ∨
        ∃ c, (typed s 1 l = .error c ∨
            (∃ x, typed s 1 l = .ok x ∧ typed s 2 r = .error c) ∨
            ∃ x y, typed s 1 l = .ok x ∧ typed s 2 r = .ok y ∧ f x y = .error c) ∧
          t = takeFault s.pc (some op) c s := by
  simp only [binaryOp, complete_next, bind_eq_ok, bind_eq_error, pure_eq_ok, pure_ne_error]
  constructor
  · rintro (⟨x, hx, y, hy, v, hv, rfl⟩ | ⟨c, hc, rfl⟩)
    · exact .inl ⟨x, y, v, hx, hy, hv, rfl⟩
    · refine .inr ⟨c, ?_, rfl⟩
      rcases hc with hc | ⟨x, hx, hc | ⟨y, hy, hc | ⟨v, -, hc⟩⟩⟩
      · exact .inl hc
      · exact .inr (.inl ⟨x, hx, hc⟩)
      · exact .inr (.inr ⟨x, y, hx, hy, hc⟩)
      · exact hc.elim
  · rintro (⟨x, y, v, hx, hy, hv, rfl⟩ | ⟨c, hc, rfl⟩)
    · exact .inl ⟨x, hx, y, hy, v, hv, rfl⟩
    · refine .inr ⟨c, ?_, rfl⟩
      rcases hc with hc | ⟨x, hx, hc⟩ | ⟨x, y, hx, hy, hc⟩
      · exact .inl hc
      · exact .inr ⟨x, hx, .inl hc⟩
      · exact .inr ⟨x, hx, .inr ⟨y, hy, .inl hc⟩⟩

theorem nonzeroDivisor_ok {s : State} {why : FaultReason} {y : Word} {u : Unit} :
    nonzeroDivisor s why y = .ok u ↔ y ≠ 0 := by
  unfold nonzeroDivisor
  split <;> simp_all

theorem bump_next {op : Byte} {f : Word → Word} {g : Byte → Byte} {slot : Slot} {s t : State} :
    bump op f g slot s = .next t ↔
      Bumped f g slot s t ∨
        ∃ c, (fetchSlot s 1 slot = .error c ∨
            ∃ o, slot = some o ∧
              ((o.tag = .reg ∧ registerIndex s 1 o.payload = .error c) ∨
                (o.tag ≠ .reg ∧ (resolveOperand s 1 o = .error c ∨
                  ∃ x, resolveOperand s 1 o = .ok x ∧ checkLive s x.toNat = .error c)))) ∧
          t = takeFault s.pc (some op) c s := by
  cases slot with
  | none => simp [bump, complete_next, bind_eq_ok, bind_eq_error, fetchSlot, Bumped]
  | some o =>
    by_cases ht : o.tag = .reg
    · simp only [bump, complete_next, bind_eq_ok, bind_eq_error, fetchSlot, Bumped, isRegisterForm, ht, beq_self_eq_true,
        if_true, Except.ok.injEq, Option.some.injEq, exists_eq_left', pure_eq_ok, pure_ne_error, reduceCtorEq, false_or,
        true_and, ne_eq, not_true, false_and, or_false, and_false, exists_false, eq_comm (b := t)]
    · simp only [bump, complete_next, bind_eq_ok, bind_eq_error, fetchSlot, Bumped, isRegisterForm, ht, beq_iff_eq,
        if_false, Except.ok.injEq, Option.some.injEq, exists_eq_left', pure_eq_ok, pure_ne_error, reduceCtorEq, false_or,
        true_and, ne_eq, not_false_eq_true, false_and, or_false, and_false, exists_false, eq_comm (b := t), checkLive_ok]
      simp

/-! ## One inversion lemma per instruction -/

/-- `exec` of an instruction answered `t`: by its effect, or by taking a fault at its own position. -/
abbrev EffectOrFault (i : Instr) (s t : State) : Prop :=
  Effect i s t ∨ ∃ c, t = takeFault s.pc (some (opcodeCode i.opcode)) c s

theorem execNop_cases {s t : State} (h : execNop s = .next t) :
    EffectOrFault .nop s t := by
  exact .inl (Host.Outcome.next.inj h).symm

theorem execAdd_cases {s t : State} {l r : Slot} (h : execAdd l r s = .next t) :
    EffectOrFault (.add l r) s t := by
  rcases binaryOp_next.mp h with ⟨x, y, v, hx, hy, hv, rfl⟩ | ⟨c, -, h⟩
  · cases hv
    exact .inl ⟨x, y, hx, hy, rfl⟩
  · exact .inr ⟨c, h⟩

theorem execSub_cases {s t : State} {l r : Slot} (h : execSub l r s = .next t) :
    EffectOrFault (.sub l r) s t := by
  rcases binaryOp_next.mp h with ⟨x, y, v, hx, hy, hv, rfl⟩ | ⟨c, -, h⟩
  · cases hv
    exact .inl ⟨x, y, hx, hy, rfl⟩
  · exact .inr ⟨c, h⟩

theorem execMul_cases {s t : State} {l r : Slot} (h : execMul l r s = .next t) :
    EffectOrFault (.mul l r) s t := by
  rcases binaryOp_next.mp h with ⟨x, y, v, hx, hy, hv, rfl⟩ | ⟨c, -, h⟩
  · cases hv
    exact .inl ⟨x, y, hx, hy, rfl⟩
  · exact .inr ⟨c, h⟩

theorem execDiv_cases {s t : State} {l r : Slot} (h : execDiv l r s = .next t) :
    EffectOrFault (.div l r) s t := by
  rcases binaryOp_next.mp h with ⟨x, y, v, hx, hy, hv, rfl⟩ | ⟨c, -, h⟩
  · simp only [bind_eq_ok, pure_eq_ok, nonzeroDivisor_ok] at hv
    obtain ⟨_, hy0, rfl⟩ := hv
    exact .inl ⟨x, y, hx, hy, hy0, rfl⟩
  · exact .inr ⟨c, h⟩

theorem execMod_cases {s t : State} {l r : Slot} (h : execMod l r s = .next t) :
    EffectOrFault (.mod l r) s t := by
  rcases binaryOp_next.mp h with ⟨x, y, v, hx, hy, hv, rfl⟩ | ⟨c, -, h⟩
  · simp only [bind_eq_ok, pure_eq_ok, nonzeroDivisor_ok] at hv
    obtain ⟨_, hy0, rfl⟩ := hv
    exact .inl ⟨x, y, hx, hy, hy0, rfl⟩
  · exact .inr ⟨c, h⟩

theorem execAnd_cases {s t : State} {l r : Slot} (h : execAnd l r s = .next t) :
    EffectOrFault (.and l r) s t := by
  rcases binaryOp_next.mp h with ⟨x, y, v, hx, hy, hv, rfl⟩ | ⟨c, -, h⟩
  · cases hv
    exact .inl ⟨x, y, hx, hy, rfl⟩
  · exact .inr ⟨c, h⟩

theorem execOr_cases {s t : State} {l r : Slot} (h : execOr l r s = .next t) :
    EffectOrFault (.or l r) s t := by
  rcases binaryOp_next.mp h with ⟨x, y, v, hx, hy, hv, rfl⟩ | ⟨c, -, h⟩
  · cases hv
    exact .inl ⟨x, y, hx, hy, rfl⟩
  · exact .inr ⟨c, h⟩

theorem execXor_cases {s t : State} {l r : Slot} (h : execXor l r s = .next t) :
    EffectOrFault (.xor l r) s t := by
  rcases binaryOp_next.mp h with ⟨x, y, v, hx, hy, hv, rfl⟩ | ⟨c, -, h⟩
  · cases hv
    exact .inl ⟨x, y, hx, hy, rfl⟩
  · exact .inr ⟨c, h⟩

theorem execNot_cases {s t : State} {d : Slot} (h : execNot d s = .next t) :
    EffectOrFault (.not d) s t := by
  simp only [execNot, complete_next, bind_eq_ok, pure_eq_ok] at h
  rcases h with h | ⟨c, -, h⟩
  · obtain ⟨i, hi, rfl⟩ := h
    exact .inl ⟨i, hi, rfl⟩
  · exact .inr ⟨c, h⟩

theorem execEq_cases {s t : State} {l r : Slot} (h : execEq l r s = .next t) :
    EffectOrFault (.eq l r) s t := by
  rcases binaryOp_next.mp h with ⟨x, y, v, hx, hy, hv, rfl⟩ | ⟨c, -, h⟩
  · cases hv
    exact .inl ⟨x, y, hx, hy, rfl⟩
  · exact .inr ⟨c, h⟩

theorem execNeq_cases {s t : State} {l r : Slot} (h : execNeq l r s = .next t) :
    EffectOrFault (.neq l r) s t := by
  rcases binaryOp_next.mp h with ⟨x, y, v, hx, hy, hv, rfl⟩ | ⟨c, -, h⟩
  · cases hv
    exact .inl ⟨x, y, hx, hy, rfl⟩
  · exact .inr ⟨c, h⟩

theorem execLt_cases {s t : State} {l r : Slot} (h : execLt l r s = .next t) :
    EffectOrFault (.lt l r) s t := by
  rcases binaryOp_next.mp h with ⟨x, y, v, hx, hy, hv, rfl⟩ | ⟨c, -, h⟩
  · cases hv
    exact .inl ⟨x, y, hx, hy, rfl⟩
  · exact .inr ⟨c, h⟩

theorem execGt_cases {s t : State} {l r : Slot} (h : execGt l r s = .next t) :
    EffectOrFault (.gt l r) s t := by
  rcases binaryOp_next.mp h with ⟨x, y, v, hx, hy, hv, rfl⟩ | ⟨c, -, h⟩
  · cases hv
    exact .inl ⟨x, y, hx, hy, rfl⟩
  · exact .inr ⟨c, h⟩

theorem execPush_cases {s t : State} {v : Slot} (h : execPush v s = .next t) :
    EffectOrFault (.push v) s t := by
  simp only [execPush, complete_next, bind_eq_ok, pure_eq_ok] at h
  rcases h with h | ⟨c, -, h⟩
  · obtain ⟨x, hx, u, hu, rfl⟩ := h
    exact .inl ⟨x, u, hx, hu, rfl⟩
  · exact .inr ⟨c, h⟩

theorem execPop_cases {s t : State} {d : Slot} (h : execPop d s = .next t) :
    EffectOrFault (.pop d) s t := by
  simp only [execPop, complete_next, bind_eq_ok, pure_eq_ok, Prod.exists] at h
  rcases h with h | ⟨c, -, h⟩
  · obtain ⟨i, hi, u, b, hu, rfl⟩ := h
    exact .inl ⟨i, u, b, hi, hu, rfl⟩
  · exact .inr ⟨c, h⟩

theorem execDup_cases {s t : State} (h : execDup s = .next t) :
    EffectOrFault .dup s t := by
  simp only [execDup, complete_next, bind_eq_ok, pure_eq_ok] at h
  rcases h with h | ⟨c, -, h⟩
  · obtain ⟨u, hu, rfl⟩ := h
    exact .inl ⟨u, hu, rfl⟩
  · exact .inr ⟨c, h⟩

theorem execSwap_cases {s t : State} (h : execSwap s = .next t) :
    EffectOrFault .swap s t := by
  simp only [execSwap, complete_next, bind_eq_ok, pure_eq_ok] at h
  rcases h with h | ⟨c, -, h⟩
  · obtain ⟨u, hu, rfl⟩ := h
    exact .inl ⟨u, hu, rfl⟩
  · exact .inr ⟨c, h⟩

theorem execJmp_cases {s t : State} {w : Slot} (h : execJmp w s = .next t) :
    EffectOrFault (.jmp w) s t := by
  simp only [execJmp, complete_next, bind_eq_ok, pure_eq_ok] at h
  rcases h with h | ⟨c, -, h⟩
  · obtain ⟨x, hx, rfl⟩ := h
    exact .inl ⟨x, hx, rfl⟩
  · exact .inr ⟨c, h⟩

theorem execJz_cases {s t : State} {f : Slot} (h : execJz f s = .next t) :
    EffectOrFault (.jz f) s t := by
  simp only [execJz, conditionalJump, complete_next, bind_eq_ok, pure_eq_ok] at h
  rcases h with h | ⟨c, -, h⟩
  · obtain ⟨p, hp, rfl⟩ := h
    exact .inl ⟨p, hp, rfl⟩
  · exact .inr ⟨c, h⟩

theorem execJnz_cases {s t : State} {f : Slot} (h : execJnz f s = .next t) :
    EffectOrFault (.jnz f) s t := by
  simp only [execJnz, conditionalJump, complete_next, bind_eq_ok, pure_eq_ok] at h
  rcases h with h | ⟨c, -, h⟩
  · obtain ⟨p, hp, rfl⟩ := h
    exact .inl ⟨p, hp, rfl⟩
  · exact .inr ⟨c, h⟩

theorem execLoad_cases {s t : State} {d a : Slot} (h : execLoad d a s = .next t) :
    EffectOrFault (.load d a) s t := by
  simp only [execLoad, complete_next, bind_eq_ok, pure_eq_ok] at h
  rcases h with h | ⟨c, -, h⟩
  · obtain ⟨i, hi, x, hx, b, hb, rfl⟩ := h
    exact .inl ⟨i, x, b, hi, hx, hb, rfl⟩
  · exact .inr ⟨c, h⟩

theorem execStore_cases {s t : State} {a n : Slot} {data : List Operand} (h : execStore a n data s = .next t) :
    EffectOrFault (.store a n data) s t := by
  simp only [execStore, complete_next, bind_eq_ok, pure_eq_ok] at h
  rcases h with h | ⟨c, -, h⟩
  · obtain ⟨x, hx, k, hk, vs, hv, _, hc, rfl⟩ := h
    exact .inl ⟨x, k, vs, hx, hk, hv, hc, rfl⟩
  · exact .inr ⟨c, h⟩

theorem execWrite_cases {s t : State} {a n : Slot} (h : execWrite a n s = .next t) :
    EffectOrFault (.write a n) s t := by
  simp only [execWrite, complete_next, bind_eq_ok, pure_eq_ok] at h
  rcases h with h | ⟨c, -, h⟩
  · obtain ⟨x, hx, k, hk, bs, hb, u, hu, rfl⟩ := h
    exact .inl ⟨x, k, bs, u, hx, hk, hb, hu, rfl⟩
  · exact .inr ⟨c, h⟩

theorem execRead_cases {s t : State} {a n : Slot} (h : execRead a n s = .next t) :
    EffectOrFault (.read a n) s t := by
  simp only [execRead, complete_next, bind_eq_ok, pure_eq_ok, Prod.exists] at h
  rcases h with h | ⟨c, -, h⟩
  · obtain ⟨x, hx, k, hk, _, hc, u, bs, hu, rfl⟩ := h
    exact .inl ⟨x, k, u, bs, hx, hk, hc, hu, rfl⟩
  · exact .inr ⟨c, h⟩

theorem execFlush_cases {s t : State} (h : execFlush s = .next t) :
    EffectOrFault .flush s t := by
  exact .inl (Host.Outcome.next.inj h).symm

theorem execMov_cases {s t : State} {d v : Slot} (h : execMov d v s = .next t) :
    EffectOrFault (.mov d v) s t := by
  simp only [execMov, complete_next, bind_eq_ok, pure_eq_ok] at h
  rcases h with h | ⟨c, -, h⟩
  · obtain ⟨i, hi, x, hx, rfl⟩ := h
    exact .inl ⟨i, x, hi, hx, rfl⟩
  · exact .inr ⟨c, h⟩

theorem execInc_cases {s t : State} {o : Slot} (h : execInc o s = .next t) :
    EffectOrFault (.inc o) s t := by
  rcases bump_next.mp h with h | ⟨c, -, h⟩
  · exact .inl h
  · exact .inr ⟨c, h⟩

theorem execDec_cases {s t : State} {o : Slot} (h : execDec o s = .next t) :
    EffectOrFault (.dec o) s t := by
  rcases bump_next.mp h with h | ⟨c, -, h⟩
  · exact .inl h
  · exact .inr ⟨c, h⟩

theorem execAlloc_cases {s t : State} {d n : Slot} (h : execAlloc d n s = .next t) :
    EffectOrFault (.alloc d n) s t := by
  simp only [execAlloc, complete_next, bind_eq_ok, pure_eq_ok, Prod.exists] at h
  rcases h with h | ⟨c, -, h⟩
  · obtain ⟨i, hi, k, hk, u, a, hu, rfl⟩ := h
    exact .inl ⟨i, k, u, a, hi, hk, hu, rfl⟩
  · exact .inr ⟨c, h⟩

theorem execFree_cases {s t : State} {a : Slot} (h : execFree a s = .next t) :
    EffectOrFault (.free a) s t := by
  simp only [execFree, complete_next, bind_eq_ok, pure_eq_ok] at h
  rcases h with h | ⟨c, -, h⟩
  · obtain ⟨x, hx, u, hu, rfl⟩ := h
    exact .inl ⟨x, u, hx, hu, rfl⟩
  · exact .inr ⟨c, h⟩

theorem execRealloc_cases {s t : State} {d n : Slot} (h : execRealloc d n s = .next t) :
    EffectOrFault (.realloc d n) s t := by
  simp only [execRealloc, complete_next, bind_eq_ok, pure_eq_ok, Prod.exists] at h
  rcases h with h | ⟨c, -, h⟩
  · obtain ⟨i, hi, k, hk, u, a, hu, rfl⟩ := h
    exact .inl ⟨i, k, u, a, hi, hk, hu, rfl⟩
  · exact .inr ⟨c, h⟩

theorem execFunc_cases {s t : State} {label : Slot} (h : execFunc label s = .next t) :
    EffectOrFault (.func label) s t := by
  simp only [execFunc, complete_next, bind_eq_ok, pure_eq_ok] at h
  rcases h with h | ⟨c, -, h⟩
  · obtain ⟨v, hv, u, hu, rfl⟩ := h
    exact .inl ⟨v, u, hv, hu, rfl⟩
  · exact .inr ⟨c, h⟩

theorem execCall_cases {s t : State} {f : Slot} (h : execCall f s = .next t) :
    EffectOrFault (.call f) s t := by
  simp only [execCall, complete_next, bind_eq_ok, pure_eq_ok] at h
  rcases h with h | ⟨c, -, h⟩
  · obtain ⟨p, hp, u, hu, rfl⟩ := h
    exact .inl ⟨p, u, hp, hu, rfl⟩
  · exact .inr ⟨c, h⟩

theorem execRet_cases {s t : State} (h : execRet s = .next t) :
    EffectOrFault .ret s t := by
  simp only [execRet, complete_next, bind_eq_ok, pure_eq_ok, Prod.exists] at h
  rcases h with h | ⟨c, -, h⟩
  · obtain ⟨u, p, hu, rfl⟩ := h
    exact .inl ⟨u, p, hu, rfl⟩
  · exact .inr ⟨c, h⟩

theorem execWracc_cases {s t : State} {v : Slot} (h : execWracc v s = .next t) :
    EffectOrFault (.wracc v) s t := by
  simp only [execWracc, complete_next, bind_eq_ok, pure_eq_ok] at h
  rcases h with h | ⟨c, -, h⟩
  · obtain ⟨x, hx, rfl⟩ := h
    exact .inl ⟨x, hx, rfl⟩
  · exact .inr ⟨c, h⟩

theorem execReacc_cases {s t : State} {d : Slot} (h : execReacc d s = .next t) :
    EffectOrFault (.reacc d) s t := by
  simp only [execReacc, complete_next, bind_eq_ok, pure_eq_ok] at h
  rcases h with h | ⟨c, -, h⟩
  · obtain ⟨i, hi, rfl⟩ := h
    exact .inl ⟨i, hi, rfl⟩
  · exact .inr ⟨c, h⟩

theorem execNop_of_effect {s t : State} (h : Effect .nop s t) :
    execNop s = .next t := by
  obtain rfl := h
  rfl

theorem execAdd_of_effect {s t : State} {l r : Slot} (h : Effect (.add l r) s t) :
    execAdd l r s = .next t := by
  obtain ⟨x, y, hx, hy, rfl⟩ := h
  exact binaryOp_next.mpr (.inl ⟨x, y, _, hx, hy, rfl, rfl⟩)

theorem execSub_of_effect {s t : State} {l r : Slot} (h : Effect (.sub l r) s t) :
    execSub l r s = .next t := by
  obtain ⟨x, y, hx, hy, rfl⟩ := h
  exact binaryOp_next.mpr (.inl ⟨x, y, _, hx, hy, rfl, rfl⟩)

theorem execMul_of_effect {s t : State} {l r : Slot} (h : Effect (.mul l r) s t) :
    execMul l r s = .next t := by
  obtain ⟨x, y, hx, hy, rfl⟩ := h
  exact binaryOp_next.mpr (.inl ⟨x, y, _, hx, hy, rfl, rfl⟩)

theorem execDiv_of_effect {s t : State} {l r : Slot} (h : Effect (.div l r) s t) :
    execDiv l r s = .next t := by
  obtain ⟨x, y, hx, hy, hy0, rfl⟩ := h
  refine binaryOp_next.mpr (.inl ⟨x, y, _, hx, hy, ?_, rfl⟩)
  exact bind_eq_ok.mpr ⟨(), nonzeroDivisor_ok.mpr hy0, rfl⟩

theorem execMod_of_effect {s t : State} {l r : Slot} (h : Effect (.mod l r) s t) :
    execMod l r s = .next t := by
  obtain ⟨x, y, hx, hy, hy0, rfl⟩ := h
  refine binaryOp_next.mpr (.inl ⟨x, y, _, hx, hy, ?_, rfl⟩)
  exact bind_eq_ok.mpr ⟨(), nonzeroDivisor_ok.mpr hy0, rfl⟩

theorem execAnd_of_effect {s t : State} {l r : Slot} (h : Effect (.and l r) s t) :
    execAnd l r s = .next t := by
  obtain ⟨x, y, hx, hy, rfl⟩ := h
  exact binaryOp_next.mpr (.inl ⟨x, y, _, hx, hy, rfl, rfl⟩)

theorem execOr_of_effect {s t : State} {l r : Slot} (h : Effect (.or l r) s t) :
    execOr l r s = .next t := by
  obtain ⟨x, y, hx, hy, rfl⟩ := h
  exact binaryOp_next.mpr (.inl ⟨x, y, _, hx, hy, rfl, rfl⟩)

theorem execXor_of_effect {s t : State} {l r : Slot} (h : Effect (.xor l r) s t) :
    execXor l r s = .next t := by
  obtain ⟨x, y, hx, hy, rfl⟩ := h
  exact binaryOp_next.mpr (.inl ⟨x, y, _, hx, hy, rfl, rfl⟩)

theorem execNot_of_effect {s t : State} {d : Slot} (h : Effect (.not d) s t) :
    execNot d s = .next t := by
  obtain ⟨i, hi, rfl⟩ := h
  simp only [execNot, complete_next, bind_eq_ok, pure_eq_ok]
  exact .inl ⟨i, hi, rfl⟩

theorem execEq_of_effect {s t : State} {l r : Slot} (h : Effect (.eq l r) s t) :
    execEq l r s = .next t := by
  obtain ⟨x, y, hx, hy, rfl⟩ := h
  exact binaryOp_next.mpr (.inl ⟨x, y, _, hx, hy, rfl, rfl⟩)

theorem execNeq_of_effect {s t : State} {l r : Slot} (h : Effect (.neq l r) s t) :
    execNeq l r s = .next t := by
  obtain ⟨x, y, hx, hy, rfl⟩ := h
  exact binaryOp_next.mpr (.inl ⟨x, y, _, hx, hy, rfl, rfl⟩)

theorem execLt_of_effect {s t : State} {l r : Slot} (h : Effect (.lt l r) s t) :
    execLt l r s = .next t := by
  obtain ⟨x, y, hx, hy, rfl⟩ := h
  exact binaryOp_next.mpr (.inl ⟨x, y, _, hx, hy, rfl, rfl⟩)

theorem execGt_of_effect {s t : State} {l r : Slot} (h : Effect (.gt l r) s t) :
    execGt l r s = .next t := by
  obtain ⟨x, y, hx, hy, rfl⟩ := h
  exact binaryOp_next.mpr (.inl ⟨x, y, _, hx, hy, rfl, rfl⟩)

theorem execPush_of_effect {s t : State} {v : Slot} (h : Effect (.push v) s t) :
    execPush v s = .next t := by
  obtain ⟨x, u, hx, hu, rfl⟩ := h
  simp only [execPush, complete_next, bind_eq_ok, pure_eq_ok]
  exact .inl ⟨x, hx, u, hu, rfl⟩

theorem execPop_of_effect {s t : State} {d : Slot} (h : Effect (.pop d) s t) :
    execPop d s = .next t := by
  obtain ⟨i, u, b, hi, hu, rfl⟩ := h
  simp only [execPop, complete_next, bind_eq_ok, pure_eq_ok, Prod.exists]
  exact .inl ⟨i, hi, u, b, hu, rfl⟩

theorem execDup_of_effect {s t : State} (h : Effect .dup s t) :
    execDup s = .next t := by
  obtain ⟨u, hu, rfl⟩ := h
  simp only [execDup, complete_next, bind_eq_ok, pure_eq_ok]
  exact .inl ⟨u, hu, rfl⟩

theorem execSwap_of_effect {s t : State} (h : Effect .swap s t) :
    execSwap s = .next t := by
  obtain ⟨u, hu, rfl⟩ := h
  simp only [execSwap, complete_next, bind_eq_ok, pure_eq_ok]
  exact .inl ⟨u, hu, rfl⟩

theorem execJmp_of_effect {s t : State} {w : Slot} (h : Effect (.jmp w) s t) :
    execJmp w s = .next t := by
  obtain ⟨x, hx, rfl⟩ := h
  simp only [execJmp, complete_next, bind_eq_ok, pure_eq_ok]
  exact .inl ⟨x, hx, rfl⟩

theorem execJz_of_effect {s t : State} {f : Slot} (h : Effect (.jz f) s t) :
    execJz f s = .next t := by
  obtain ⟨p, hp, rfl⟩ := h
  simp only [execJz, conditionalJump, complete_next, bind_eq_ok, pure_eq_ok]
  exact .inl ⟨p, hp, rfl⟩

theorem execJnz_of_effect {s t : State} {f : Slot} (h : Effect (.jnz f) s t) :
    execJnz f s = .next t := by
  obtain ⟨p, hp, rfl⟩ := h
  simp only [execJnz, conditionalJump, complete_next, bind_eq_ok, pure_eq_ok]
  exact .inl ⟨p, hp, rfl⟩

theorem execLoad_of_effect {s t : State} {d a : Slot} (h : Effect (.load d a) s t) :
    execLoad d a s = .next t := by
  obtain ⟨i, x, b, hi, hx, hb, rfl⟩ := h
  simp only [execLoad, complete_next, bind_eq_ok, pure_eq_ok]
  exact .inl ⟨i, hi, x, hx, b, hb, rfl⟩

theorem execStore_of_effect {s t : State} {a n : Slot} {data : List Operand} (h : Effect (.store a n data) s t) :
    execStore a n data s = .next t := by
  obtain ⟨x, k, vs, hx, hk, hv, hc, rfl⟩ := h
  simp only [execStore, complete_next, bind_eq_ok, pure_eq_ok]
  exact .inl ⟨x, hx, k, hk, vs, hv, (), hc, rfl⟩

theorem execWrite_of_effect {s t : State} {a n : Slot} (h : Effect (.write a n) s t) :
    execWrite a n s = .next t := by
  obtain ⟨x, k, bs, u, hx, hk, hb, hu, rfl⟩ := h
  simp only [execWrite, complete_next, bind_eq_ok, pure_eq_ok]
  exact .inl ⟨x, hx, k, hk, bs, hb, u, hu, rfl⟩

theorem execRead_of_effect {s t : State} {a n : Slot} (h : Effect (.read a n) s t) :
    execRead a n s = .next t := by
  obtain ⟨x, k, u, bs, hx, hk, hc, hu, rfl⟩ := h
  simp only [execRead, complete_next, bind_eq_ok, pure_eq_ok, Prod.exists]
  exact .inl ⟨x, hx, k, hk, (), hc, u, bs, hu, rfl⟩

theorem execFlush_of_effect {s t : State} (h : Effect .flush s t) :
    execFlush s = .next t := by
  obtain rfl := h
  rfl

theorem execMov_of_effect {s t : State} {d v : Slot} (h : Effect (.mov d v) s t) :
    execMov d v s = .next t := by
  obtain ⟨i, x, hi, hx, rfl⟩ := h
  simp only [execMov, complete_next, bind_eq_ok, pure_eq_ok]
  exact .inl ⟨i, hi, x, hx, rfl⟩

theorem execInc_of_effect {s t : State} {o : Slot} (h : Effect (.inc o) s t) :
    execInc o s = .next t := by
  exact bump_next.mpr (.inl h)

theorem execDec_of_effect {s t : State} {o : Slot} (h : Effect (.dec o) s t) :
    execDec o s = .next t := by
  exact bump_next.mpr (.inl h)

theorem execAlloc_of_effect {s t : State} {d n : Slot} (h : Effect (.alloc d n) s t) :
    execAlloc d n s = .next t := by
  obtain ⟨i, k, u, a, hi, hk, hu, rfl⟩ := h
  simp only [execAlloc, complete_next, bind_eq_ok, pure_eq_ok, Prod.exists]
  exact .inl ⟨i, hi, k, hk, u, a, hu, rfl⟩

theorem execFree_of_effect {s t : State} {a : Slot} (h : Effect (.free a) s t) :
    execFree a s = .next t := by
  obtain ⟨x, u, hx, hu, rfl⟩ := h
  simp only [execFree, complete_next, bind_eq_ok, pure_eq_ok]
  exact .inl ⟨x, hx, u, hu, rfl⟩

theorem execRealloc_of_effect {s t : State} {d n : Slot} (h : Effect (.realloc d n) s t) :
    execRealloc d n s = .next t := by
  obtain ⟨i, k, u, a, hi, hk, hu, rfl⟩ := h
  simp only [execRealloc, complete_next, bind_eq_ok, pure_eq_ok, Prod.exists]
  exact .inl ⟨i, hi, k, hk, u, a, hu, rfl⟩

theorem execFunc_of_effect {s t : State} {label : Slot} (h : Effect (.func label) s t) :
    execFunc label s = .next t := by
  obtain ⟨v, u, hv, hu, rfl⟩ := h
  simp only [execFunc, complete_next, bind_eq_ok, pure_eq_ok]
  exact .inl ⟨v, hv, u, hu, rfl⟩

theorem execCall_of_effect {s t : State} {f : Slot} (h : Effect (.call f) s t) :
    execCall f s = .next t := by
  obtain ⟨p, u, hp, hu, rfl⟩ := h
  simp only [execCall, complete_next, bind_eq_ok, pure_eq_ok]
  exact .inl ⟨p, hp, u, hu, rfl⟩

theorem execRet_of_effect {s t : State} (h : Effect .ret s t) :
    execRet s = .next t := by
  obtain ⟨u, p, hu, rfl⟩ := h
  simp only [execRet, complete_next, bind_eq_ok, pure_eq_ok, Prod.exists]
  exact .inl ⟨u, p, hu, rfl⟩

theorem execWracc_of_effect {s t : State} {v : Slot} (h : Effect (.wracc v) s t) :
    execWracc v s = .next t := by
  obtain ⟨x, hx, rfl⟩ := h
  simp only [execWracc, complete_next, bind_eq_ok, pure_eq_ok]
  exact .inl ⟨x, hx, rfl⟩

theorem execReacc_of_effect {s t : State} {d : Slot} (h : Effect (.reacc d) s t) :
    execReacc d s = .next t := by
  obtain ⟨i, hi, rfl⟩ := h
  simp only [execReacc, complete_next, bind_eq_ok, pure_eq_ok]
  exact .inl ⟨i, hi, rfl⟩

/-! ## The instructions together -/

/-- The inversion of `exec`: its answer is a next state, which the instruction's effect gives, or which is the state from
before it with a fault taken (40_pipeline.md R160). -/
theorem exec_cases {i : Instr} {s t : State} (h : exec i s = .next t) : EffectOrFault i s t := by
  cases i with
  | nop => exact execNop_cases h
  | add _ _ => exact execAdd_cases h
  | sub _ _ => exact execSub_cases h
  | mul _ _ => exact execMul_cases h
  | div _ _ => exact execDiv_cases h
  | mod _ _ => exact execMod_cases h
  | and _ _ => exact execAnd_cases h
  | or _ _ => exact execOr_cases h
  | xor _ _ => exact execXor_cases h
  | not _ => exact execNot_cases h
  | eq _ _ => exact execEq_cases h
  | neq _ _ => exact execNeq_cases h
  | lt _ _ => exact execLt_cases h
  | gt _ _ => exact execGt_cases h
  | push _ => exact execPush_cases h
  | pop _ => exact execPop_cases h
  | dup => exact execDup_cases h
  | swap => exact execSwap_cases h
  | jmp _ => exact execJmp_cases h
  | jz _ => exact execJz_cases h
  | jnz _ => exact execJnz_cases h
  | load _ _ => exact execLoad_cases h
  | store _ _ _ => exact execStore_cases h
  | write _ _ => exact execWrite_cases h
  | read _ _ => exact execRead_cases h
  | flush => exact execFlush_cases h
  | mov _ _ => exact execMov_cases h
  | inc _ => exact execInc_cases h
  | dec _ => exact execDec_cases h
  | alloc _ _ => exact execAlloc_cases h
  | free _ => exact execFree_cases h
  | realloc _ _ => exact execRealloc_cases h
  | func _ => exact execFunc_cases h
  | call _ => exact execCall_cases h
  | ret => exact execRet_cases h
  | wracc _ => exact execWracc_cases h
  | reacc _ => exact execReacc_cases h

/-- The other direction: an instruction whose effect relates two states takes the one to the other. -/
theorem exec_of_effect {i : Instr} {s t : State} (h : Effect i s t) : exec i s = .next t := by
  cases i with
  | nop => exact execNop_of_effect h
  | add _ _ => exact execAdd_of_effect h
  | sub _ _ => exact execSub_of_effect h
  | mul _ _ => exact execMul_of_effect h
  | div _ _ => exact execDiv_of_effect h
  | mod _ _ => exact execMod_of_effect h
  | and _ _ => exact execAnd_of_effect h
  | or _ _ => exact execOr_of_effect h
  | xor _ _ => exact execXor_of_effect h
  | not _ => exact execNot_of_effect h
  | eq _ _ => exact execEq_of_effect h
  | neq _ _ => exact execNeq_of_effect h
  | lt _ _ => exact execLt_of_effect h
  | gt _ _ => exact execGt_of_effect h
  | push _ => exact execPush_of_effect h
  | pop _ => exact execPop_of_effect h
  | dup => exact execDup_of_effect h
  | swap => exact execSwap_of_effect h
  | jmp _ => exact execJmp_of_effect h
  | jz _ => exact execJz_of_effect h
  | jnz _ => exact execJnz_of_effect h
  | load _ _ => exact execLoad_of_effect h
  | store _ _ _ => exact execStore_of_effect h
  | write _ _ => exact execWrite_of_effect h
  | read _ _ => exact execRead_of_effect h
  | flush => exact execFlush_of_effect h
  | mov _ _ => exact execMov_of_effect h
  | inc _ => exact execInc_of_effect h
  | dec _ => exact execDec_of_effect h
  | alloc _ _ => exact execAlloc_of_effect h
  | free _ => exact execFree_of_effect h
  | realloc _ _ => exact execRealloc_of_effect h
  | func _ => exact execFunc_of_effect h
  | call _ => exact execCall_of_effect h
  | ret => exact execRet_of_effect h
  | wracc _ => exact execWracc_of_effect h
  | reacc _ => exact execReacc_of_effect h

/-- Every instruction answers a next state, whatever the state and the operands: a fault of the spec is a state too. -/
theorem exec_isNext (i : Instr) (s : State) : ∃ t, exec i s = .next t := by
  cases i with
  | nop => exact ⟨_, rfl⟩
  | add _ _ => exact complete_isNext _ _ _
  | sub _ _ => exact complete_isNext _ _ _
  | mul _ _ => exact complete_isNext _ _ _
  | div _ _ => exact complete_isNext _ _ _
  | mod _ _ => exact complete_isNext _ _ _
  | and _ _ => exact complete_isNext _ _ _
  | or _ _ => exact complete_isNext _ _ _
  | xor _ _ => exact complete_isNext _ _ _
  | not _ => exact complete_isNext _ _ _
  | eq _ _ => exact complete_isNext _ _ _
  | neq _ _ => exact complete_isNext _ _ _
  | lt _ _ => exact complete_isNext _ _ _
  | gt _ _ => exact complete_isNext _ _ _
  | push _ => exact complete_isNext _ _ _
  | pop _ => exact complete_isNext _ _ _
  | dup => exact complete_isNext _ _ _
  | swap => exact complete_isNext _ _ _
  | jmp _ => exact complete_isNext _ _ _
  | jz _ => exact complete_isNext _ _ _
  | jnz _ => exact complete_isNext _ _ _
  | load _ _ => exact complete_isNext _ _ _
  | store _ _ _ => exact complete_isNext _ _ _
  | write _ _ => exact complete_isNext _ _ _
  | read _ _ => exact complete_isNext _ _ _
  | flush => exact ⟨_, rfl⟩
  | mov _ _ => exact complete_isNext _ _ _
  | inc _ => exact complete_isNext _ _ _
  | dec _ => exact complete_isNext _ _ _
  | alloc _ _ => exact complete_isNext _ _ _
  | free _ => exact complete_isNext _ _ _
  | realloc _ _ => exact complete_isNext _ _ _
  | func _ => exact complete_isNext _ _ _
  | call _ => exact complete_isNext _ _ _
  | ret => exact complete_isNext _ _ _
  | wracc _ => exact complete_isNext _ _ _
  | reacc _ => exact complete_isNext _ _ _

end Sys2Proof.Machine
end

