-- ==== Sys2Proof/Laws/PerInstr.lean ====
section
/-! SUPPORT. The families of statements about every instruction as syntax, one lemma per constructor. -/

/-- The operands an instruction stands for are read back as that instruction, where none of its operands is missing and
whatever their tags and payloads (30_encoding.md R115, R122). -/
def Sys2Proof.Laws.Operands.Statement (i : Sys2Proof.Instr) : Prop :=
  (∀ x ∈ i.slots, x ≠ none) → Sys2Proof.decodeOperands (Sys2Proof.encodeOperands i) = .ok i

namespace Sys2Proof.Laws.Operands

open Sys2Proof

theorem nop : Statement (.nop) := by
  intro _
  rfl

theorem add (l r : Slot) : Statement (.add l r) := by
  intro h
  obtain ⟨o0, rfl⟩ := Option.ne_none_iff_exists'.mp (h l (by simp [Instr.slots]))
  obtain ⟨o1, rfl⟩ := Option.ne_none_iff_exists'.mp (h r (by simp [Instr.slots]))
  rfl

theorem sub (l r : Slot) : Statement (.sub l r) := by
  intro h
  obtain ⟨o0, rfl⟩ := Option.ne_none_iff_exists'.mp (h l (by simp [Instr.slots]))
  obtain ⟨o1, rfl⟩ := Option.ne_none_iff_exists'.mp (h r (by simp [Instr.slots]))
  rfl

theorem mul (l r : Slot) : Statement (.mul l r) := by
  intro h
  obtain ⟨o0, rfl⟩ := Option.ne_none_iff_exists'.mp (h l (by simp [Instr.slots]))
  obtain ⟨o1, rfl⟩ := Option.ne_none_iff_exists'.mp (h r (by simp [Instr.slots]))
  rfl

theorem div (l r : Slot) : Statement (.div l r) := by
  intro h
  obtain ⟨o0, rfl⟩ := Option.ne_none_iff_exists'.mp (h l (by simp [Instr.slots]))
  obtain ⟨o1, rfl⟩ := Option.ne_none_iff_exists'.mp (h r (by simp [Instr.slots]))
  rfl

theorem mod (l r : Slot) : Statement (.mod l r) := by
  intro h
  obtain ⟨o0, rfl⟩ := Option.ne_none_iff_exists'.mp (h l (by simp [Instr.slots]))
  obtain ⟨o1, rfl⟩ := Option.ne_none_iff_exists'.mp (h r (by simp [Instr.slots]))
  rfl

theorem and (l r : Slot) : Statement (.and l r) := by
  intro h
  obtain ⟨o0, rfl⟩ := Option.ne_none_iff_exists'.mp (h l (by simp [Instr.slots]))
  obtain ⟨o1, rfl⟩ := Option.ne_none_iff_exists'.mp (h r (by simp [Instr.slots]))
  rfl

theorem or (l r : Slot) : Statement (.or l r) := by
  intro h
  obtain ⟨o0, rfl⟩ := Option.ne_none_iff_exists'.mp (h l (by simp [Instr.slots]))
  obtain ⟨o1, rfl⟩ := Option.ne_none_iff_exists'.mp (h r (by simp [Instr.slots]))
  rfl

theorem xor (l r : Slot) : Statement (.xor l r) := by
  intro h
  obtain ⟨o0, rfl⟩ := Option.ne_none_iff_exists'.mp (h l (by simp [Instr.slots]))
  obtain ⟨o1, rfl⟩ := Option.ne_none_iff_exists'.mp (h r (by simp [Instr.slots]))
  rfl

theorem not (d : Slot) : Statement (.not d) := by
  intro h
  obtain ⟨o0, rfl⟩ := Option.ne_none_iff_exists'.mp (h d (by simp [Instr.slots]))
  rfl

theorem eq (l r : Slot) : Statement (.eq l r) := by
  intro h
  obtain ⟨o0, rfl⟩ := Option.ne_none_iff_exists'.mp (h l (by simp [Instr.slots]))
  obtain ⟨o1, rfl⟩ := Option.ne_none_iff_exists'.mp (h r (by simp [Instr.slots]))
  rfl

theorem neq (l r : Slot) : Statement (.neq l r) := by
  intro h
  obtain ⟨o0, rfl⟩ := Option.ne_none_iff_exists'.mp (h l (by simp [Instr.slots]))
  obtain ⟨o1, rfl⟩ := Option.ne_none_iff_exists'.mp (h r (by simp [Instr.slots]))
  rfl

theorem lt (l r : Slot) : Statement (.lt l r) := by
  intro h
  obtain ⟨o0, rfl⟩ := Option.ne_none_iff_exists'.mp (h l (by simp [Instr.slots]))
  obtain ⟨o1, rfl⟩ := Option.ne_none_iff_exists'.mp (h r (by simp [Instr.slots]))
  rfl

theorem gt (l r : Slot) : Statement (.gt l r) := by
  intro h
  obtain ⟨o0, rfl⟩ := Option.ne_none_iff_exists'.mp (h l (by simp [Instr.slots]))
  obtain ⟨o1, rfl⟩ := Option.ne_none_iff_exists'.mp (h r (by simp [Instr.slots]))
  rfl

theorem push (v : Slot) : Statement (.push v) := by
  intro h
  obtain ⟨o0, rfl⟩ := Option.ne_none_iff_exists'.mp (h v (by simp [Instr.slots]))
  rfl

theorem pop (d : Slot) : Statement (.pop d) := by
  intro h
  obtain ⟨o0, rfl⟩ := Option.ne_none_iff_exists'.mp (h d (by simp [Instr.slots]))
  rfl

theorem dup : Statement (.dup) := by
  intro _
  rfl

theorem swap : Statement (.swap) := by
  intro _
  rfl

theorem jmp (t : Slot) : Statement (.jmp t) := by
  intro h
  obtain ⟨o0, rfl⟩ := Option.ne_none_iff_exists'.mp (h t (by simp [Instr.slots]))
  rfl

theorem jz (f : Slot) : Statement (.jz f) := by
  intro h
  obtain ⟨o0, rfl⟩ := Option.ne_none_iff_exists'.mp (h f (by simp [Instr.slots]))
  rfl

theorem jnz (f : Slot) : Statement (.jnz f) := by
  intro h
  obtain ⟨o0, rfl⟩ := Option.ne_none_iff_exists'.mp (h f (by simp [Instr.slots]))
  rfl

theorem load (d a : Slot) : Statement (.load d a) := by
  intro h
  obtain ⟨o0, rfl⟩ := Option.ne_none_iff_exists'.mp (h d (by simp [Instr.slots]))
  obtain ⟨o1, rfl⟩ := Option.ne_none_iff_exists'.mp (h a (by simp [Instr.slots]))
  rfl

theorem store (a n : Slot) (data : List Operand) : Statement (.store a n data) := by
  intro h
  obtain ⟨o0, rfl⟩ := Option.ne_none_iff_exists'.mp (h a (by simp [Instr.slots]))
  obtain ⟨o1, rfl⟩ := Option.ne_none_iff_exists'.mp (h n (by simp [Instr.slots]))
  rfl

theorem write (a n : Slot) : Statement (.write a n) := by
  intro h
  obtain ⟨o0, rfl⟩ := Option.ne_none_iff_exists'.mp (h a (by simp [Instr.slots]))
  obtain ⟨o1, rfl⟩ := Option.ne_none_iff_exists'.mp (h n (by simp [Instr.slots]))
  rfl

theorem read (a n : Slot) : Statement (.read a n) := by
  intro h
  obtain ⟨o0, rfl⟩ := Option.ne_none_iff_exists'.mp (h a (by simp [Instr.slots]))
  obtain ⟨o1, rfl⟩ := Option.ne_none_iff_exists'.mp (h n (by simp [Instr.slots]))
  rfl

theorem flush : Statement (.flush) := by
  intro _
  rfl

theorem mov (d v : Slot) : Statement (.mov d v) := by
  intro h
  obtain ⟨o0, rfl⟩ := Option.ne_none_iff_exists'.mp (h d (by simp [Instr.slots]))
  obtain ⟨o1, rfl⟩ := Option.ne_none_iff_exists'.mp (h v (by simp [Instr.slots]))
  rfl

theorem inc (o : Slot) : Statement (.inc o) := by
  intro h
  obtain ⟨o0, rfl⟩ := Option.ne_none_iff_exists'.mp (h o (by simp [Instr.slots]))
  rfl

theorem dec (o : Slot) : Statement (.dec o) := by
  intro h
  obtain ⟨o0, rfl⟩ := Option.ne_none_iff_exists'.mp (h o (by simp [Instr.slots]))
  rfl

theorem alloc (d n : Slot) : Statement (.alloc d n) := by
  intro h
  obtain ⟨o0, rfl⟩ := Option.ne_none_iff_exists'.mp (h d (by simp [Instr.slots]))
  obtain ⟨o1, rfl⟩ := Option.ne_none_iff_exists'.mp (h n (by simp [Instr.slots]))
  rfl

theorem free (a : Slot) : Statement (.free a) := by
  intro h
  obtain ⟨o0, rfl⟩ := Option.ne_none_iff_exists'.mp (h a (by simp [Instr.slots]))
  rfl

theorem realloc (d n : Slot) : Statement (.realloc d n) := by
  intro h
  obtain ⟨o0, rfl⟩ := Option.ne_none_iff_exists'.mp (h d (by simp [Instr.slots]))
  obtain ⟨o1, rfl⟩ := Option.ne_none_iff_exists'.mp (h n (by simp [Instr.slots]))
  rfl

theorem func (label : Slot) : Statement (.func label) := by
  intro h
  obtain ⟨o0, rfl⟩ := Option.ne_none_iff_exists'.mp (h label (by simp [Instr.slots]))
  rfl

theorem call (f : Slot) : Statement (.call f) := by
  intro h
  obtain ⟨o0, rfl⟩ := Option.ne_none_iff_exists'.mp (h f (by simp [Instr.slots]))
  rfl

theorem ret : Statement (.ret) := by
  intro _
  rfl

theorem wracc (v : Slot) : Statement (.wracc v) := by
  intro h
  obtain ⟨o0, rfl⟩ := Option.ne_none_iff_exists'.mp (h v (by simp [Instr.slots]))
  rfl

theorem reacc (d : Slot) : Statement (.reacc d) := by
  intro h
  obtain ⟨o0, rfl⟩ := Option.ne_none_iff_exists'.mp (h d (by simp [Instr.slots]))
  rfl

end Sys2Proof.Laws.Operands
end

