-- ==== Sys2Proof/Laws/Step.lean ====
section
/-! SUPPORT. What a step does, said once: the inversion of `step`, what the end-of-stream test changes, and the parts of
the state that no instruction changes. -/

namespace Sys2Proof.Machine

/-! ## The end-of-stream test -/

/-- The end-of-stream test changes `ENG_STATE` and nothing else (40_pipeline.md R141). -/
theorem endOfStream_eq (s : State) :
    endOfStream s =
      { s with engState := if s.engState = .running ∧ s.stream.length ≤ s.pc then .halted else s.engState } := by
  unfold endOfStream
  split
  · rename_i h
    have h : s.engState = .running ∧ s.stream.length ≤ s.pc := h
    simp only [State.setEng, if_pos h]
  · rename_i h
    have h : ¬ (s.engState = .running ∧ s.stream.length ≤ s.pc) := h
    simp only [if_neg h]

theorem endOfStream_faulted {s : State} (h : s.engState = .faulted) : endOfStream s = s := by
  simp [endOfStream, h]

/-! ## The inversion of a step -/

/-- What the fetch at `pc` finds is an instruction, the end of the stream, or a fault with no opcode (R142, R143). -/
theorem fetch_cases (s : State) :
    (∃ i, decodeOperands (s.stream.drop s.pc) = .ok i ∧ fetch s = .ok i) ∨
      (s.stream.drop s.pc = [] ∧ fetch s = .error (endOfStream s)) ∨
      ∃ c, fetch s = .error (takeFault s.pc none c s) := by
  unfold fetch operandsAtPc
  cases hd : s.stream.drop s.pc with
  | nil => exact .inr (.inl ⟨rfl, rfl⟩)
  | cons o rest =>
    cases hr : decodeOperands (o :: rest) with
    | ok i => exact .inl ⟨i, rfl, rfl⟩
    | error e =>
      cases e with
      | endOfStream =>
        simp only [decodeOperands] at hr
        split at hr
        · split at hr <;> simp at hr
        · simp at hr
      | notOpTag => exact .inr (.inr ⟨_, rfl⟩)
      | undefinedOpcode p => exact .inr (.inr ⟨_, rfl⟩)

/-- A step runs the decoded instruction and tests for the end of the stream, or it finds none there: the engine halts, or
takes the fetch's fault. -/
theorem step_cases {s t : State} (h : step s = .next t) :
    s.engState = .running ∧
      ((∃ i u, decodeOperands (s.stream.drop s.pc) = .ok i ∧ exec i s = .next u ∧ t = endOfStream u) ∨
        (s.stream.drop s.pc = [] ∧ t = endOfStream s) ∨
        ∃ c, t = takeFault s.pc none c s) := by
  unfold step at h
  cases he : s.engState with
  | running =>
    refine ⟨rfl, ?_⟩
    rcases fetch_cases s with ⟨i, hd, hf⟩ | ⟨hd, hf⟩ | ⟨c, hf⟩
    · obtain ⟨u, hu⟩ := exec_isNext i s
      simp only [he, hf, hu, commit, Host.Outcome.next.injEq] at h
      exact .inl ⟨i, u, hd, hu, h.symm⟩
    · simp only [he, hf, Host.Outcome.next.injEq] at h
      exact .inr (.inl ⟨hd, h.symm⟩)
    · simp only [he, hf, Host.Outcome.next.injEq] at h
      exact .inr (.inr ⟨c, h.symm⟩)
  | ready => simp [he] at h
  | halted => simp [he] at h
  | faulted => simp [he] at h
  | aborted => simp [he] at h

/-- The other direction: a running engine at a decodable position runs the instruction. -/
theorem step_of_decode {s u : State} {i : Instr} (hr : s.engState = .running)
    (hd : decodeOperands (s.stream.drop s.pc) = .ok i) (hu : exec i s = .next u) :
    step s = .next (endOfStream u) := by
  simp [step, fetch, operandsAtPc, hr, hd, hu, commit]

/-! ## The stack array's canonical form -/

/-- An instruction keeps the stack array's canonical form. -/
theorem exec_stack_wf {i : Instr} {s t : State} (hs : s.stack.wf) (h : exec i s = .next t) : t.stack.wf := by
  rcases exec_cases h with he | ⟨c, rfl⟩
  · cases i
    case push v =>
      obtain ⟨x, u, -, hu, rfl⟩ := he
      obtain ⟨-, rfl⟩ := stackPush_ok.mp hu
      exact Memory.wf_write hs _ _
    case dup =>
      obtain ⟨u, hu, rfl⟩ := he
      obtain ⟨-, -, rfl⟩ := stackDup_ok.mp hu
      exact Memory.wf_write hs _ _
    case swap =>
      obtain ⟨u, hu, rfl⟩ := he
      obtain ⟨-, rfl⟩ := stackSwap_ok.mp hu
      exact Memory.wf_write (Memory.wf_write hs _ _) _ _
    all_goals
      suffices h : t.stack = s.stack by rw [h]; exact hs
      simp only [Effect, Bumped, stackPop_ok, outAppend_ok, inTake_ok, heapAlloc_ok, heapFree_ok, heapRealloc_ok,
        jtAppend_ok, csPush_ok, csPop_ok] at he
      aesop
  · exact hs
/-- A step keeps the stack array's canonical form. -/
theorem step_stack_wf {s t : State} (hs : s.stack.wf) (h : step s = .next t) : t.stack.wf := by
  obtain ⟨-, ⟨i, u, -, hu, rfl⟩ | ⟨-, rfl⟩ | ⟨c, rfl⟩⟩ := step_cases h
  · rw [endOfStream_eq]
    have := exec_stack_wf hs hu
    exact this
  · rw [endOfStream_eq]
    exact hs
  · exact hs

end Sys2Proof.Machine
end

