-- ==== Sys2Proof/Tests/Slice0.lean ====
section
/-! SUPPORT. The model's own tests. Expected results are those of the spec's vectors (95_test_vectors.md, named in each
section) or of its encoding tables; none is a run of the model. The last section shows, for every statement of
Certificates/Slice0/Obligations.lean with hypotheses, a state and operands that meet each clause's hypotheses together. -/

namespace Sys2Proof.Tests

open Sys2Proof.Machine

/-! ## WellFormed refuses each ill-formed term -/

theorem test_wf_accepts : (Instr.add (some ⟨.u8, 255⟩) (some ⟨.reg, 59⟩)).wellFormed .compact = true ∧
    (Instr.add (some ⟨.u64, 0xFFFFFFFFFFFFFFFF⟩) (some ⟨.u8, 255⟩)).wellFormed .wide = true := by decide

theorem test_wf_refuses_missing_operand : (Instr.add (some ⟨.u8, 3⟩) none).wellFormed .compact = false := by decide

theorem test_wf_refuses_compact_payload : (Instr.push (some ⟨.u64, 256⟩)).wellFormed .compact = false := by decide

theorem test_wf_refuses_wide_payload : (Instr.push (some ⟨.f32, 0x100000000⟩)).wellFormed .wide = false := by decide

theorem test_wf_refuses_store_value :
    (Instr.store (some ⟨.addr, 0⟩) (some ⟨.u8, 1⟩) [⟨.u8, 256⟩]).wellFormed .compact = false := by decide

/-! ## Decoding words written out from the spec's encodings (the Encoding lines of 41 to 47, R101, R120) -/

theorem test_decode_nop_and_arithmetic :
    decode .compact [0x0B, 0x00] = .ok .nop ∧
    decode .compact [0x0B, 0x01, 0x00, 0x03, 0x00, 0x04] = .ok (.add (some ⟨.u8, 3⟩) (some ⟨.u8, 4⟩)) ∧
    decode .compact [0x0B, 0x02, 0x01, 0x0A, 0x03, 0x03] = .ok (.sub (some ⟨.u64, 10⟩) (some ⟨.i8, 3⟩)) ∧
    decode .compact [0x0B, 0x03, 0x02, 0x05, 0x05, 0x06] = .ok (.mul (some ⟨.u128, 5⟩) (some ⟨.i128, 6⟩)) ∧
    decode .compact [0x0B, 0x04, 0x09, 0x3B, 0x0C, 0x01] = .ok (.div (some ⟨.reg, 59⟩) (some ⟨.derefStack, 1⟩)) ∧
    decode .compact [0x0B, 0x05, 0x0D, 0x02, 0x04, 0xFF] =
      .ok (.mod (some ⟨.derefHeapReg, 2⟩) (some ⟨.i64, 255⟩)) := by decide

theorem test_decode_bitwise_and_comparison :
    decode .compact [0x0B, 0x06, 0x06, 0x01, 0x07, 0x02] = .ok (.and (some ⟨.f32, 1⟩) (some ⟨.f64, 2⟩)) ∧
    decode .compact [0x0B, 0x07, 0x08, 0x01, 0x0A, 0x02] = .ok (.or (some ⟨.addr, 1⟩) (some ⟨.func, 2⟩)) ∧
    decode .compact [0x0B, 0x08, 0x0E, 0x01, 0x0B, 0x02] = .ok (.xor (some ⟨.noType, 1⟩) (some ⟨.op, 2⟩)) ∧
    decode .compact [0x0B, 0x09, 0x09, 0x02] = .ok (.not (some ⟨.reg, 2⟩)) ∧
    decode .compact [0x0B, 0x0A, 0x00, 0x01, 0x00, 0x02] = .ok (.eq (some ⟨.u8, 1⟩) (some ⟨.u8, 2⟩)) ∧
    decode .compact [0x0B, 0x0B, 0x00, 0x01, 0x00, 0x02] = .ok (.neq (some ⟨.u8, 1⟩) (some ⟨.u8, 2⟩)) ∧
    decode .compact [0x0B, 0x0C, 0x00, 0x01, 0x00, 0x02] = .ok (.lt (some ⟨.u8, 1⟩) (some ⟨.u8, 2⟩)) ∧
    decode .compact [0x0B, 0x0D, 0x00, 0x01, 0x00, 0x02] = .ok (.gt (some ⟨.u8, 1⟩) (some ⟨.u8, 2⟩)) := by decide

theorem test_decode_stack_and_jumps :
    decode .compact [0x0B, 0x0E, 0x00, 0x07] = .ok (.push (some ⟨.u8, 7⟩)) ∧
    decode .compact [0x0B, 0x0F, 0x09, 0x04] = .ok (.pop (some ⟨.reg, 4⟩)) ∧
    decode .compact [0x0B, 0x10] = .ok .dup ∧
    decode .compact [0x0B, 0x11] = .ok .swap ∧
    decode .compact [0x0B, 0x12, 0x00, 0x03] = .ok (.jmp (some ⟨.u8, 3⟩)) ∧
    decode .compact [0x0B, 0x13, 0x0A, 0x00] = .ok (.jz (some ⟨.func, 0⟩)) ∧
    decode .compact [0x0B, 0x14, 0x0A, 0x01] = .ok (.jnz (some ⟨.func, 1⟩)) := by decide

theorem test_decode_heap_and_io :
    decode .compact [0x0B, 0x15, 0x09, 0x03, 0x08, 0x05] = .ok (.load (some ⟨.reg, 3⟩) (some ⟨.addr, 5⟩)) ∧
    decode .compact [0x0B, 0x16, 0x09, 0x02, 0x00, 0x01, 0x09, 0x03] =
      .ok (.store (some ⟨.reg, 2⟩) (some ⟨.u8, 1⟩) [⟨.reg, 3⟩]) ∧
    decode .compact [0x0B, 0x17, 0x09, 0x01, 0x00, 0x05] = .ok (.write (some ⟨.reg, 1⟩) (some ⟨.u8, 5⟩)) ∧
    decode .compact [0x0B, 0x18, 0x08, 0x00, 0x00, 0x03] = .ok (.read (some ⟨.addr, 0⟩) (some ⟨.u8, 3⟩)) ∧
    decode .compact [0x0B, 0x19] = .ok .flush := by decide

theorem test_decode_move_and_allocation :
    decode .compact [0x0B, 0x1A, 0x09, 0x00, 0x00, 0x03] = .ok (.mov (some ⟨.reg, 0⟩) (some ⟨.u8, 3⟩)) ∧
    decode .compact [0x0B, 0x1B, 0x09, 0x00] = .ok (.inc (some ⟨.reg, 0⟩)) ∧
    decode .compact [0x0B, 0x1C, 0x08, 0x01] = .ok (.dec (some ⟨.addr, 1⟩)) ∧
    decode .compact [0x0B, 0x1D, 0x09, 0x01, 0x00, 0x05] = .ok (.alloc (some ⟨.reg, 1⟩) (some ⟨.u8, 5⟩)) ∧
    decode .compact [0x0B, 0x1E, 0x09, 0x01] = .ok (.free (some ⟨.reg, 1⟩)) ∧
    decode .compact [0x0B, 0x1F, 0x09, 0x00, 0x00, 0x03] = .ok (.realloc (some ⟨.reg, 0⟩) (some ⟨.u8, 3⟩)) := by decide

theorem test_decode_function_and_accumulator :
    decode .compact [0x0B, 0x20, 0x0A, 0x00] = .ok (.func (some ⟨.func, 0⟩)) ∧
    decode .compact [0x0B, 0x21, 0x0A, 0x03] = .ok (.call (some ⟨.func, 3⟩)) ∧
    decode .compact [0x0B, 0x22] = .ok .ret ∧
    decode .compact [0x0B, 0x23, 0x00, 0x0A] = .ok (.wracc (some ⟨.u8, 10⟩)) ∧
    decode .compact [0x0B, 0x24, 0x09, 0x01] = .ok (.reacc (some ⟨.reg, 1⟩)) := by decide

/-- FE1, FE2 and DE7: what is no instruction, by name. -/
theorem test_decode_refuses :
    decode .compact [0x00, 0x0B] = .error .notOpTag ∧
    decode .compact [0x0B, 0x25] = .error (.undefinedOpcode 0x25) ∧
    decode .compact [] = .error .endOfStream := by decide

/-- DE5, DE6. -/
theorem test_decode_compact_edges :
    decodeCompact [0x0F, 0x07, 0xFF, 0x09] = [⟨.noType, 7⟩, ⟨.noType, 9⟩] ∧
    encodeImage .compact (decodeCompact [0x0F, 0x07, 0xFF, 0x09]) = [0x0E, 0x07, 0x0E, 0x09] ∧
    decodeCompact [0x0B, 0x01, 0x00] = [⟨.op, 1⟩] := by decide

/-- WD1, WD3, WD4, WD8, WD9. -/
theorem test_decode_wide :
    decodeWide [0x01, 0x01, 0x02, 0x03, 0x04, 0x05, 0x06, 0x07, 0x08] = [⟨.u64, 0x102030405060708⟩] ∧
    decodeWide [0x02, 0xFF, 0xFF, 0xFF, 0xFF, 0xFF, 0xFF, 0xFF, 0xFF, 0, 0, 0, 0, 0, 0, 0, 5] = [⟨.u128, 5⟩] ∧
    decodeWide [0x06, 0x3F, 0x80, 0x00, 0x00] = [⟨.f32, 0x3F800000⟩] ∧
    decodeWide [0x00, 0x05, 0x01, 0x00, 0x00] = [⟨.u8, 5⟩] ∧
    decode .wide [0x0B, 0x01, 0x01, 0, 0, 0, 0, 0, 0, 0, 3, 0x00, 0x04] =
      .ok (.add (some ⟨.u64, 3⟩) (some ⟨.u8, 4⟩)) := by decide

/-- The opcode table's NOP, ADD and DUP words (0x0B00, 0x0B01, 0x0B10): operand words of zeros are `U8` zeros. -/
theorem test_decodeTableWord :
    decodeTableWord 16 0x0B00 = some .nop ∧
    decodeTableWord 16 0x0B01 = some (.add (some ⟨.u8, 0⟩) (some ⟨.u8, 0⟩)) ∧
    decodeTableWord 16 0x0B10 = some .dup ∧ decodeTableWord 16 0x0B25 = none := by decide

/-! ## One step of each instruction: the vectors of 95_test_vectors.md section 3 -/

/-- The state in which an image has been started from reset, and then `prep`ared. -/
def begun (img : List Byte) (prep : State → State) : State :=
  match start img [] State.reset with
  | .next s => prep s
  | _ => State.reset

/-- One step from there answers a next state with the property. -/
def steps (img : List Byte) (prep : State → State) (check : State → Bool) : Bool :=
  match step (begun img prep) with
  | .next t => check t
  | _ => false

/-- One step from there ends in the fault that the vector writes, and nothing but `ENG_STATE` and `FAULT` changes. -/
def faults (img : List Byte) (prep : State → State) (view : FaultView) : Bool :=
  steps img prep fun t =>
    faultView t == view && { t with engState := .running, fault := FaultRecord.none } == begun img prep

/-- AL1. -/
theorem test_nop : steps [0x0B, 0x00] id (fun t => t.pc == 1 && t.engState == .halted) = true := by decide

/-- AL2. -/
theorem test_add : steps [0x0B, 0x01, 0x00, 0x03, 0x00, 0x04] id (fun t => t.acc == 7 && t.pc == 3) = true := by decide

/-- AL6. -/
theorem test_add_wraps : steps [0x0B, 0x01, 0x09, 0x00, 0x00, 0x01] (·.setReg 0 0xFFFFFFFFFFFFFFFF)
    (fun t => t.acc == 0 && t.pc == 3) = true := by decide

/-- AL3. -/
theorem test_sub : steps [0x0B, 0x02, 0x00, 0x0A, 0x00, 0x03] id (fun t => t.acc == 7) = true := by decide

/-- AL5. -/
theorem test_sub_wraps :
    steps [0x0B, 0x02, 0x00, 0x03, 0x00, 0x0A] id (fun t => t.acc == 0xFFFFFFFFFFFFFFF9) = true := by decide

/-- AL7. -/
theorem test_mul_wraps :
    steps [0x0B, 0x03, 0x09, 0x00, 0x09, 0x00] (fun s => (s.setReg 0 0x100000000).setAcc 9) (fun t => t.acc == 0) = true := by
  decide

/-- AL8. -/
theorem test_div : steps [0x0B, 0x04, 0x00, 0x07, 0x00, 0x02] id (fun t => t.acc == 3) = true := by decide

/-- AL9. -/
theorem test_div_by_zero :
    faults [0x0B, 0x04, 0x00, 0x07, 0x00, 0x00] id ⟨3, 9, 0, some 2, some 0x04, none⟩ = true := by decide

/-- AL4. -/
theorem test_mod : steps [0x0B, 0x05, 0x00, 0x0A, 0x00, 0x03] id (fun t => t.acc == 1) = true := by decide

/-- AL10. -/
theorem test_mod_by_zero :
    faults [0x0B, 0x05, 0x00, 0x07, 0x09, 0x05] id ⟨3, 10, 0, some 2, some 0x05, none⟩ = true := by decide

/-- AL12. -/
theorem test_and : steps [0x0B, 0x06, 0x00, 0x0C, 0x00, 0x0A] id (fun t => t.acc == 8) = true := by decide

/-- AL13. -/
theorem test_or : steps [0x0B, 0x07, 0x00, 0x0C, 0x00, 0x0A] id (fun t => t.acc == 0xE) = true := by decide

/-- AL14. -/
theorem test_xor : steps [0x0B, 0x08, 0x00, 0x0C, 0x00, 0x0A] id (fun t => t.acc == 6) = true := by decide

/-- AL16. -/
theorem test_not : steps [0x0B, 0x09, 0x09, 0x03] (·.setReg 3 0xFF)
    (fun t => t.reg 3 == 0xFFFFFFFFFFFFFF00 && t.acc == 0 && t.pc == 2) = true := by decide

/-- AL17. -/
theorem test_eq : steps [0x0B, 0x0A, 0x00, 0x05, 0x00, 0x05] id (fun t => t.acc == 1) = true := by decide

/-- AL18. -/
theorem test_neq : steps [0x0B, 0x0B, 0x00, 0x05, 0x00, 0x05] (·.setAcc 9) (fun t => t.acc == 0) = true := by decide

/-- AL19. -/
theorem test_lt_unsigned : steps [0x0B, 0x0C, 0x09, 0x00, 0x00, 0x01]
    (fun s => (s.setReg 0 0x8000000000000000).setAcc 9) (fun t => t.acc == 0) = true := by decide

/-- AL20. -/
theorem test_gt_unsigned : steps [0x0B, 0x0D, 0x09, 0x00, 0x00, 0x01] (·.setReg 0 0x8000000000000000)
    (fun t => t.acc == 1) = true := by decide

/-- ST2. -/
theorem test_push : steps [0x0B, 0x0E, 0x09, 0x01] (·.setReg 1 0x1234)
    (fun t => t.stack == [(0, 0x34)] && t.sp == 1 && t.pc == 2) = true := by decide

/-- ST3. -/
theorem test_push_overflow : faults [0x0B, 0x0E, 0x00, 0x09] (·.setStack [(0, 1), (1, 2), (2, 3), (3, 4)] 4)
    ⟨4, 11, 0, none, some 0x0E, some 4⟩ = true := by decide

/-- ST15. -/
theorem test_pop : steps [0x0B, 0x0F, 0x09, 0x00]
    (fun s => (s.setReg 0 0xFFFFFFFFFFFFFFFF).setStack [(0, 0xFE)] 1)
    (fun t => t.reg 0 == 0xFE && t.sp == 0) = true := by decide

/-- ST5. -/
theorem test_pop_underflow : faults [0x0B, 0x0F, 0x09, 0x04] id ⟨4, 12, 0, none, some 0x0F, some 0⟩ = true := by decide

/-- ST7. -/
theorem test_dup : steps [0x0B, 0x10] (·.setStack [(0, 9)] 1)
    (fun t => t.stack == [(0, 9), (1, 9)] && t.sp == 2 && t.pc == 1) = true := by decide

/-- ST9. -/
theorem test_dup_overflow : faults [0x0B, 0x10] (·.setStack [(0, 1), (1, 2), (2, 3), (3, 4)] 4)
    ⟨4, 11, 0, none, some 0x10, some 4⟩ = true := by decide

/-- ST10. -/
theorem test_swap : steps [0x0B, 0x11] (·.setStack [(0, 1), (1, 2)] 2)
    (fun t => t.stack == [(0, 2), (1, 1)] && t.sp == 2 && t.pc == 1) = true := by decide

/-- ST11. -/
theorem test_swap_underflow : faults [0x0B, 0x11] (·.setStack [(0, 1)] 1) ⟨4, 12, 0, none, some 0x11, some 1⟩ = true := by
  decide

/-- JP2. -/
theorem test_jmp_past_the_end : steps [0x0B, 0x12, 0x00, 0x28, 0x0B, 0x00] id
    (fun t => t.pc == 40 && t.engState == .halted) = true := by decide

/-- JP9. -/
theorem test_jmp_function : steps [0x0B, 0x12, 0x0A, 0x00, 0x0B, 0x20, 0x0A, 0x00, 0x0B, 0x00] id
    (fun t => t.pc == 4 && t.engState == .running) = true := by decide

/-- JP4. -/
theorem test_jz_taken :
    steps [0x0B, 0x13, 0x0A, 0x00, 0x0B, 0x20, 0x0A, 0x00, 0x0B, 0x00] id (fun t => t.pc == 4) = true := by decide

/-- JP8. -/
theorem test_jz_checks_untaken_index :
    faults [0x0B, 0x13, 0x0A, 0x01, 0x0B, 0x20, 0x0A, 0x00, 0x0B, 0x00] (·.setAcc 3)
      ⟨6, 19, 0, some 1, some 0x13, some 1⟩ = true := by decide

/-- JP12. -/
theorem test_jnz_taken : steps [0x0B, 0x14, 0x0A, 0x00, 0x0B, 0x20, 0x0A, 0x00, 0x0B, 0x00]
    (·.setAcc 0xFFFFFFFFFFFFFFFF) (fun t => t.pc == 4) = true := by decide

/-- JP7. -/
theorem test_jnz_not_taken :
    steps [0x0B, 0x14, 0x0A, 0x00, 0x0B, 0x20, 0x0A, 0x00, 0x0B, 0x00] id (fun t => t.pc == 2) = true := by decide

/-- HX4. -/
theorem test_load_same_register : steps [0x0B, 0x15, 0x09, 0x01, 0x09, 0x01]
    (fun s => ((s.setReg 1 2).setHeap [(2, 0x99)]).setExt [⟨0, 4⟩]) (fun t => t.reg 1 == 0x99) = true := by decide

/-- HX3. -/
theorem test_load_out_of_range : faults [0x0B, 0x15, 0x09, 0x03, 0x08, 0x08] id
    ⟨2, 8, 0, none, some 0x15, some 8⟩ = true := by decide

/-- HX8. -/
theorem test_store_two_extents : steps [0x0B, 0x16, 0x08, 0x00, 0x00, 0x02, 0x00, 0x01, 0x00, 0x02]
    (·.setExt [⟨0, 1⟩, ⟨1, 2⟩]) (fun t => t.heap == [(0, 1), (1, 2)] && t.pc == 5) = true := by decide

/-- HX10. -/
theorem test_store_truncated : faults [0x0B, 0x16, 0x08, 0x00, 0x00, 0x03, 0x00, 0x01] (·.setExt [⟨0, 4⟩])
    ⟨6, 16, 0, some 4, some 0x16, none⟩ = true := by decide

/-- HX11. -/
theorem test_write : steps [0x0B, 0x17, 0x08, 0x00, 0x00, 0x03]
    (fun s => (s.setHeap [(0, 0x6D), (1, 0x61)]).setExt [⟨0, 5⟩]) (fun t => t.outq == [0x6D, 0x61, 0x00]) = true := by
  decide

/-- HX12. -/
theorem test_write_out_of_range : faults [0x0B, 0x17, 0x08, 0x06, 0x00, 0x03] id
    ⟨2, 8, 0, none, some 0x17, some 8⟩ = true := by decide

/-- HX15. -/
theorem test_read : steps [0x0B, 0x18, 0x08, 0x00, 0x00, 0x03]
    (fun s => (s.setExt [⟨0, 3⟩]).setIn [0x41, 0x42, 0x43, 0x44])
    (fun t => t.heap == [(0, 0x41), (1, 0x42), (2, 0x43)] && t.inq == [0x44]) = true := by decide

/-- HX17. -/
theorem test_read_checks_addresses_first : faults [0x0B, 0x18, 0x08, 0x02, 0x00, 0x03]
    (fun s => (s.setExt [⟨0, 3⟩]).setIn [0x41]) ⟨2, 5, 0, none, some 0x18, some 3⟩ = true := by decide

/-- HX18. -/
theorem test_flush : steps [0x0B, 0x19] (·.setOut [0x6D, 0x61])
    (fun t => t.outq == [] && t.devLog == [[0x6D, 0x61]] && t.pc == 1) = true := by decide

/-- MV2. -/
theorem test_mov : steps [0x0B, 0x1A, 0x09, 0x3B, 0x09, 0x00] (·.setReg 0 0x55) (fun t => t.reg 59 == 0x55) = true := by
  decide

/-- MV3. -/
theorem test_mov_bad_register : faults [0x0B, 0x1A, 0x09, 0x3C, 0x00, 0x01] id
    ⟨6, 17, 0, some 1, some 0x1A, some 60⟩ = true := by decide

/-- MV4. -/
theorem test_inc_register_wraps : steps [0x0B, 0x1B, 0x09, 0x00] (·.setReg 0 0xFFFFFFFFFFFFFFFF)
    (fun t => t.reg 0 == 0) = true := by decide

/-- MV9. -/
theorem test_inc_through_register : steps [0x0B, 0x1B, 0x0D, 0x00]
    (fun s => ((s.setReg 0 1).setHeap [(1, 5)]).setExt [⟨0, 8⟩])
    (fun t => t.heap == [(1, 5), (5, 1)] && t.reg 0 == 1) = true := by decide

/-- MV5. -/
theorem test_dec_register_wraps :
    steps [0x0B, 0x1C, 0x09, 0x00] id (fun t => t.reg 0 == 0xFFFFFFFFFFFFFFFF) = true := by decide

/-- MV7. -/
theorem test_dec_byte_wraps : steps [0x0B, 0x1C, 0x08, 0x01] (·.setExt [⟨0, 2⟩])
    (fun t => t.heap == [(1, 0xFF)] && t.pc == 2) = true := by decide

/-- MV13. -/
theorem test_alloc_lowest_gap : steps [0x0B, 0x1D, 0x09, 0x02, 0x00, 0x02]
    (fun s => (s.setReg 2 7).setExt [⟨2, 4⟩, ⟨6, 8⟩])
    (fun t => t.reg 2 == 0 && t.ext == [⟨0, 2⟩, ⟨2, 4⟩, ⟨6, 8⟩]) = true := by decide

/-- MV14. -/
theorem test_alloc_no_fit : faults [0x0B, 0x1D, 0x09, 0x02, 0x00, 0x03] (·.setExt [⟨2, 4⟩, ⟨6, 8⟩])
    ⟨2, 3, 0, none, some 0x1D, some 3⟩ = true := by decide

/-- MV17. -/
theorem test_free_interior : steps [0x0B, 0x1E, 0x08, 0x03]
    (fun s => (s.setHeap [(2, 1), (3, 2)]).setExt [⟨2, 5⟩]) (fun t => t.heap == [] && t.ext == []) = true := by decide

/-- MV18. -/
theorem test_free_outside : faults [0x0B, 0x1E, 0x08, 0x05] (·.setExt [⟨0, 5⟩])
    ⟨2, 6, 0, none, some 0x1E, some 5⟩ = true := by decide

/-- MV27. -/
theorem test_realloc_moves : steps [0x0B, 0x1F, 0x09, 0x00, 0x00, 0x04]
    (fun s => (s.setHeap [(0, 0x41), (1, 0x42), (3, 7)]).setExt [⟨0, 2⟩, ⟨3, 4⟩])
    (fun t => t.reg 0 == 4 && t.heap == [(3, 7), (4, 0x41), (5, 0x42)] && t.ext == [⟨3, 4⟩, ⟨4, 8⟩]) = true := by decide

/-- MV21. -/
theorem test_realloc_shrinks : steps [0x0B, 0x1F, 0x09, 0x00, 0x00, 0x01]
    (fun s => (s.setHeap [(0, 1), (1, 2), (2, 3)]).setExt [⟨0, 3⟩])
    (fun t => t.heap == [(0, 1)] && t.ext == [⟨0, 1⟩]) = true := by decide

/-- FN1. -/
theorem test_func_appends_again :
    steps [0x0B, 0x20, 0x0A, 0x00, 0x0B, 0x00] id (fun t => t.pc == 2 && t.jt == [2, 2]) = true := by decide

/-- FE14. -/
theorem test_func_any_label :
    steps [0x0B, 0x20, 0x00, 0x00, 0x0B, 0x00] id (fun t => t.pc == 2 && t.jt == [2]) = true := by decide

/-- FN4. -/
theorem test_call : steps [0x0B, 0x21, 0x0A, 0x00, 0x0B, 0x00, 0x0B, 0x22, 0x0B, 0x20, 0x0A, 0x05, 0x0B, 0x22] id
    (fun t => t.pc == 6 && t.cs == [2]) = true := by decide

/-- FN6. -/
theorem test_call_bad_index : faults [0x0B, 0x21, 0x0A, 0x03, 0x0B, 0x00] id
    ⟨6, 19, 0, some 1, some 0x21, some 3⟩ = true := by decide

/-- FN7. -/
theorem test_ret : steps [0x0B, 0x22, 0x0B, 0x00, 0x0B, 0x00] (·.setCs [2]) (fun t => t.pc == 2 && t.cs == []) = true := by
  decide

/-- FN8. -/
theorem test_ret_empty : faults [0x0B, 0x22] id ⟨5, 14, 0, none, some 0x22, none⟩ = true := by decide

/-- AC3. -/
theorem test_wracc : steps [0x0B, 0x23, 0x0A, 0x00, 0x0B, 0x20, 0x0A, 0x00] id (fun t => t.acc == 4) = true := by decide

/-- AC5. -/
theorem test_reacc : steps [0x0B, 0x24, 0x09, 0x02] (fun s => (s.setReg 2 5).setAcc 0xFFFFFFFFFFFFFFFF)
    (fun t => t.reg 2 == 0xFFFFFFFFFFFFFFFF && t.pc == 2) = true := by decide

/-- AC4. -/
theorem test_reacc_bad_register : faults [0x0B, 0x24, 0x00, 0x3D] (·.setAcc 1)
    ⟨6, 17, 0, some 1, some 0x24, some 61⟩ = true := by decide

/-- FE1. -/
theorem test_fetch_not_op : faults [0x00, 0x0B] id ⟨1, 1, 0, some 0, none, none⟩ = true := by decide

/-- FE2. -/
theorem test_fetch_undefined : faults [0x0B, 0x25] id ⟨1, 2, 0, some 0, none, some 37⟩ = true := by decide

/-- FE8: the first failing operand decides (R158). -/
theorem test_first_operand_decides : faults [0x0B, 0x01, 0x09, 0x46, 0x09, 0x50] id
    ⟨6, 17, 0, some 1, some 0x01, some 70⟩ = true := by decide

/-! ## Start, and the table's words -/

/-- FE12: the pre-scan scans STORE's data too. -/
theorem test_prescan_store_data :
    (begun [0x0B, 0x12, 0x00, 0x07, 0x0B, 0x16, 0x08, 0, 0, 0, 0x0B, 0x20, 0x0A, 0x09, 0x0B, 0x00] id).jt = [7] := by
  decide

/-- FE13: a pre-scan fault, before any step. -/
theorem test_prescan_full_table :
    (match start [0x0B, 0x20, 0x0A, 0x00] [] (State.resetWith { Config.vectors with jtCap := some 0 }) with
      | .next t => t.engState == .faulted && faultView t == ⟨6, 20, 0, some 1, some 0x20, none⟩ && t.jt == []
      | _ => false) = true := by decide

/-- DE7. -/
theorem test_start_empty_image_halts : (begun [] id).engState = .halted := by decide

/-- The very next step after `withFetchWord` runs the table's instruction, here WRACC with a zero operand. -/
theorem test_withFetchWord :
    (match step ((State.reset.setAcc 5).withFetchWord 16 0x0B23) with
      | .next t => t.acc == 0 && t.pc == 2
      | _ => false) = true := by decide

/-- R330: no step before `start`. -/
theorem test_step_in_ready :
    (match step State.reset with
      | .fault r => r == .notStarted
      | _ => false) = true := by decide

/-! ## Every statement's hypotheses are met -/

/-- A running state that meets the invariant: three stack bytes, a heap byte in each of two extents, one call, one function,
queued bytes, and registers 0 to 3 that hold a live address, a free one, the heap's size and an address inside an extent. -/
def rich : State :=
  { State.reset with
    engState := .running
    regs     := (((Vector.replicate 60 0).set 1 2).set 2 8).set 3 5
    acc      := 3
    stream   := [⟨.op, 0x00⟩, ⟨.op, 0x20⟩, ⟨.func, 0⟩, ⟨.op, 0x00⟩]
    jt       := [3]
    cs       := [2]
    stack    := [(0, 5), (1, 6), (2, 7)]
    sp       := 3
    heap     := [(0, 0x41), (1, 0x42), (5, 0x43)]
    ext      := [⟨0, 2⟩, ⟨4, 6⟩]
    outq     := [1]
    inq      := [0x61, 0x62]
    devLog   := [[9]] }

/-- The state `rich` with every table and the stack full. -/
def full : State :=
  { rich with
    config := { Config.vectors with stackCap := 3, csCap := some 1, jtCap := some 1, outCap := some 2 } }

theorem witness_inv : Inv rich where
  heapWf := by decide
  heapLive := by decide
  extProper := by decide
  extOrdered := by decide
  stackWf := by decide
  stackInside := by decide
  spBound := by decide
  csBound := by intro c h; simp [rich, State.reset, State.resetWith, Config.vectors] at h
  jtBound := by intro c h; simp [rich, State.reset, State.resetWith, Config.vectors] at h
  outBound := by intro c h; simp [rich, State.reset, State.resetWith, Config.vectors] at h
  jtInside := by decide
  csInside := by decide
  readyAtStart := by decide
  runningInside := by decide
  haltedAtEnd := by decide
  faultRecorded := by decide
  faultConsistent := by decide

theorem witness_DecodeOfEncode :
    (Instr.store (some ⟨.addr, 0⟩) (some ⟨.u8, 255⟩) [⟨.noType, 255⟩]).wellFormed .compact = true ∧
    (Instr.mov (some ⟨.reg, 59⟩) (some ⟨.u128, 0xFFFFFFFFFFFFFFFF⟩)).wellFormed .wide = true ∧
    (Instr.dec (some ⟨.f32, 0xFFFFFFFF⟩)).wellFormed .wide = true := by decide

theorem witness_CompactDecoderPointwise : 1 < [(0x0B : Byte), 1, 0, 3, 7].length / 2 ∧ 0x0F ≤ (0x0F : Byte).toNat := by
  decide

theorem witness_CompactEncoderRoundTrips :
    (∀ o ∈ [(⟨.u64, 255⟩ : Operand), ⟨.op, 0⟩], o.payload.toNat ≤ 255) ∧
    (⟨.noType, 255⟩ : Operand) ∈ decodeCompact [0x0F, 0xFF] ∧ 3 < 2 * ([(0x0F : Byte), 7, 0, 9, 1].length / 2) := by decide

theorem witness_WideDecoderTakesOperandsInOrder :
    (List.replicate 16 (0xFF : Byte)).length = (tagOf 0x02).wideWidth ∧ [(1 : Byte)].length = (tagOf 0xFF).wideWidth ∧
    (List.replicate 7 (1 : Byte)).length < (tagOf 0x01).wideWidth := by decide

theorem witness_WideEncoderRoundTrips :
    (∀ o ∈ [(⟨.u128, 0xFFFFFFFFFFFFFFFF⟩ : Operand), ⟨.f32, 0xFFFFFFFF⟩, ⟨.u8, 255⟩],
      o.payload.toNat < 256 ^ o.tag.wideWidth) ∧
    ∀ o ∈ [(⟨.op, 0x24⟩ : Operand), ⟨.i8, 255⟩, ⟨.noType, 0⟩], o.tag.wideWidth = 1 ∧ o.payload.toNat ≤ 255 := by decide

theorem witness_StepRunsTheDecodedInstruction :
    rich.engState = .running ∧ decodeOperands (rich.stream.drop rich.pc) = .ok .nop := by decide

theorem witness_FetchFaultsOnNonOpcodes :
    rich.engState = .running ∧ rich.stream[rich.pc]? = some ⟨.op, 0⟩ ∧
    (rich.jumpTo 2).stream[(rich.jumpTo 2).pc]? = some ⟨.func, 0⟩ ∧
    (placeOperands rich [⟨.op, 0x25⟩]).stream[rich.pc]? = some ⟨.op, 0x25⟩ ∧
    (placeOperands rich [⟨.op, 0x24⟩]).stream[rich.pc]? = some ⟨.op, 0x24⟩ := by decide

theorem witness_StepHaltsExactlyAtTheEnd :
    (∃ t, step rich = .next t ∧ t.engState = .running) ∧ (∃ t, step (rich.jumpTo 3) = .next t ∧ t.engState = .halted) ∧
    ∃ t, step (rich.jumpTo 2) = .next t ∧ t.engState = .faulted := ⟨⟨_, rfl, rfl⟩, ⟨_, rfl, rfl⟩, _, rfl, rfl⟩

theorem witness_FaultsChangeNothingElse :
    (∃ t, step (rich.jumpTo 2) = .next t ∧ t.engState = .faulted) ∧ ∃ t, step rich = .next t ∧ t.engState ≠ .faulted :=
  ⟨⟨_, rfl, rfl⟩, _, rfl, by decide⟩

theorem witness_EveryInstructionRunsEverywhere : rich.engState = .running := rfl

theorem witness_StepsKeepTheStreamAndOnlyFuncGrowsTheJumpTable :
    ∃ t, step (rich.jumpTo 1) = .next t ∧ t.jt ≠ rich.jt := ⟨_, rfl, by decide⟩

theorem witness_StepKeepsTheInvariant :
    (Inv rich ∧ ∃ t, step rich = .next t) ∧
    Inv (State.resetWith Config.vectors) ∧ ∃ t, transact (.start [0x0B, 0x00] [7]) (State.resetWith Config.vectors) = .next t :=
  ⟨⟨witness_inv, _, rfl⟩,
    by constructor <;> simp [State.resetWith, State.len, FaultRecord.none, Memory.wf, withinCapacity], _, rfl⟩

theorem witness_TerminalStatesAreLeftOnlyByReset :
    State.reset.engState = .ready ∧ (rich.setEng .faulted).engState.terminal = true ∧
    ∃ t, transact .reset (rich.setEng .aborted) = .next t := ⟨by decide, by decide, _, rfl⟩

theorem witness_OperandsResolveByTag :
    (59 : Word).toNat = (59 : Fin 60).val ∧ (2 : Word).toNat < rich.sp ∧ rich.sp ≤ (3 : Word).toNat ∧
    (rich.regs.get 1).toNat < rich.config.heapSize ∧ rich.config.heapSize ≤ (rich.regs.get 2).toNat ∧
    60 ≤ (60 : Word).toNat ∧ rich.jt[(0 : Word).toNat]? = some 3 ∧ rich.jt.length ≤ (1 : Word).toNat := by decide

theorem witness_OtherFetchModesIgnoreTheTag :
    (0 : Word).toNat = (0 : Fin 60).val ∧ 60 ≤ (60 : Word).toNat ∧ rich.jt[(0 : Word).toNat]? = some 3 ∧
    rich.jt.length ≤ (1 : Word).toNat := by decide

/-- One operand missing after one that resolves, one missing after one that does not, the only operand missing, and a
STORE with its values. -/
theorem witness_MissingOperandsAreTruncated :
    (Instr.add none (some ⟨.u8, 1⟩)).slots.head? = some none ∧
    (∀ ops ∈ [[(⟨.op, 0x01⟩ : Operand), ⟨.u8, 3⟩], [⟨.op, 0x01⟩, ⟨.reg, 60⟩], [⟨.op, 0x0E⟩]],
      ∃ i, (placeOperands rich ops).engState = .running ∧
        decodeOperands ((placeOperands rich ops).stream.drop rich.pc) = .ok i ∧
        (placeOperands rich ops).stream.length < rich.pc + 1 + i.slots.length) ∧
    ∃ i, decodeOperands ((placeOperands rich [⟨.op, 0x16⟩, ⟨.addr, 0⟩, ⟨.u8, 1⟩, ⟨.u8, 9⟩]).stream.drop rich.pc) = .ok i ∧
      i.opcode = .store ∧ i.tail = [⟨.u8, 9⟩] := by
  refine ⟨by decide, ?_, _, rfl, rfl, rfl⟩
  simp only [List.forall_mem_cons, List.not_mem_nil, false_implies, implies_true, and_true]
  exact ⟨⟨_, rfl, rfl, by decide⟩, ⟨_, rfl, rfl, by decide⟩, ⟨_, rfl, rfl, by decide⟩⟩

theorem witness_AddSubMulWrapIntoAcc :
    typed rich 1 (some ⟨.u8, 255⟩) = .ok 255 ∧ typed rich 2 (some ⟨.reg, 2⟩) = .ok 8 ∧
    typed rich 1 (some ⟨.reg, 60⟩) = .error ⟨.badRegister, some 1, some 60⟩ ∧
    typed rich 2 (some ⟨.op, 1⟩) = .error ⟨.opTagOperand, some 2, none⟩ := by decide

theorem witness_BitwiseOpsWriteAcc :
    typed rich 1 (some ⟨.u8, 255⟩) = .ok 255 ∧ typed rich 2 (some ⟨.reg, 2⟩) = .ok 8 ∧
    typed rich 1 (some ⟨.reg, 60⟩) = .error ⟨.badRegister, some 1, some 60⟩ ∧
    typed rich 2 (some ⟨.op, 1⟩) = .error ⟨.opTagOperand, some 2, none⟩ := by decide

theorem witness_ComparisonsLeaveOneOrZero :
    typed rich 1 (some ⟨.u8, 255⟩) = .ok 255 ∧ typed rich 2 (some ⟨.reg, 2⟩) = .ok 8 ∧
    typed rich 1 (some ⟨.reg, 60⟩) = .error ⟨.badRegister, some 1, some 60⟩ ∧
    typed rich 2 (some ⟨.op, 1⟩) = .error ⟨.opTagOperand, some 2, none⟩ := by decide

theorem witness_DivModAreUnsignedAndFaultOnZero :
    typed rich 1 (some ⟨.u8, 255⟩) = .ok 255 ∧ typed rich 2 (some ⟨.u8, 1⟩) = .ok 1 ∧ (1 : Word) ≠ 0 ∧
    typed rich 2 (some ⟨.reg, 0⟩) = .ok 0 ∧ typed rich 1 (some ⟨.reg, 60⟩) = .error ⟨.badRegister, some 1, some 60⟩ ∧
    typed rich 2 (some ⟨.op, 1⟩) = .error ⟨.opTagOperand, some 2, none⟩ := by decide

theorem witness_NotComplementsOneRegister :
    dest rich 1 (some ⟨.u8, 59⟩) = .ok 59 ∧
    dest rich 1 (some ⟨.reg, 60⟩) = .error ⟨.badRegister, some 1, some 60⟩ := by decide

theorem witness_PushStoresTheLowByte :
    rich.stack.wf ∧ typed rich 1 (some ⟨.u8, 255⟩) = .ok 255 ∧ rich.sp ≠ rich.config.stackCap ∧
    typed full 1 (some ⟨.u8, 255⟩) = .ok 255 ∧ full.sp = full.config.stackCap ∧
    typed rich 1 (some ⟨.reg, 60⟩) = .error ⟨.badRegister, some 1, some 60⟩ := by decide

theorem witness_PopMovesTheTopByte :
    dest rich 1 (some ⟨.reg, 59⟩) = .ok 59 ∧ rich.sp ≠ 0 ∧ dest State.reset 1 (some ⟨.reg, 0⟩) = .ok 0 ∧
    State.reset.sp = 0 ∧ dest rich 1 (some ⟨.reg, 60⟩) = .error ⟨.badRegister, some 1, some 60⟩ := by decide

theorem witness_DupCopiesTheTopByte :
    rich.stack.wf ∧ rich.sp ≠ 0 ∧ rich.sp ≠ rich.config.stackCap ∧ State.reset.sp = 0 ∧ full.sp ≠ 0 ∧
    full.sp = full.config.stackCap := by decide

theorem witness_SwapExchangesTheTopTwoBytes :
    (rich.setStack rich.stack 2).stack.wf ∧ 2 ≤ (rich.setStack rich.stack 2).sp ∧ (rich.setStack rich.stack 1).sp < 2 := by
  decide

theorem witness_JmpGoesToTheResolvedPosition :
    typed rich 1 (some ⟨.func, 0⟩) = .ok 3 ∧ typed rich 1 (some ⟨.u8, 255⟩) = .ok 255 ∧
    typed rich 1 (some ⟨.reg, 60⟩) = .error ⟨.badRegister, some 1, some 60⟩ := by decide

theorem witness_ConditionalJumpsTestAcc :
    funcPos rich 1 (some ⟨.func, 0⟩) = .ok 3 ∧
    funcPos rich 1 (some ⟨.func, 1⟩) = .error ⟨.badFunctionIndex, some 1, some 1⟩ := by decide

theorem witness_MovWritesOneRegister :
    dest rich 1 (some ⟨.reg, 59⟩) = .ok 59 ∧ typed rich 2 (some ⟨.derefStack, 2⟩) = .ok 5 ∧
    dest rich 1 (some ⟨.reg, 60⟩) = .error ⟨.badRegister, some 1, some 60⟩ ∧
    typed rich 2 (some ⟨.op, 1⟩) = .error ⟨.opTagOperand, some 2, none⟩ := by decide

theorem witness_AccumulatorTransfersCopyWholeWords :
    typed rich 1 (some ⟨.reg, 2⟩) = .ok 8 ∧ typed rich 1 (some ⟨.reg, 60⟩) = .error ⟨.badRegister, some 1, some 60⟩ ∧
    dest rich 1 (some ⟨.u8, 59⟩) = .ok 59 ∧ dest rich 1 (some ⟨.reg, 60⟩) = .error ⟨.badRegister, some 1, some 60⟩ := by decide

theorem witness_FuncAppendsThePositionAfterItsLabel :
    untyped rich 1 (some ⟨.op, 7⟩) = .ok 7 ∧ rich.config.jtCap ≠ some rich.jt.length ∧
    untyped full 1 (some ⟨.func, 0⟩) = .ok 0 ∧ full.config.jtCap = some full.jt.length ∧
    untyped rich 1 none = .error ⟨.truncated, some 1, none⟩ := by decide

theorem witness_CallPushesTheReturnPosition :
    funcPos rich 1 (some ⟨.func, 0⟩) = .ok 3 ∧ rich.config.csCap ≠ some rich.cs.length ∧
    funcPos full 1 (some ⟨.u8, 0⟩) = .ok 3 ∧ full.config.csCap = some full.cs.length ∧
    funcPos rich 1 (some ⟨.func, 1⟩) = .error ⟨.badFunctionIndex, some 1, some 1⟩ := by decide

theorem witness_LoadReadsOneHeapByte :
    dest rich 1 (some ⟨.reg, 60⟩) = .error ⟨.badRegister, some 1, some 60⟩ ∧
    typed rich 2 (some ⟨.op, 1⟩) = .error ⟨.opTagOperand, some 2, none⟩ ∧
    dest rich 1 (some ⟨.reg, 0⟩) = .ok 0 ∧ typed rich 2 (some ⟨.addr, 7⟩) = .ok 7 ∧
    (7 : Word).toNat < rich.config.heapSize ∧ typed rich 2 (some ⟨.addr, 8⟩) = .ok 8 ∧
    rich.config.heapSize ≤ (8 : Word).toNat := by decide

theorem witness_StoreWritesExactlyItsBytes :
    rich.heap.wf ∧ typed rich 1 (some ⟨.addr, 4⟩) = .ok 4 ∧ typed rich 2 (some ⟨.u8, 2⟩) = .ok 2 ∧
    (∀ i, i < (2 : Word).toNat → typed rich (3 + i) [⟨.u8, 7⟩, ⟨.u8, 7⟩, ⟨.op, 0⟩][i]? = .ok 7) ∧
    ∀ i, i < (2 : Word).toNat → live rich.ext ((4 : Word).toNat + i) = true := by decide

theorem witness_StoreFaultsInOrder :
    typed rich 1 (some ⟨.reg, 60⟩) = .error ⟨.badRegister, some 1, some 60⟩ ∧
    typed rich 1 (some ⟨.addr, 1⟩) = .ok 1 ∧ typed rich 2 (some ⟨.u8, 2⟩) = .ok 2 ∧ 1 < (2 : Word).toNat ∧
    typed rich 3 (some ⟨.u8, 7⟩) = .ok 7 ∧ typed rich (3 + 1) [(⟨.u8, 7⟩ : Operand)][1]? =
      .error ⟨.truncated, some 4, none⟩ ∧
    (∀ j, j < (2 : Word).toNat → typed rich (3 + j) [⟨.u8, 7⟩, ⟨.u8, 7⟩][j]? = .ok 7) ∧
    live rich.ext ((1 : Word).toNat + 0) = true ∧ live rich.ext ((1 : Word).toNat + 1) = false := by decide

theorem witness_WriteAppendsHeapBytesToOut :
    typed rich 1 (some ⟨.reg, 60⟩) = .error ⟨.badRegister, some 1, some 60⟩ ∧
    typed rich 1 (some ⟨.addr, 6⟩) = .ok 6 ∧ typed rich 2 (some ⟨.u8, 2⟩) = .ok 2 ∧
    (6 : Word).toNat + (2 : Word).toNat ≤ rich.config.heapSize ∧
    withinCapacity full.config.outCap (full.outq.length + (1 : Word).toNat) ∧
    rich.config.heapSize < (6 : Word).toNat + (3 : Word).toNat ∧ full.config.outCap = some 2 ∧
    2 < full.outq.length + (2 : Word).toNat :=
  ⟨by decide, by decide, by decide, by decide, fun c h => by cases h; decide, by decide, by decide, by decide⟩

theorem witness_ReadMovesInputBytesToTheHeap :
    typed rich 1 (some ⟨.reg, 60⟩) = .error ⟨.badRegister, some 1, some 60⟩ ∧
    rich.heap.wf ∧ typed rich 1 (some ⟨.addr, 4⟩) = .ok 4 ∧ typed rich 2 (some ⟨.u8, 2⟩) = .ok 2 ∧
    (∀ i, i < (2 : Word).toNat → live rich.ext ((4 : Word).toNat + i) = true) ∧ (2 : Word).toNat ≤ rich.inq.length ∧
    live rich.ext ((4 : Word).toNat + 2) = false ∧ (rich.setIn [1]).inq.length < (2 : Word).toNat := by decide

theorem witness_IncDecRegisterFormWraps : (59 : Word).toNat = (59 : Fin 60).val ∧ 60 ≤ (60 : Word).toNat := by decide

theorem witness_IncDecHeapFormWrapsOneByte :
    (⟨.derefHeapReg, 1⟩ : Operand).tag ≠ .reg ∧ typed rich 1 (some ⟨.addr, 5⟩) = .ok 5 ∧
    live rich.ext (5 : Word).toNat = true ∧ typed rich 1 (some ⟨.addr, 6⟩) = .ok 6 ∧
    live rich.ext (6 : Word).toNat = false ∧
    typed rich 1 (some ⟨.derefHeapReg, 2⟩) = .error ⟨.readOutOfRange, some 1, some 8⟩ := by decide

/-- The free ranges of `rich` are 2..3 and 6..7. -/
theorem rich_fits_two : LowestFit rich 2 2 := by
  refine ⟨⟨by decide, fun x h1 h2 => ?_⟩, fun b hb hf => ?_⟩
  · obtain rfl | rfl : x = 2 ∨ x = 3 := by omega
    · decide
    · decide
  · have := hf.2 1 (by omega) (by omega)
    exact absurd this (by decide)

theorem rich_fits_none (a : Nat) : ¬ Fits rich 3 a := by
  intro h
  have h1 : a + 3 ≤ 8 := h.1
  by_cases h2 : a ≤ 1
  · exact absurd (h.2 1 (by omega) (by omega)) (by decide)
  · by_cases h3 : a ≤ 4
    · exact absurd (h.2 4 (by omega) (by omega)) (by decide)
    · exact absurd (h.2 5 (by omega) (by omega)) (by decide)

theorem witness_AllocTakesTheLowestFit :
    dest rich 1 (some ⟨.reg, 60⟩) = .error ⟨.badRegister, some 1, some 60⟩ ∧
    Inv rich ∧ dest rich 1 (some ⟨.reg, 3⟩) = .ok 3 ∧ typed rich 2 (some ⟨.u8, 2⟩) = .ok 2 ∧ (2 : Word) ≠ 0 ∧
    LowestFit rich (2 : Word).toNat 2 ∧ typed rich 2 (some ⟨.u8, 0⟩) = .ok 0 ∧
    typed rich 2 (some ⟨.u8, 3⟩) = .ok 3 ∧ ∀ a, ¬ Fits rich (3 : Word).toNat a :=
  ⟨by decide, witness_inv, by decide, by decide, by decide, rich_fits_two, by decide, by decide, rich_fits_none⟩

theorem witness_FreeReleasesTheContainingExtent :
    Inv rich ∧ typed rich 1 (some ⟨.reg, 3⟩) = .ok 5 ∧ containing rich.ext (5 : Word).toNat = some ⟨4, 6⟩ ∧
    typed rich 1 (some ⟨.addr, 6⟩) = .ok 6 ∧ containing rich.ext (6 : Word).toNat = none ∧
    typed rich 1 none = .error ⟨.truncated, some 1, none⟩ :=
  ⟨witness_inv, by decide, by decide, by decide, by decide, by decide⟩

/-- Shrinking by one byte, and growth up to the next extent. -/
theorem witness_ReallocResizesInPlace :
    Inv rich ∧ dest rich 1 (some ⟨.reg, 0⟩) = .ok 0 ∧ containing rich.ext (rich.regs.get 0).toNat = some ⟨0, 2⟩ ∧
    typed rich 2 (some ⟨.u8, 1⟩) = .ok 1 ∧ (1 : Word) ≠ 0 ∧ (1 : Word).toNat ≤ 2 - 0 ∧
    typed rich 2 (some ⟨.u8, 4⟩) = .ok 4 ∧ (4 : Word) ≠ 0 ∧ 0 + (4 : Word).toNat ≤ rich.config.heapSize ∧
    ∀ b, b < 0 + (4 : Word).toNat → 2 ≤ b → live rich.ext b = false :=
  ⟨witness_inv, by decide, by decide, by decide, by decide, by decide, by decide, by decide, by decide, by decide⟩

/-- The state `rich` with the extent at 0 one byte long, address 1 free and address 2 not: a 2-byte REALLOC must move. -/
def packed : State := { rich with heap := [(0, 0x41)], ext := [⟨0, 1⟩, ⟨1, 2⟩, ⟨4, 6⟩] }

theorem packed_inv : Inv packed :=
  { witness_inv with
    heapWf := by decide
    heapLive := by decide
    extProper := by decide
    extOrdered := by decide }

theorem witness_ReallocMovesToTheLowestFit :
    Inv packed ∧ dest packed 1 (some ⟨.reg, 0⟩) = .ok 0 ∧ typed packed 2 (some ⟨.u8, 2⟩) = .ok 2 ∧
    containing packed.ext (packed.regs.get 0).toNat = some ⟨0, 1⟩ ∧ 1 - 0 < (2 : Word).toNat ∧
    ¬ (0 + (2 : Word).toNat ≤ packed.config.heapSize ∧
      ∀ b, 1 ≤ b → b < 0 + (2 : Word).toNat → live packed.ext b = false) ∧
    LowestFit packed (2 : Word).toNat 2 := by
  refine ⟨packed_inv, by decide, by decide, by decide, by decide, fun h => ?_, ⟨by decide, fun x h1 h2 => ?_⟩,
    fun b hb hf => ?_⟩
  · exact absurd (h.2 1 (by decide) (by decide)) (by decide)
  · obtain rfl | rfl : x = 2 ∨ x = 3 := by
      have : x < 2 + 2 := h2
      omega
    · decide
    · decide
  · have h2 : ∀ x, b ≤ x → x < b + 2 → live packed.ext x = false := hf.2
    exact absurd (h2 1 (by omega) (by omega)) (by decide)

theorem witness_ReallocFaultsInOrder :
    Inv rich ∧ dest rich 1 (some ⟨.reg, 60⟩) = .error ⟨.badRegister, some 1, some 60⟩ ∧
    containing rich.ext (rich.regs.get 1).toNat = none ∧ typed rich 2 (some ⟨.u8, 0⟩) = .ok 0 ∧
    containing rich.ext (rich.regs.get 0).toNat = some ⟨0, 2⟩ ∧ typed rich 2 (some ⟨.u8, 5⟩) = .ok 5 ∧
    2 - 0 < (5 : Word).toNat ∧
    ¬ (0 + (5 : Word).toNat ≤ rich.config.heapSize ∧
      ∀ b, 2 ≤ b → b < 0 + (5 : Word).toNat → live rich.ext b = false) ∧
    ∀ a, ¬ Fits rich (5 : Word).toNat a := by
  refine ⟨witness_inv, by decide, by decide, by decide, by decide, by decide, by decide, fun h => ?_, fun a h => ?_⟩
  · exact absurd (h.2 4 (by decide) (by decide)) (by decide)
  · have h1 : a + 5 ≤ 8 := h.1
    exact rich_fits_none a ⟨by show a + 3 ≤ 8; omega, fun x h2 h3 => h.2 x h2 (by show x < a + 5; omega)⟩

theorem witness_RetPopsTheNewestRecord :
    rich.cs = [] ++ [2] ∧ State.reset.cs = [] ∧ rich.engState ≠ .faulted ∧
    ∃ t, exec (.call (some ⟨.func, 0⟩)) rich = .next t ∧ t.engState = rich.engState ∧ t.cs = [2, 2] :=
  ⟨by decide, by decide, by decide, _, rfl, by decide, by decide⟩

/-- For each part of the state an instruction that changes it, and a heap byte that changes. -/
theorem witness_OnlyListedInstructionsWriteEachPart :
    (∃ t, exec (.wracc (some ⟨.u8, 4⟩)) rich = .next t ∧ t.acc ≠ rich.acc) ∧
    (∃ t, exec (.reacc (some ⟨.reg, 0⟩)) rich = .next t ∧ t.regs.get 0 ≠ rich.regs.get 0) ∧
    (∃ t, exec (.inc (some ⟨.addr, 5⟩)) rich = .next t ∧ t.heap.read 5 ≠ rich.heap.read 5) ∧
    (∃ t, exec (.free (some ⟨.addr, 5⟩)) rich = .next t ∧ t.ext ≠ rich.ext ∧ live t.ext 5 = false) ∧
    (∃ t, exec .dup rich = .next t ∧ t.stack ≠ rich.stack ∧ t.sp ≠ rich.sp) ∧
    (∃ t, exec .ret rich = .next t ∧ t.cs ≠ rich.cs) ∧
    (∃ t, exec .flush rich = .next t ∧ t.outq ≠ rich.outq ∧ t.devLog ≠ rich.devLog) ∧
    ∃ t, exec (.read (some ⟨.addr, 0⟩) (some ⟨.u8, 1⟩)) rich = .next t ∧ t.inq ≠ rich.inq :=
  ⟨⟨_, rfl, by decide⟩, ⟨_, rfl, by decide⟩, ⟨_, rfl, by decide⟩, ⟨_, rfl, by decide, by decide⟩,
    ⟨_, rfl, by decide, by decide⟩, ⟨_, rfl, by decide⟩, ⟨_, rfl, by decide, by decide⟩, ⟨_, rfl, by decide⟩⟩

/-- One 2-byte extent at the bottom of the heap and the rest free. -/
def bumped : State := { rich with heap := [(0, 0x41), (1, 0x42)], ext := [⟨0, 2⟩] }

theorem witness_OnlyTheDestinationRegisterChanges :
    ∃ t, exec (.reacc (some ⟨.reg, 59⟩)) rich = .next t ∧ t.regs.get 59 ≠ rich.regs.get 59 := ⟨_, rfl, by decide⟩

theorem witness_OnlyLiveHeapBytesChange :
    Inv rich ∧ ∃ t, exec (.free (some ⟨.addr, 5⟩)) rich = .next t ∧ t.heap.read 5 ≠ rich.heap.read 5 ∧
      live t.ext 5 = false := ⟨witness_inv, _, rfl, by decide, by decide⟩

theorem witness_FirstFitIsTheLeastFit : Inv rich ∧ 1 ≤ 1 := ⟨witness_inv, by decide⟩

theorem witness_AllocBumpsWithoutGaps :
    Inv bumped ∧ dest bumped 1 (some ⟨.reg, 3⟩) = .ok 3 ∧ typed bumped 2 (some ⟨.u8, 6⟩) = .ok 6 ∧ (6 : Word) ≠ 0 ∧
    (∀ x, live bumped.ext x = true ↔ x < 2) ∧ 2 + (6 : Word).toNat ≤ bumped.config.heapSize :=
  ⟨{ witness_inv with
      heapWf := by decide
      heapLive := by decide
      extProper := by decide
      extOrdered := by decide }, by decide, by decide, by decide,
    fun x => by simp [live, containing, bumped, Extent.holds], by decide⟩

theorem witness_StackResidueIsUnobservable :
    (rich.setStack rich.stack 2).stack.wf ∧ (rich.setStack [(0, 5), (1, 6)] 2).stack.wf ∧
    SameButResidue (rich.setStack rich.stack 2) (rich.setStack [(0, 5), (1, 6)] 2) := by
  refine ⟨by decide, by decide, rfl, fun k hk => ?_⟩
  obtain rfl | rfl : k = 0 ∨ k = 1 := by
    have : k < 2 := hk
    omega
  · decide
  · decide

theorem witness_ReportsAreNeverReadBack : SameButReports rich (rich.deviceOut [1]) := rfl

/-- Two markers: a table with room for two holds them, one with room for one does not hold the second. -/
theorem witness_PreScanRecordsEveryMarker :
    (List.range 5).filter (fun q => markerAt [⟨.op, 0x20⟩, ⟨.func, 0⟩, ⟨.op, 0⟩, ⟨.op, 0x20⟩, ⟨.func, 7⟩] q) = [0, 3] ∧
    withinCapacity (some 2) [0, 3].length ∧ [0, 3][1]? = some 3 :=
  ⟨by decide, fun c h => by cases h; decide, rfl⟩

theorem witness_StartLoadsAndRuns :
    State.reset.engState = .ready ∧
    preScan Config.vectors.jtCap 0 (decodeImage .compact [0x0B, 0x20, 0x0A, 0x00]) [] = .ok [2] ∧
    preScan (some 0) 0 (decodeImage .compact [0x0B, 0x20, 0x0A, 0x00]) [] =
      .error (0, ⟨.jumpTableFull, some 1, none⟩) ∧ rich.engState ≠ .ready := by decide

theorem witness_AppendAndAbortChangeNothingElse :
    rich.engState.terminal = false ∧ (rich.setEng .halted).engState.terminal = true := by decide

theorem witness_HostReadsCodesViewsAndResult :
    State.reset.engState = .ready ∧ rich.engState = .running ∧ (rich.setEng .halted).engState = .halted ∧
    (faultedBy rich 0x04 ⟨.divByZero, some 2, none⟩).engState = .faulted ∧ (rich.setEng .aborted).engState = .aborted := by
  decide

end Sys2Proof.Tests
end

namespace Sys2Proof.Machine

/-! Reports: the fault record and the device log (10_state.md R37, 60_exceptions.md R333). No operation of the block reads
them, so each commutes with replacing them. -/

section Reports

variable {s u : State} {f : FaultRecord} {l : List (List Byte)}

/-- The state with another fault record and another device log. -/
def State.withReports (s : State) (f : FaultRecord) (l : List (List Byte)) : State := { s with fault := f, devLog := l }

theorem sameButReports_iff {s t : State} : SameButReports s t ↔ ∃ f l, t = s.withReports f l :=
  ⟨fun h => ⟨t.fault, t.devLog, h⟩, by rintro ⟨f, l, rfl⟩; rfl⟩

theorem sameButReports_withReports (s : State) (f : FaultRecord) (l : List (List Byte)) :
    SameButReports s (s.withReports f l) := rfl

theorem withReports_sameButReports (s : State) (f : FaultRecord) (l : List (List Byte)) :
    SameButReports (s.withReports f l) s := rfl

theorem withReports_own (s : State) (f : FaultRecord) (l : List (List Byte)) :
    (s.withReports f l).withReports s.fault s.devLog = s := rfl

@[simp] theorem typed_withReports (j : Nat) (slot : Slot) :
    typed (s.withReports f l) j slot = typed s j slot := rfl

@[simp] theorem untyped_withReports (j : Nat) (slot : Slot) :
    untyped (s.withReports f l) j slot = untyped s j slot := rfl

@[simp] theorem dest_withReports (j : Nat) (slot : Slot) :
    dest (s.withReports f l) j slot = dest s j slot := rfl

@[simp] theorem funcPos_withReports (j : Nat) (slot : Slot) :
    funcPos (s.withReports f l) j slot = funcPos s j slot := rfl

@[simp] theorem memReadBytes_withReports (a n : Nat) :
    memReadBytes (s.withReports f l) a n = memReadBytes s a n := by
  induction n generalizing a with
  | zero => rfl
  | succ n ih => simp only [memReadBytes, ih]; rfl

@[simp] theorem checkLiveBytes_withReports (a n : Nat) :
    checkLiveBytes (s.withReports f l) a n = checkLiveBytes s a n := by
  induction n generalizing a with
  | zero => rfl
  | succ n ih => simp only [checkLiveBytes, ih]; rfl

@[simp] theorem typedMany_withReports (j n : Nat) (data : List Operand) :
    typedMany (s.withReports f l) j n data = typedMany s j n data := by
  induction data generalizing j n with
  | nil => cases n <;> rfl
  | cons o rest ih =>
    cases n with
    | zero => rfl
    | succ n => simp only [typedMany, ih, typed_withReports]

/-! What a shared operation answers does not depend on the reports, and the state it answers keeps them. -/

theorem stackPush_withReports {b : Byte} (h : stackPush s b = .ok u) :
    stackPush (s.withReports f l) b = .ok (u.withReports f l) := by
  obtain ⟨hcap, rfl⟩ := stackPush_ok.mp h
  exact stackPush_ok.mpr ⟨hcap, rfl⟩

theorem stackPop_withReports {b : Byte} (h : stackPop s = .ok (u, b)) :
    stackPop (s.withReports f l) = .ok (u.withReports f l, b) := by
  obtain ⟨hsp, rfl, rfl⟩ := stackPop_ok.mp h
  exact stackPop_ok.mpr ⟨hsp, rfl, rfl⟩

theorem stackDup_withReports (h : stackDup s = .ok u) :
    stackDup (s.withReports f l) = .ok (u.withReports f l) := by
  obtain ⟨hsp, hcap, rfl⟩ := stackDup_ok.mp h
  exact stackDup_ok.mpr ⟨hsp, hcap, rfl⟩

theorem stackSwap_withReports (h : stackSwap s = .ok u) :
    stackSwap (s.withReports f l) = .ok (u.withReports f l) := by
  obtain ⟨hsp, rfl⟩ := stackSwap_ok.mp h
  exact stackSwap_ok.mpr ⟨hsp, rfl⟩

theorem outAppend_withReports {bytes : List Byte} (h : outAppend s bytes = .ok u) :
    outAppend (s.withReports f l) bytes = .ok (u.withReports f l) := by
  obtain ⟨hcap, rfl⟩ := outAppend_ok.mp h
  exact outAppend_ok.mpr ⟨hcap, rfl⟩

theorem inTake_withReports {n : Nat} {bytes : List Byte} (h : inTake s n = .ok (u, bytes)) :
    inTake (s.withReports f l) n = .ok (u.withReports f l, bytes) := by
  obtain ⟨hn, rfl, rfl⟩ := inTake_ok.mp h
  exact inTake_ok.mpr ⟨hn, rfl, rfl⟩

theorem heapAlloc_withReports {n a : Nat} (h : heapAlloc s n = .ok (u, a)) :
    heapAlloc (s.withReports f l) n = .ok (u.withReports f l, a) := by
  obtain ⟨h0, hfit, rfl⟩ := heapAlloc_ok.mp h
  exact heapAlloc_ok.mpr ⟨h0, hfit, rfl⟩

theorem heapFree_withReports {a : Nat} (h : heapFree s a = .ok u) :
    heapFree (s.withReports f l) a = .ok (u.withReports f l) := by
  obtain ⟨e, he, rfl⟩ := heapFree_ok.mp h
  exact heapFree_ok.mpr ⟨e, he, rfl⟩

theorem heapRealloc_withReports {a n b : Nat} (h : heapRealloc s a n = .ok (u, b)) :
    heapRealloc (s.withReports f l) a n = .ok (u.withReports f l, b) := by
  obtain ⟨e, he, h0, hway⟩ := heapRealloc_ok.mp h
  refine heapRealloc_ok.mpr ⟨e, he, h0, ?_⟩
  rcases hway with ⟨hn, rfl, rfl⟩ | ⟨hn, hin, hfree, rfl, rfl⟩ | ⟨hn, hno, hfit, rfl⟩
  · exact .inl ⟨hn, rfl, rfl⟩
  · exact .inr (.inl ⟨hn, hin, hfree, rfl, rfl⟩)
  · exact .inr (.inr ⟨hn, hno, hfit, rfl⟩)

theorem jtAppend_withReports {p : Nat} (h : jtAppend s p = .ok u) :
    jtAppend (s.withReports f l) p = .ok (u.withReports f l) := by
  obtain ⟨hcap, rfl⟩ := jtAppend_ok.mp h
  exact jtAppend_ok.mpr ⟨hcap, rfl⟩

theorem csPush_withReports {p : Nat} (h : csPush s p = .ok u) :
    csPush (s.withReports f l) p = .ok (u.withReports f l) := by
  obtain ⟨hcap, rfl⟩ := csPush_ok.mp h
  exact csPush_ok.mpr ⟨hcap, rfl⟩

theorem csPop_withReports {p : Nat} (h : csPop s = .ok (u, p)) :
    csPop (s.withReports f l) = .ok (u.withReports f l, p) := by
  obtain ⟨hlast, rfl⟩ := csPop_ok.mp h
  exact csPop_ok.mpr ⟨hlast, rfl⟩

theorem bumped_withReports {onReg : Word → Word} {onByte : Byte → Byte} {slot : Slot}
    (h : Bumped onReg onByte slot s u) : Bumped onReg onByte slot (s.withReports f l) (u.withReports f l) := by
  obtain ⟨o, rfl, ⟨ht, i, hi, rfl⟩ | ⟨ht, x, hx, hl, rfl⟩⟩ := h
  · exact ⟨o, rfl, .inl ⟨ht, i, hi, rfl⟩⟩
  · exact ⟨o, rfl, .inr ⟨ht, x, hx, hl, rfl⟩⟩

/-- An instruction has its effect whatever the reports are. It keeps the fault record, and what FLUSH adds to the device
log does not depend on the log. -/
theorem effect_withReports {i : Instr} (f : FaultRecord) (l : List (List Byte)) (h : Effect i s u) :
    ∃ l', Effect i (s.withReports f l) (u.withReports f l') := by
  cases i
  case flush =>
    obtain rfl := h
    exact ⟨l ++ [s.outq], rfl⟩
  all_goals
    refine ⟨l, ?_⟩
    simp only [Effect, typed_withReports, untyped_withReports, dest_withReports, funcPos_withReports,
      typedMany_withReports, memReadBytes_withReports, checkLiveBytes_withReports] at h ⊢
  case nop =>
    obtain rfl := h
    rfl
  case add | sub | mul | and | or | xor | eq | neq | lt | gt | mov =>
    obtain ⟨x, y, hx, hy, rfl⟩ := h
    exact ⟨x, y, hx, hy, rfl⟩
  case div | mod =>
    obtain ⟨x, y, hx, hy, hy0, rfl⟩ := h
    exact ⟨x, y, hx, hy, hy0, rfl⟩
  case not | jmp | wracc | reacc =>
    obtain ⟨x, hx, rfl⟩ := h
    exact ⟨x, hx, rfl⟩
  case jz | jnz =>
    obtain ⟨p, hp, rfl⟩ := h
    exact ⟨p, hp, apply_ite (State.withReports · f l) ..⟩
  case inc | dec => exact bumped_withReports h
  case push =>
    obtain ⟨x, t, hx, ht, rfl⟩ := h
    exact ⟨x, _, hx, stackPush_withReports ht, rfl⟩
  case pop =>
    obtain ⟨i, t, b, hi, ht, rfl⟩ := h
    exact ⟨i, _, b, hi, stackPop_withReports ht, rfl⟩
  case dup =>
    obtain ⟨t, ht, rfl⟩ := h
    exact ⟨_, stackDup_withReports ht, rfl⟩
  case swap =>
    obtain ⟨t, ht, rfl⟩ := h
    exact ⟨_, stackSwap_withReports ht, rfl⟩
  case load =>
    obtain ⟨i, x, b, hi, hx, hb, rfl⟩ := h
    exact ⟨i, x, b, hi, hx, hb, rfl⟩
  case store =>
    obtain ⟨x, k, vs, hx, hk, hv, hc, rfl⟩ := h
    exact ⟨x, k, vs, hx, hk, hv, hc, rfl⟩
  case write =>
    obtain ⟨x, k, bytes, t, hx, hk, hb, ht, rfl⟩ := h
    exact ⟨x, k, bytes, _, hx, hk, hb, outAppend_withReports ht, rfl⟩
  case read =>
    obtain ⟨x, k, t, bytes, hx, hk, hc, ht, rfl⟩ := h
    exact ⟨x, k, _, bytes, hx, hk, hc, inTake_withReports ht, rfl⟩
  case alloc =>
    obtain ⟨i, k, t, a, hi, hk, ht, rfl⟩ := h
    exact ⟨i, k, _, a, hi, hk, heapAlloc_withReports ht, rfl⟩
  case free =>
    obtain ⟨x, t, hx, ht, rfl⟩ := h
    exact ⟨x, _, hx, heapFree_withReports ht, rfl⟩
  case realloc =>
    obtain ⟨i, k, t, a, hi, hk, ht, rfl⟩ := h
    exact ⟨i, k, _, a, hi, hk, heapRealloc_withReports ht, rfl⟩
  case func =>
    obtain ⟨v, t, hv, ht, rfl⟩ := h
    exact ⟨v, _, hv, jtAppend_withReports ht, rfl⟩
  case call =>
    obtain ⟨p, t, hp, ht, rfl⟩ := h
    exact ⟨p, _, hp, csPush_withReports ht, rfl⟩
  case ret =>
    obtain ⟨t, p, ht, rfl⟩ := h
    exact ⟨_, p, csPop_withReports ht, rfl⟩

/-- The instruction answers related states. Where it faults on one state and not on the other, the effect on the other is
also one on the first, and `exec` has one answer. -/
theorem exec_sameButReports {i : Instr} {s t u v : State} (h : SameButReports s t) (hu : exec i s = .next u)
    (hv : exec i t = .next v) : SameButReports u v := by
  obtain ⟨f, l, rfl⟩ := sameButReports_iff.mp h
  rcases exec_cases hu with he | ⟨c, rfl⟩
  · obtain ⟨l', he'⟩ := effect_withReports f l he
    obtain rfl := Host.Outcome.next.inj ((exec_of_effect he').symm.trans hv)
    exact sameButReports_withReports ..
  · rcases exec_cases hv with he | ⟨d, rfl⟩
    · obtain ⟨l', he'⟩ := effect_withReports s.fault s.devLog he
      rw [withReports_own] at he'
      have hw := Host.Outcome.next.inj ((exec_of_effect he').symm.trans hu)
      rw [← hw]
      exact withReports_sameButReports ..
    · rfl

theorem endOfStream_withReports (s : State) (f : FaultRecord) (l : List (List Byte)) :
    endOfStream (s.withReports f l) = (endOfStream s).withReports f l := by
  rw [endOfStream_eq, endOfStream_eq]
  rfl

theorem endOfStream_sameButReports {s t : State} (h : SameButReports s t) :
    SameButReports (endOfStream s) (endOfStream t) := by
  obtain ⟨f, l, rfl⟩ := sameButReports_iff.mp h
  rw [endOfStream_withReports]
  exact sameButReports_withReports ..

/-- The fetch finds the same instruction, or ends the step in related states. -/
theorem fetch_sameButReports {s t : State} (h : SameButReports s t) :
    (∃ i, fetch s = .ok i ∧ fetch t = .ok i) ∨
      ∃ u v, fetch s = .error u ∧ fetch t = .error v ∧ SameButReports u v := by
  have hend := endOfStream_sameButReports h
  obtain ⟨f, l, rfl⟩ := sameButReports_iff.mp h
  have hops : operandsAtPc (s.withReports f l) = operandsAtPc s := rfl
  unfold fetch
  rw [hops]
  cases decodeOperands (operandsAtPc s) with
  | ok i => exact .inl ⟨i, rfl, rfl⟩
  | error e =>
    refine .inr ?_
    cases e with
    | endOfStream => exact ⟨_, _, rfl, rfl, hend⟩
    | notOpTag => exact ⟨_, _, rfl, rfl, rfl⟩
    | undefinedOpcode p => exact ⟨_, _, rfl, rfl, rfl⟩

theorem step_of_fetch_ok {s u : State} {i : Instr} (hr : s.engState = .running) (hf : fetch s = .ok i)
    (hu : exec i s = .next u) : step s = .next (endOfStream u) := by
  simp only [step, hr, hf, hu, commit]

theorem step_of_fetch_error {s u : State} (hr : s.engState = .running) (hf : fetch s = .error u) :
    step s = .next u := by
  simp only [step, hr, hf]

theorem step_not_running {s t : State} (hr : s.engState ≠ .running) : step s ≠ .next t :=
  fun h => hr (step_cases h).1

/-- Settles O57: the fetch finds the same in both states, and the instruction and the end-of-stream test keep the
relation. -/
theorem reportsAreNeverReadBack : Obligations.ReportsAreNeverReadBack := by
  intro s t h
  have heng : t.engState = s.engState := by
    obtain ⟨f, l, rfl⟩ := sameButReports_iff.mp h
    rfl
  by_cases hr : s.engState = .running
  · have hr' : t.engState = .running := heng.trans hr
    refine .inl ?_
    rcases fetch_sameButReports h with ⟨i, hs, ht⟩ | ⟨u, v, hs, ht, huv⟩
    · obtain ⟨u, hu⟩ := exec_isNext i s
      obtain ⟨v, hv⟩ := exec_isNext i t
      exact ⟨_, _, step_of_fetch_ok hr hs hu, step_of_fetch_ok hr' ht hv,
        endOfStream_sameButReports (exec_sameButReports h hu hv)⟩
    · exact ⟨u, v, step_of_fetch_error hr hs, step_of_fetch_error hr' ht, huv⟩
  · exact .inr ⟨fun _ => step_not_running hr, fun _ => step_not_running (heng ▸ hr)⟩

end Reports
end Sys2Proof.Machine

namespace Sys2Proof.Machine

/-! Who writes which part of the state (10_state.md R31 to R43): the instructions that may change a part, said once, and
the proof that any other instruction keeps it. -/

section Writers

/-- The fields of the state but `pc`, which every instruction writes. -/
inductive StatePart where
  | config | engState | fault | regs | acc | stream | jt | cs | stack | sp | heap | ext | outq | inq | devLog

/-- The part is the same in both states. -/
def StatePart.Kept (s t : State) : StatePart → Prop
  | .config => t.config = s.config
  | .engState => t.engState = s.engState
  | .fault => t.fault = s.fault
  | .regs => t.regs = s.regs
  | .acc => t.acc = s.acc
  | .stream => t.stream = s.stream
  | .jt => t.jt = s.jt
  | .cs => t.cs = s.cs
  | .stack => t.stack = s.stack
  | .sp => t.sp = s.sp
  | .heap => t.heap = s.heap
  | .ext => t.ext = s.ext
  | .outq => t.outq = s.outq
  | .inq => t.inq = s.inq
  | .devLog => t.devLog = s.devLog

/-- The instructions whose effect may change the part. That an instruction which takes a fault writes `ENG_STATE` and
`FAULT` (60_exceptions.md R310) is no effect of the instruction. -/
def StatePart.writers : StatePart → List Opcode
  | .config | .engState | .fault | .stream => []
  | .regs => [.not, .pop, .load, .mov, .inc, .dec, .alloc, .realloc, .reacc]
  | .acc => [.add, .sub, .mul, .div, .mod, .and, .or, .xor, .eq, .neq, .lt, .gt, .wracc]
  | .jt => [.func]
  | .cs => [.call, .ret]
  | .stack => [.push, .dup, .swap]
  | .sp => [.push, .pop, .dup]
  | .heap => [.store, .read, .inc, .dec, .free, .realloc]
  | .ext => [.alloc, .free, .realloc]
  | .outq => [.write, .flush]
  | .inq => [.read]
  | .devLog => [.flush]

variable {s t u : State} {p : StatePart}

/-! One rule per update of the state: the parts it keeps. -/

@[simp] theorem kept_self : p.Kept s s := by cases p <;> rfl

@[simp] theorem kept_advance (n : Nat) : p.Kept s (t.advance n) ↔ p.Kept s t := by cases p <;> exact Iff.rfl

@[simp] theorem kept_jumpTo (n : Nat) : p.Kept s (t.jumpTo n) ↔ p.Kept s t := by cases p <;> exact Iff.rfl

theorem kept_setReg (d : Fin NREG) (v : Word) (hp : p ≠ .regs) : p.Kept s (t.setReg d v) ↔ p.Kept s t := by
  cases p
  case regs => exact absurd rfl hp
  all_goals exact Iff.rfl

theorem kept_setAcc (v : Word) (hp : p ≠ .acc) : p.Kept s (t.setAcc v) ↔ p.Kept s t := by
  cases p
  case acc => exact absurd rfl hp
  all_goals exact Iff.rfl

theorem kept_setJt (v : List Nat) (hp : p ≠ .jt) : p.Kept s (t.setJt v) ↔ p.Kept s t := by
  cases p
  case jt => exact absurd rfl hp
  all_goals exact Iff.rfl

theorem kept_setCs (v : List Nat) (hp : p ≠ .cs) : p.Kept s (t.setCs v) ↔ p.Kept s t := by
  cases p
  case cs => exact absurd rfl hp
  all_goals exact Iff.rfl

theorem kept_setHeap (m : Memory) (hp : p ≠ .heap) : p.Kept s (t.setHeap m) ↔ p.Kept s t := by
  cases p
  case heap => exact absurd rfl hp
  all_goals exact Iff.rfl

theorem kept_setExt (v : List Extent) (hp : p ≠ .ext) : p.Kept s (t.setExt v) ↔ p.Kept s t := by
  cases p
  case ext => exact absurd rfl hp
  all_goals exact Iff.rfl

theorem kept_setOut (v : List Byte) (hp : p ≠ .outq) : p.Kept s (t.setOut v) ↔ p.Kept s t := by
  cases p
  case outq => exact absurd rfl hp
  all_goals exact Iff.rfl

theorem kept_setIn (v : List Byte) (hp : p ≠ .inq) : p.Kept s (t.setIn v) ↔ p.Kept s t := by
  cases p
  case inq => exact absurd rfl hp
  all_goals exact Iff.rfl

theorem kept_deviceOut (v : List Byte) (hp : p ≠ .devLog) : p.Kept s (t.deviceOut v) ↔ p.Kept s t := by
  cases p
  case devLog => exact absurd rfl hp
  all_goals exact Iff.rfl

theorem kept_setStack (m : Memory) (n : Nat) (hm : p = .stack → m = s.stack) (hn : p = .sp → n = s.sp) :
    p.Kept s (s.setStack m n) := by
  cases p
  case stack => exact hm rfl
  case sp => exact hn rfl
  all_goals rfl

theorem kept_takeFault (q : Nat) (o : Option Byte) (c : FaultCause) (he : p ≠ .engState) (hf : p ≠ .fault) :
    p.Kept s (takeFault q o c s) := by
  cases p
  case engState => exact absurd rfl he
  case fault => exact absurd rfl hf
  all_goals rfl

theorem kept_endOfStream (he : p ≠ .engState) : p.Kept s (endOfStream t) ↔ p.Kept s t := by
  rw [endOfStream_eq]
  cases p
  case engState => exact absurd rfl he
  all_goals exact Iff.rfl

/-- An instruction that does not write a part is none of the part's writers. -/
theorem ne_of_not_mem_writers {q : StatePart} {c : Opcode} (hp : c ∉ p.writers) (hq : c ∈ q.writers) : p ≠ q := by
  rintro rfl
  exact hp hq

theorem kept_of_heapRealloc {a n b : Nat} (h : heapRealloc s a n = .ok (u, b)) (hh : p ≠ .heap) (hx : p ≠ .ext) :
    p.Kept s u := by
  obtain ⟨e, -, -, ⟨-, -, rfl⟩ | ⟨-, -, -, -, rfl⟩ | ⟨-, -, -, rfl⟩⟩ := heapRealloc_ok.mp h
  · rw [kept_setExt _ hx, kept_setHeap _ hh]
    exact kept_self
  · rw [kept_setExt _ hx]
    exact kept_self
  · rw [kept_setExt _ hx, kept_setHeap _ hh]
    exact kept_self

theorem kept_of_bumped {onReg : Word → Word} {onByte : Byte → Byte} {slot : Slot} (h : Bumped onReg onByte slot s t)
    (hr : p ≠ .regs) (hh : p ≠ .heap) : p.Kept s t := by
  obtain ⟨o, -, ⟨-, i, -, rfl⟩ | ⟨-, x, -, -, rfl⟩⟩ := h
  · simp only [kept_advance, kept_setReg _ _ hr, kept_self]
  · simp only [kept_advance, kept_setHeap _ hh, kept_self]

/-- The effect of an instruction keeps every part that the instruction is no writer of. -/
theorem effect_keeps {i : Instr} (h : Effect i s t) (hp : i.opcode ∉ p.writers) : p.Kept s t := by
  have hne : ∀ q : StatePart, i.opcode ∈ q.writers → p ≠ q := fun q => ne_of_not_mem_writers hp
  cases i
  all_goals simp only [Instr.opcode, Effect] at h hne
  case nop =>
    obtain rfl := h
    simp
  case add | sub | mul | and | or | xor | eq | neq | lt | gt =>
    obtain ⟨x, y, -, -, rfl⟩ := h
    simp [kept_setAcc _ (hne .acc (by decide))]
  case div | mod =>
    obtain ⟨x, y, -, -, -, rfl⟩ := h
    simp [kept_setAcc _ (hne .acc (by decide))]
  case wracc =>
    obtain ⟨x, -, rfl⟩ := h
    simp [kept_setAcc _ (hne .acc (by decide))]
  case not | reacc =>
    obtain ⟨i, -, rfl⟩ := h
    simp [kept_setReg _ _ (hne .regs (by decide))]
  case mov =>
    obtain ⟨i, x, -, -, rfl⟩ := h
    simp [kept_setReg _ _ (hne .regs (by decide))]
  case load =>
    obtain ⟨i, x, b, -, -, -, rfl⟩ := h
    simp [kept_setReg _ _ (hne .regs (by decide))]
  case inc | dec => exact kept_of_bumped h (hne .regs (by decide)) (hne .heap (by decide))
  case push =>
    obtain ⟨x, u, -, hu, rfl⟩ := h
    obtain ⟨-, rfl⟩ := stackPush_ok.mp hu
    rw [kept_advance]
    exact kept_setStack _ _ (absurd · (hne .stack (by decide))) (absurd · (hne .sp (by decide)))
  case pop =>
    obtain ⟨i, u, b, -, hu, rfl⟩ := h
    obtain ⟨-, rfl, -⟩ := stackPop_ok.mp hu
    rw [kept_advance, kept_setReg _ _ (hne .regs (by decide))]
    exact kept_setStack _ _ (fun _ => rfl) (absurd · (hne .sp (by decide)))
  case dup =>
    obtain ⟨u, hu, rfl⟩ := h
    obtain ⟨-, -, rfl⟩ := stackDup_ok.mp hu
    rw [kept_advance]
    exact kept_setStack _ _ (absurd · (hne .stack (by decide))) (absurd · (hne .sp (by decide)))
  case swap =>
    obtain ⟨u, hu, rfl⟩ := h
    obtain ⟨-, rfl⟩ := stackSwap_ok.mp hu
    rw [kept_advance]
    exact kept_setStack _ _ (absurd · (hne .stack (by decide))) (fun _ => rfl)
  case jmp =>
    obtain ⟨x, -, rfl⟩ := h
    simp
  case jz | jnz =>
    obtain ⟨q, -, rfl⟩ := h
    split <;> simp
  case store =>
    obtain ⟨x, k, vs, -, -, -, -, rfl⟩ := h
    simp [kept_setHeap _ (hne .heap (by decide))]
  case write =>
    obtain ⟨x, k, bytes, u, -, -, -, hu, rfl⟩ := h
    obtain ⟨-, rfl⟩ := outAppend_ok.mp hu
    simp [kept_setOut _ (hne .outq (by decide))]
  case read =>
    obtain ⟨x, k, u, bytes, -, -, -, hu, rfl⟩ := h
    obtain ⟨-, rfl, -⟩ := inTake_ok.mp hu
    simp [kept_setHeap _ (hne .heap (by decide)), kept_setIn _ (hne .inq (by decide))]
  case flush =>
    obtain rfl := h
    simp [kept_setOut _ (hne .outq (by decide)), kept_deviceOut _ (hne .devLog (by decide))]
  case alloc =>
    obtain ⟨i, k, u, a, -, -, hu, rfl⟩ := h
    obtain ⟨-, -, rfl⟩ := heapAlloc_ok.mp hu
    simp [kept_setReg _ _ (hne .regs (by decide)), kept_setExt _ (hne .ext (by decide))]
  case free =>
    obtain ⟨x, u, -, hu, rfl⟩ := h
    obtain ⟨e, -, rfl⟩ := heapFree_ok.mp hu
    simp [kept_setHeap _ (hne .heap (by decide)), kept_setExt _ (hne .ext (by decide))]
  case realloc =>
    obtain ⟨i, k, u, a, -, -, hu, rfl⟩ := h
    rw [kept_advance, kept_setReg _ _ (hne .regs (by decide))]
    exact kept_of_heapRealloc hu (hne .heap (by decide)) (hne .ext (by decide))
  case func =>
    obtain ⟨v, u, -, hu, rfl⟩ := h
    obtain ⟨-, rfl⟩ := jtAppend_ok.mp hu
    simp [kept_setJt _ (hne .jt (by decide))]
  case call =>
    obtain ⟨q, u, -, hu, rfl⟩ := h
    obtain ⟨-, rfl⟩ := csPush_ok.mp hu
    simp [kept_setCs _ (hne .cs (by decide))]
  case ret =>
    obtain ⟨u, q, hu, rfl⟩ := h
    obtain ⟨-, rfl⟩ := csPop_ok.mp hu
    simp [kept_setCs _ (hne .cs (by decide))]

/-- So does the whole instruction, but for what taking a fault writes. -/
theorem exec_keeps {i : Instr} (h : exec i s = .next t) (hp : i.opcode ∉ p.writers) (he : p ≠ .engState)
    (hf : p ≠ .fault) : p.Kept s t := by
  rcases exec_cases h with h | ⟨c, rfl⟩
  · exact effect_keeps h hp
  · exact kept_takeFault _ _ _ he hf

/-- A part that differs after an instruction names the instruction as one of its writers. -/
theorem mem_writers_of_not_kept {i : Instr} (h : exec i s = .next t) (p : StatePart) (he : p ≠ .engState)
    (hf : p ≠ .fault) (hk : ¬ p.Kept s t) : i.opcode ∈ p.writers :=
  by_contra fun hp => hk (exec_keeps h hp he hf)

/-- Settles O47: each clause is the table `StatePart.writers` at one part. -/
theorem onlyListedInstructionsWriteEachPart : Obligations.OnlyListedInstructionsWriteEachPart := by
  intro i s t h
  have hw := mem_writers_of_not_kept h
  exact ⟨hw .acc nofun nofun, hw .regs nofun nofun, hw .heap nofun nofun, hw .ext nofun nofun,
    hw .stack nofun nofun, hw .sp nofun nofun, hw .cs nofun nofun, hw .outq nofun nofun,
    fun hk => List.mem_singleton.mp (hw .inq nofun nofun hk),
    fun hk => List.mem_singleton.mp (hw .devLog nofun nofun hk)⟩

theorem eq_func_of_opcode {i : Instr} (h : i.opcode = .func) : ∃ label, i = .func label := by
  cases i
  case func label => exact ⟨label, rfl⟩
  all_goals exact Opcode.noConfusion h

/-- FUNC without a fault has a label, and appends the position after it (46_function_call.md R270). -/
theorem effect_func_jt {label : Slot} (h : Effect (.func label) s t) :
    label.isSome ∧ t.jt = s.jt ++ [s.pc + 2] := by
  obtain ⟨v, u, hv, hu, rfl⟩ := h
  obtain ⟨o, rfl, -⟩ := untyped_ok.mp hv
  obtain ⟨-, rfl⟩ := jtAppend_ok.mp hu
  exact ⟨rfl, rfl⟩

/-- An instruction that changes `JT` is a FUNC with a label, and appends `pc + 2`. -/
theorem exec_jt {i : Instr} (h : exec i s = .next t) (hj : t.jt ≠ s.jt) :
    t.jt = s.jt ++ [s.pc + 2] ∧ ∃ label, i = .func (some label) := by
  obtain ⟨slot, rfl⟩ := eq_func_of_opcode (List.mem_singleton.mp (mem_writers_of_not_kept h .jt nofun nofun hj))
  rcases exec_cases h with he | ⟨c, rfl⟩
  · obtain ⟨hs, ht⟩ := effect_func_jt he
    obtain ⟨label, rfl⟩ := Option.isSome_iff_exists.mp hs
    exact ⟨ht, label, rfl⟩
  · exact absurd rfl hj

/-- Settles O46: `STREAM` and the parameters have no writer and FUNC is the only writer of `JT`; the fetch and the
end-of-stream test write none of them. -/
theorem stepsKeepTheStreamAndOnlyFuncGrowsTheJumpTable :
    Obligations.StepsKeepTheStreamAndOnlyFuncGrowsTheJumpTable := by
  intro s t h
  obtain ⟨-, ⟨i, u, hd, hu, rfl⟩ | ⟨-, rfl⟩ | ⟨c, rfl⟩⟩ := step_cases h
  · simp only [endOfStream_stream, endOfStream_config, endOfStream_jt]
    have hstream : u.stream = s.stream := exec_keeps (p := .stream) hu (by simp [StatePart.writers]) nofun nofun
    have hconfig : u.config = s.config := exec_keeps (p := .config) hu (by simp [StatePart.writers]) nofun nofun
    refine ⟨hstream, hconfig, fun hj => ?_⟩
    obtain ⟨hjt, label, rfl⟩ := exec_jt hu hj
    exact ⟨hjt, label, hd⟩
  · simp
  · simp

/-- The only register an instruction changes is the one its first operand names, if any (10_state.md R31). -/
def RegisterOfFirstOperand (i : Instr) (s t : State) : Prop :=
  t.regs = s.regs ∨
    ∃ (o : Operand) (d : Fin NREG) (v : Word),
      i.slots.head? = some (some o) ∧ o.payload.toNat = d.val ∧ t.regs = s.regs.set d v

theorem registerOfFirstOperand_of_dest {i : Instr} {slot : Slot} {d : Fin NREG} {v : Word}
    (hi : i.slots.head? = some slot) (hd : dest s 1 slot = .ok d) (ht : t.regs = s.regs.set d v) :
    RegisterOfFirstOperand i s t := by
  obtain ⟨o, rfl, ho⟩ := dest_ok.mp hd
  exact .inr ⟨o, d, v, hi, ho, ht⟩

theorem registerOfFirstOperand_of_bumped {i : Instr} {onReg : Word → Word} {onByte : Byte → Byte} {slot : Slot}
    (hi : i.slots.head? = some slot) (h : Bumped onReg onByte slot s t) : RegisterOfFirstOperand i s t := by
  obtain ⟨o, rfl, ⟨-, d, hd, rfl⟩ | ⟨-, x, -, -, rfl⟩⟩ := h
  · exact .inr ⟨o, d, _, hi, registerIndex_ok.mp hd, rfl⟩
  · exact .inl rfl

/-- The effect of an instruction writes at most the register of its first operand. -/
theorem effect_register {i : Instr} (h : Effect i s t) : RegisterOfFirstOperand i s t := by
  by_cases hp : i.opcode ∈ StatePart.regs.writers
  case neg => exact .inl (effect_keeps (p := .regs) h hp)
  cases i
  case not | reacc =>
    obtain ⟨d, hd, rfl⟩ := h
    exact registerOfFirstOperand_of_dest rfl hd rfl
  case mov =>
    obtain ⟨d, x, hd, -, rfl⟩ := h
    exact registerOfFirstOperand_of_dest rfl hd rfl
  case load =>
    obtain ⟨d, x, b, hd, -, -, rfl⟩ := h
    exact registerOfFirstOperand_of_dest rfl hd rfl
  case pop =>
    obtain ⟨d, u, b, hd, hu, rfl⟩ := h
    obtain ⟨-, rfl, -⟩ := stackPop_ok.mp hu
    exact registerOfFirstOperand_of_dest rfl hd rfl
  case inc | dec =>
    simp only [Effect] at h
    exact registerOfFirstOperand_of_bumped rfl h
  case alloc =>
    obtain ⟨d, k, u, a, hd, -, hu, rfl⟩ := h
    obtain ⟨-, -, rfl⟩ := heapAlloc_ok.mp hu
    exact registerOfFirstOperand_of_dest rfl hd rfl
  case realloc =>
    obtain ⟨d, k, u, a, hd, -, hu, rfl⟩ := h
    have hregs : u.regs = s.regs := kept_of_heapRealloc (p := .regs) hu nofun nofun
    exact registerOfFirstOperand_of_dest rfl hd (congrArg (·.set d (wordOfNat a)) hregs)
  all_goals exact absurd hp (by simp [Instr.opcode, StatePart.writers])

/-- Settles O48: a register that differs after the instruction is the one that was set. -/
theorem onlyTheDestinationRegisterChanges : Obligations.OnlyTheDestinationRegisterChanges := by
  intro i s t e h hne
  rcases exec_cases h with he | ⟨c, rfl⟩
  · rcases effect_register he with hregs | ⟨o, d, v, hslot, hd, hregs⟩
    · exact absurd (congrArg (·.get e) hregs) hne
    · rw [hregs, State.regs_get_set] at hne
      have hde : d = e := by_contra fun hde => hne (if_neg hde)
      exact ⟨o, hslot, hde ▸ hd⟩
  · exact absurd rfl hne

end Writers

/-! The reset state and what the host reads. -/

/-- Settles O52: each clause is a field of the reset state; the register file is 60 zeros and the memories list no
byte. -/
theorem resetValues : Obligations.ResetValues := by
  rintro c _ rfl
  refine ⟨rfl, rfl, rfl, fun d => ?_, rfl, rfl, rfl, rfl, rfl, fun _ => rfl, fun _ => rfl, rfl, rfl, rfl, rfl, rfl, rfl,
    rfl, rfl, rfl⟩
  exact Vector.getElem_replicate d.isLt

/-- Settles O53: the reset state's tables are empty, and it is in `Ready` with no stream and no fault. -/
theorem resetMeetsTheInvariant : Obligations.ResetMeetsTheInvariant := fun _ =>
  { heapWf := ⟨.nil, nofun⟩
    heapLive := nofun
    extProper := nofun
    extOrdered := .nil
    stackWf := ⟨.nil, nofun⟩
    stackInside := nofun
    spBound := Nat.zero_le _
    csBound := fun _ _ => Nat.zero_le _
    jtBound := fun _ _ => Nat.zero_le _
    outBound := fun _ _ => Nat.zero_le _
    jtInside := nofun
    csInside := nofun
    readyAtStart := fun _ => ⟨rfl, rfl⟩
    runningInside := nofun
    haltedAtEnd := nofun
    faultRecorded := ⟨nofun, fun h => absurd rfl h⟩
    faultConsistent := rfl }

/-- A run has a result exactly in a terminal engine state (70_reset_and_hazards.md R344). -/
theorem runResult_eq_none {s : State} :
    runResult s = none ↔ s.engState = .ready ∨ s.engState = .running := by
  unfold runResult runOutcome
  cases s.engState <;> simp

theorem runResult_of_outcome {s : State} {o : RunOutcome} (h : runOutcome s = some o) :
    runResult s = some ⟨o, s.devLog, s.outq⟩ := by
  simp only [runResult, h, Option.map_some]

/-- Settles O55: the code tables entry by entry; the views are the fields they show; the result of a run by its
outcome. -/
theorem hostReadsCodesViewsAndResult : Obligations.HostReadsCodesViewsAndResult := by
  refine ⟨by decide, ⟨rfl, by decide⟩, ⟨rfl, by decide⟩, fun s => ⟨rfl, rfl, rfl, runResult_eq_none, ?_, ?_, ?_⟩⟩
  all_goals
    intro h
    exact runResult_of_outcome (by simp only [runOutcome, h])
end Sys2Proof.Machine

namespace Sys2Proof.Machine

/-! First-fit as a specification: its answer is the lowest fit, and there is none exactly where nothing fits
(20_memory.md R65). -/

section FirstFit

variable {s : State} {n a : Nat}

/-- A proper extent that meets the range `b .. b+n-1` makes an address of it live. -/
theorem not_fits_of_meets (h : Inv s) {e : Extent} (he : e ∈ s.ext) (hn : 1 ≤ n) (hstop : a < e.stop)
    (hstart : e.start < a + n) : ¬ Fits s n a := by
  rintro ⟨-, hfree⟩
  have hproper := (h.extProper e he).1
  have hlive : live s.ext (max e.start a) = true := live_iff.mpr ⟨e, he, by omega, by omega⟩
  rw [hfree _ (by omega) (by omega)] at hlive
  cases hlive

theorem lowestFit_of_firstFit (h : Inv s) (hn : 1 ≤ n) (hf : firstFit s n = some a) : LowestFit s n a := by
  obtain ⟨-, hin, hapart, hleast⟩ := firstFitFrom_some h.extents (fun _ _ => Nat.zero_le _) hf
  refine ⟨⟨hin, fun x hax hxa => ?_⟩, fun b hb => ?_⟩
  · rw [Bool.eq_false_iff]
    intro hl
    obtain ⟨e, he, hx⟩ := live_iff.mp hl
    have := hapart e he
    omega
  · obtain ⟨e, he, hstop, hstart⟩ := hleast b (Nat.zero_le _) hb
    exact not_fits_of_meets h he hn hstop hstart

theorem not_fits_of_firstFit_none (h : Inv s) (hn : 1 ≤ n) (hf : firstFit s n = none) (a : Nat) : ¬ Fits s n a := by
  intro hfit
  obtain ⟨e, he, hstop, hstart⟩ :=
    firstFitFrom_none h.extents (fun _ _ => Nat.zero_le _) hf a (Nat.zero_le _) hfit.1
  exact not_fits_of_meets h he hn hstop hstart hfit

theorem LowestFit.unique {b : Nat} (ha : LowestFit s n a) (hb : LowestFit s n b) : a = b := by
  rcases Nat.lt_trichotomy a b with hlt | heq | hgt
  · exact absurd ha.1 (hb.2 a hlt)
  · exact heq
  · exact absurd hb.1 (ha.2 b hgt)

theorem firstFit_eq_none_iff (h : Inv s) (hn : 1 ≤ n) : firstFit s n = none ↔ ∀ a, ¬ Fits s n a := by
  refine ⟨not_fits_of_firstFit_none h hn, fun hno => ?_⟩
  cases hf : firstFit s n with
  | none => rfl
  | some b => exact absurd (lowestFit_of_firstFit h hn hf).1 (hno b)

theorem firstFit_eq_some_iff (h : Inv s) (hn : 1 ≤ n) : firstFit s n = some a ↔ LowestFit s n a := by
  refine ⟨lowestFit_of_firstFit h hn, fun hlow => ?_⟩
  cases hf : firstFit s n with
  | none => exact absurd hlow.1 (not_fits_of_firstFit_none h hn hf a)
  | some b => rw [(lowestFit_of_firstFit h hn hf).unique hlow]

/-- Settles O50: the loop's two outcomes, with the lowest fit unique. -/
theorem firstFitIsTheLeastFit : Obligations.FirstFitIsTheLeastFit :=
  fun _ _ h hn => ⟨fun _ => firstFit_eq_some_iff h hn, firstFit_eq_none_iff h hn⟩

/-- Where exactly the addresses below `a` are live, the lowest fit is `a` (20_memory.md R72). -/
theorem lowestFit_of_no_gap (hlive : ∀ x, live s.ext x = true ↔ x < a) (hn : 1 ≤ n)
    (hin : a + n ≤ s.config.heapSize) : LowestFit s n a := by
  refine ⟨⟨hin, fun x hax _ => ?_⟩, fun b hb hfit => ?_⟩
  · rw [Bool.eq_false_iff]
    exact fun hl => absurd ((hlive x).mp hl) (by omega)
  · exact absurd ((hlive b).mpr hb) (by rw [hfit.2 b le_rfl (by omega)]; exact Bool.false_ne_true)

/-- Settles O51: the lowest fit is `a`, and the new extent continues the live addresses. -/
theorem allocBumpsWithoutGaps : Obligations.AllocBumpsWithoutGaps := by
  intro s d n i k a h hd hk hk0 hlive hin
  have hpos : 1 ≤ k.toNat := Nat.one_le_iff_ne_zero.mpr fun h0 => hk0 (BitVec.eq_of_toNat_eq h0)
  have hfit : firstFit s k.toNat = some a :=
    (firstFit_eq_some_iff h hpos).mpr (lowestFit_of_no_gap hlive hpos hin)
  have halloc := heapAlloc_ok.mpr ⟨Nat.one_le_iff_ne_zero.mp hpos, hfit, rfl⟩
  refine ⟨_, exec_of_effect (i := .alloc d n) ⟨i, k, _, a, hd, hk, halloc, rfl⟩, by simp, fun x => ?_⟩
  simp only [State.advance_ext, State.setReg_ext, State.setExt_ext, live_insertExtent, hlive]
  omega

end FirstFit
end Sys2Proof.Machine

namespace Sys2Proof.Machine

/-! The invariant part by part. The heap's part (20_memory.md R61, R71) and the stack's (R75) are stated of the values
they are about, with one rule per operation; an effect keeps each part, and the engine state is decided by the
end-of-stream test (40_pipeline.md R141). -/

section HeapPart

/-- The heap's part of the invariant, for a heap of a given size: every listed byte is live (20_memory.md R71) and the
extents are proper, disjoint and ordered (R61). -/
structure HeapOk (size : Nat) (heap : Memory) (ext : List Extent) : Prop where
  wf : heap.wf
  listedLive : ∀ c ∈ heap, live ext c.1 = true
  extents : ExtentsOk size ext

variable {size : Nat} {heap : Memory} {ext : List Extent}

theorem Inv.heapOk {s : State} (h : Inv s) : HeapOk s.config.heapSize s.heap s.ext :=
  ⟨h.heapWf, h.heapLive, h.extents⟩

/-- A byte that is not live holds 0 (20_memory.md R71). -/
theorem HeapOk.read_dead (h : HeapOk size heap ext) {a : Nat} (hl : live ext a = false) : heap.read a = 0 := by
  refine Memory.read_of_not_listed fun c hc hca => ?_
  rw [← hca, h.listedLive c hc] at hl
  cases hl

theorem HeapOk.writeBytes (h : HeapOk size heap ext) {a : Nat} {bytes : List Byte}
    (hl : ∀ i, i < bytes.length → live ext (a + i) = true) : HeapOk size (heap.writeBytes a bytes) ext := by
  refine ⟨Memory.wf_writeBytes h.wf a bytes, fun c hc => ?_, h.extents⟩
  rcases Memory.mem_writeBytes hc with hc | ⟨hlo, hhi⟩
  · exact h.listedLive c hc
  · have := hl (c.1 - a) (by omega)
    rwa [Nat.add_sub_cancel' hlo] at this

theorem HeapOk.write (h : HeapOk size heap ext) {a : Nat} (b : Byte) (hl : live ext a = true) :
    HeapOk size (heap.write a b) ext :=
  h.writeBytes (bytes := [b]) fun i hi => by
    obtain rfl : i = 0 := by simpa using hi
    exact hl

/-- A new extent over free addresses of the heap (20_memory.md R67). -/
theorem HeapOk.insert (h : HeapOk size heap ext) {a n : Nat} (hn : 1 ≤ n) (hin : a + n ≤ size)
    (hfree : ∀ x, a ≤ x → x < a + n → live ext x = false) : HeapOk size heap (insertExtent ⟨a, a + n⟩ ext) := by
  have hlt : a < a + n := by omega
  exact ⟨h.wf, fun c hc => live_insertExtent.mpr (.inr (h.listedLive c hc)),
    extentsOk_insertExtent h.extents ⟨hlt, hin⟩ (disjoint_of_free h.extents hlt hfree)⟩

/-- An extent given up with its bytes zeroed (20_memory.md R68). -/
theorem HeapOk.remove (h : HeapOk size heap ext) {e : Extent} (he : e ∈ ext) :
    HeapOk size (heap.zero e.start e.stop) (removeExtent e ext) := by
  refine ⟨Memory.wf_zero h.wf _ _, fun c hc => ?_, extentsOk_removeExtent h.extents e⟩
  obtain ⟨hc, hout⟩ := Memory.mem_zero hc
  exact (live_removeExtent h.extents he).mpr ⟨h.listedLive c hc, by omega⟩

/-- An extent resized in place, the bytes it gives up zeroed (20_memory.md R69). -/
theorem HeapOk.resize (h : HeapOk size heap ext) {e : Extent} (he : e ∈ ext) {k : Nat} (hk : 1 ≤ k)
    (hfit : k ≤ e.stop - e.start ∨
      (e.start + k ≤ size ∧ ∀ b, e.stop ≤ b → b < e.start + k → live ext b = false)) :
    HeapOk size (heap.zero (e.start + k) e.stop) (insertExtent ⟨e.start, e.start + k⟩ (removeExtent e ext)) := by
  refine ⟨Memory.wf_zero h.wf _ _, fun c hc => ?_, extentsOk_resize h.extents he hk hfit⟩
  obtain ⟨hc, hout⟩ := Memory.mem_zero hc
  rw [live_insertExtent, live_removeExtent h.extents he]
  by_cases hin : e.start ≤ c.1 ∧ c.1 < e.start + k
  · exact .inl hin
  · exact .inr ⟨h.listedLive c hc, by omega⟩

/-- An extent moved to free addresses: the bytes are copied into the new one, and the old one is given up
(20_memory.md R69). -/
theorem HeapOk.move (h : HeapOk size heap ext) {e : Extent} (he : e ∈ ext) {a n : Nat} {bytes : List Byte} (hn : 1 ≤ n)
    (hin : a + n ≤ size) (hfree : ∀ x, a ≤ x → x < a + n → live ext x = false) (hlen : bytes.length ≤ n) :
    HeapOk size ((heap.writeBytes a bytes).zero e.start e.stop)
      (insertExtent ⟨a, a + n⟩ (removeExtent e ext)) := by
  have hremoved := h.remove he
  have hfree' : ∀ x, a ≤ x → x < a + n → live (removeExtent e ext) x = false := fun x hax hxa => by
    rw [Bool.eq_false_iff, ne_eq, live_removeExtent h.extents he, hfree x hax hxa]
    exact fun hl => Bool.false_ne_true hl.1
  refine ⟨Memory.wf_zero (Memory.wf_writeBytes h.wf _ _) _ _, fun c hc => ?_, (hremoved.insert hn hin hfree').extents⟩
  obtain ⟨hc, hout⟩ := Memory.mem_zero hc
  rw [live_insertExtent, live_removeExtent h.extents he]
  rcases Memory.mem_writeBytes hc with hc | hnew
  · exact .inr ⟨h.listedLive c hc, by omega⟩
  · have hnew : a ≤ c.1 ∧ c.1 < a + n := by omega
    exact .inl hnew

variable {s t u : State}

/-- The heap's part of the invariant, of a state. -/
abbrev State.HeapOk (s : State) : Prop := Machine.HeapOk s.config.heapSize s.heap s.ext

theorem heapOk_of_heapAlloc (h : Inv s) {n a : Nat} (hu : heapAlloc s n = .ok (u, a)) : u.HeapOk := by
  obtain ⟨hn, hfit, rfl⟩ := heapAlloc_ok.mp hu
  have hn := Nat.one_le_iff_ne_zero.mpr hn
  obtain ⟨⟨hin, hfree⟩, -⟩ := lowestFit_of_firstFit h hn hfit
  exact h.heapOk.insert hn hin hfree

theorem heapOk_of_heapFree (h : Inv s) {a : Nat} (hu : heapFree s a = .ok u) : u.HeapOk := by
  obtain ⟨e, he, rfl⟩ := heapFree_ok.mp hu
  exact h.heapOk.remove (containing_some he).1

/-- An empty range zeroes nothing. -/
theorem Memory.zero_of_le (m : Memory) {lo hi : Nat} (h : hi ≤ lo) : m.zero lo hi = m :=
  List.filter_eq_self.mpr fun c _ => by
    rw [Bool.or_eq_true, decide_eq_true_iff, decide_eq_true_iff]
    omega

theorem heapOk_of_heapRealloc (h : Inv s) {a n b : Nat} (hu : heapRealloc s a n = .ok (u, b)) : u.HeapOk := by
  obtain ⟨e, hc, hn, hway⟩ := heapRealloc_ok.mp hu
  have hn := Nat.one_le_iff_ne_zero.mpr hn
  obtain ⟨he, -⟩ := containing_some hc
  rcases hway with ⟨hle, -, rfl⟩ | ⟨hlt, hin, hfree, -, rfl⟩ | ⟨hlt, -, hfit, rfl⟩
  · exact h.heapOk.resize he hn (.inl hle)
  · have hgrown := h.heapOk.resize he hn (.inr ⟨hin, rangeFree_iff.mp hfree⟩)
    rwa [Memory.zero_of_le _ (by omega)] at hgrown
  · obtain ⟨⟨hin, hfree⟩, -⟩ := lowestFit_of_firstFit h hn hfit
    exact h.heapOk.move he hn hin hfree (by rw [Memory.length_readBytes]; omega)

theorem heapOk_of_bumped (h : Inv s) {onReg : Word → Word} {onByte : Byte → Byte} {slot : Slot}
    (ht : Bumped onReg onByte slot s t) : t.HeapOk := by
  obtain ⟨o, -, ⟨-, i, -, rfl⟩ | ⟨-, x, -, hl, rfl⟩⟩ := ht
  · exact h.heapOk
  · exact h.heapOk.write _ hl

/-- The effect of an instruction keeps the heap's part of the invariant: only the writers of the heap and of `EXT` touch
it. -/
theorem effect_heapOk {i : Instr} (h : Inv s) (ht : Effect i s t) : t.HeapOk := by
  by_cases hw : i.opcode ∈ StatePart.heap.writers ∨ i.opcode ∈ StatePart.ext.writers
  case neg =>
    obtain ⟨hheap, hext⟩ := not_or.mp hw
    have hheap : t.heap = s.heap := effect_keeps (p := .heap) ht hheap
    have hext : t.ext = s.ext := effect_keeps (p := .ext) ht hext
    have hconfig : t.config = s.config := effect_keeps (p := .config) ht List.not_mem_nil
    rw [State.HeapOk, hheap, hext, hconfig]
    exact h.heapOk
  cases i
  case inc | dec =>
    simp only [Effect] at ht
    exact heapOk_of_bumped h ht
  case store =>
    obtain ⟨x, k, vs, -, -, hv, hl, rfl⟩ := ht
    obtain ⟨hlen, -⟩ := typedMany_ok.mp hv
    refine h.heapOk.writeBytes fun i hi => checkLiveBytes_ok.mp hl i ?_
    rwa [List.length_map, hlen] at hi
  case read =>
    obtain ⟨x, k, u, bytes, -, -, hl, hu, rfl⟩ := ht
    obtain ⟨-, rfl, rfl⟩ := inTake_ok.mp hu
    exact h.heapOk.writeBytes fun i hi => checkLiveBytes_ok.mp hl i (hi.trans_le (List.length_take_le _ _))
  case alloc =>
    obtain ⟨i, k, u, a, -, -, hu, rfl⟩ := ht
    exact (heapOk_of_heapAlloc h hu :)
  case free =>
    obtain ⟨x, u, -, hu, rfl⟩ := ht
    exact (heapOk_of_heapFree h hu :)
  case realloc =>
    obtain ⟨i, k, u, a, -, -, hu, rfl⟩ := ht
    exact (heapOk_of_heapRealloc h hu :)
  all_goals exact absurd hw (by simp [Instr.opcode, StatePart.writers])

theorem exec_heapOk {i : Instr} (h : Inv s) (ht : exec i s = .next t) : t.HeapOk := by
  rcases exec_cases ht with he | ⟨c, rfl⟩
  · exact effect_heapOk h he
  · exact h.heapOk

/-- Settles O49: a byte that is live neither before nor after is 0 both times. -/
theorem onlyLiveHeapBytesChange : Obligations.OnlyLiveHeapBytesChange := by
  intro i s t a h ht
  have hdead : live t.ext a = false → t.heap.read a = 0 := (exec_heapOk h ht).read_dead
  refine ⟨fun hne => ?_, hdead⟩
  by_contra hn
  obtain ⟨hs, ht⟩ := not_or.mp hn
  rw [hdead (Bool.eq_false_iff.mpr ht), h.read_dead (Bool.eq_false_iff.mpr hs)] at hne
  exact hne rfl

end HeapPart
end Sys2Proof.Machine

namespace Sys2Proof.Machine

section StorageParts

/-- The stack's part of the invariant, for a capacity: the array's places and `SP` (20_memory.md R75). -/
structure StackOk (cap : Nat) (stack : Memory) (sp : Nat) : Prop where
  wf : stack.wf
  inside : ∀ c ∈ stack, c.1 < cap
  spBound : sp ≤ cap

variable {cap sp : Nat} {stack : Memory}

theorem StackOk.write (h : StackOk cap stack sp) {a : Nat} (b : Byte) (ha : a < cap) :
    StackOk cap (stack.write a b) sp := by
  refine ⟨Memory.wf_write h.wf a b, fun c hc => ?_, h.spBound⟩
  rcases Memory.mem_write hc with rfl | hc
  · exact ha
  · exact h.inside c hc

theorem StackOk.setSp (h : StackOk cap stack sp) {n : Nat} (hn : n ≤ cap) : StackOk cap stack n :=
  ⟨h.wf, h.inside, hn⟩

variable {s t u : State}

/-- The stack's part of the invariant, of a state. -/
abbrev State.StackOk (s : State) : Prop := Machine.StackOk s.config.stackCap s.stack s.sp

theorem Inv.stackOk (h : Inv s) : s.StackOk := ⟨h.stackWf, h.stackInside, h.spBound⟩

/-- The effect of an instruction keeps the stack's part of the invariant. -/
theorem effect_stackOk {i : Instr} (h : Inv s) (ht : Effect i s t) : t.StackOk := by
  have hsp := h.spBound
  by_cases hw : i.opcode ∈ StatePart.stack.writers ∨ i.opcode ∈ StatePart.sp.writers
  case neg =>
    obtain ⟨hstack, hsp⟩ := not_or.mp hw
    have hstack : t.stack = s.stack := effect_keeps (p := .stack) ht hstack
    have hsp : t.sp = s.sp := effect_keeps (p := .sp) ht hsp
    have hconfig : t.config = s.config := effect_keeps (p := .config) ht List.not_mem_nil
    rw [State.StackOk, hstack, hsp, hconfig]
    exact h.stackOk
  cases i
  case push =>
    obtain ⟨x, u, -, hu, rfl⟩ := ht
    obtain ⟨hne, rfl⟩ := stackPush_ok.mp hu
    have hroom : s.sp < s.config.stackCap := by omega
    exact (h.stackOk.write _ hroom).setSp hroom
  case pop =>
    obtain ⟨i, u, b, -, hu, rfl⟩ := ht
    obtain ⟨-, rfl, -⟩ := stackPop_ok.mp hu
    exact h.stackOk.setSp ((Nat.sub_le _ _).trans h.spBound)
  case dup =>
    obtain ⟨u, hu, rfl⟩ := ht
    obtain ⟨-, hne, rfl⟩ := stackDup_ok.mp hu
    have hroom : s.sp < s.config.stackCap := by omega
    exact (h.stackOk.write _ hroom).setSp hroom
  case swap =>
    obtain ⟨u, hu, rfl⟩ := ht
    obtain ⟨hsp2, rfl⟩ := stackSwap_ok.mp hu
    have htop : s.sp - 1 < s.config.stackCap := by omega
    have hsecond : s.sp - 2 < s.config.stackCap := by omega
    exact (h.stackOk.write _ htop).write _ hsecond
  all_goals exact absurd hw (by simp [Instr.opcode, StatePart.writers])

/-- The part of the invariant about the jump table, the call stack and `OUT`: their capacities, and positions at most
`LEN` (10_state.md R39, R40, R43). -/
structure TablesOk (s : State) : Prop where
  csBound : withinCapacity s.config.csCap s.cs.length
  jtBound : withinCapacity s.config.jtCap s.jt.length
  outBound : withinCapacity s.config.outCap s.outq.length
  jtInside : ∀ p ∈ s.jt, p ≤ s.len
  csInside : ∀ p ∈ s.cs, p ≤ s.len

theorem Inv.tablesOk (h : Inv s) : TablesOk s := ⟨h.csBound, h.jtBound, h.outBound, h.jtInside, h.csInside⟩

/-- A table below its capacity has room for one entry more. -/
theorem withinCapacity_append {cap : Option Nat} {l : List Nat} (h : withinCapacity cap l.length)
    (hne : cap ≠ some l.length) (p : Nat) : withinCapacity cap (l ++ [p]).length := by
  rintro c rfl
  have hle := h c rfl
  have hne : c ≠ l.length := fun heq => hne (congrArg some heq)
  rw [List.length_append, List.length_singleton]
  omega

theorem forall_mem_append_le {l : List Nat} {n p : Nat} (h : ∀ q ∈ l, q ≤ n) (hp : p ≤ n) :
    ∀ q ∈ l ++ [p], q ≤ n := by
  simpa [or_imp, forall_and] using ⟨h, hp⟩

/-- A first operand that the stream holds stands at `pc + 1` (40_pipeline.md R144). -/
theorem pc_add_two_le_len {i : Instr} {o : Operand} (hd : decodeOperands (s.stream.drop s.pc) = .ok i)
    (hs : i.slots.head? = some (some o)) : s.pc + 2 ≤ s.len := by
  obtain ⟨op, rest, c, hops, -, -, rfl⟩ := decodeOperands_ok.mp hd
  rw [List.head?_eq_getElem?] at hs
  have hrest : some rest[0]? = some (some o) := (instrOf_slots (List.getElem?_eq_some_iff.mp hs).1).symm.trans hs
  have hpos : 0 < rest.length := (List.getElem?_eq_some_iff.mp (Option.some.inj hrest)).1
  have hlen : s.len - s.pc = rest.length + 1 := by
    rw [State.len, ← List.length_drop, hops, List.length_cons]
  omega

/-- The effect of the decoded instruction keeps the tables' part of the invariant. -/
theorem effect_tablesOk {i : Instr} (h : Inv s) (hd : decodeOperands (s.stream.drop s.pc) = .ok i)
    (ht : Effect i s t) : TablesOk t := by
  by_cases hw : i.opcode ∈ StatePart.jt.writers ∨ i.opcode ∈ StatePart.cs.writers ∨ i.opcode ∈ StatePart.outq.writers
  case neg =>
    obtain ⟨hjt, hcs, hout⟩ : i.opcode ∉ StatePart.jt.writers ∧ i.opcode ∉ StatePart.cs.writers ∧
      i.opcode ∉ StatePart.outq.writers := by simpa only [not_or] using hw
    have hjt : t.jt = s.jt := effect_keeps (p := .jt) ht hjt
    have hcs : t.cs = s.cs := effect_keeps (p := .cs) ht hcs
    have hout : t.outq = s.outq := effect_keeps (p := .outq) ht hout
    have hconfig : t.config = s.config := effect_keeps (p := .config) ht List.not_mem_nil
    have hstream : t.stream = s.stream := effect_keeps (p := .stream) ht List.not_mem_nil
    constructor <;> simp only [hjt, hcs, hout, hconfig, State.len, hstream]
    exacts [h.csBound, h.jtBound, h.outBound, h.jtInside, h.csInside]
  cases i
  case func label =>
    obtain ⟨v, u, hv, hu, rfl⟩ := ht
    obtain ⟨o, rfl, -⟩ := untyped_ok.mp hv
    obtain ⟨hne, rfl⟩ := jtAppend_ok.mp hu
    exact { h.tablesOk with
      jtBound := withinCapacity_append h.jtBound hne _
      jtInside := forall_mem_append_le h.jtInside (pc_add_two_le_len hd rfl) }
  case call f =>
    obtain ⟨p, u, hp, hu, rfl⟩ := ht
    obtain ⟨o, rfl, -⟩ := funcPos_ok.mp hp
    obtain ⟨hne, rfl⟩ := csPush_ok.mp hu
    exact { h.tablesOk with
      csBound := withinCapacity_append h.csBound hne _
      csInside := forall_mem_append_le h.csInside (pc_add_two_le_len hd rfl) }
  case ret =>
    obtain ⟨u, p, hu, rfl⟩ := ht
    obtain ⟨-, rfl⟩ := csPop_ok.mp hu
    have hlen : s.cs.dropLast.length ≤ s.cs.length := (List.dropLast_sublist _).length_le
    exact { h.tablesOk with
      csBound := fun c hc => hlen.trans (h.csBound c hc)
      csInside := fun q hq => h.csInside q (List.mem_of_mem_dropLast hq) }
  case write =>
    obtain ⟨x, k, bytes, u, -, -, -, hu, rfl⟩ := ht
    obtain ⟨hcap, rfl⟩ := outAppend_ok.mp hu
    exact { h.tablesOk with outBound := fun c hc => List.length_append.trans_le (hcap c hc) }
  case flush =>
    obtain rfl := ht
    exact { h.tablesOk with outBound := fun c _ => Nat.zero_le c }
  all_goals exact absurd hw (by simp [Instr.opcode, StatePart.writers])

/-- The part of the invariant about `ENG_STATE` and `FAULT` (10_state.md R35, R37, 40_pipeline.md R141). -/
structure StatusOk (s : State) : Prop where
  readyAtStart : s.engState = .ready → s.pc = 0 ∧ s.stream = []
  runningInside : s.engState = .running → s.pc < s.len
  haltedAtEnd : s.engState = .halted → s.len ≤ s.pc
  faultRecorded : s.engState = .faulted ↔ s.fault.kind ≠ none
  faultConsistent : s.fault.kind = s.fault.reason.map faultKindOf

theorem inv_of_parts (hheap : s.HeapOk) (hstack : s.StackOk) (htables : TablesOk s) (hstatus : StatusOk s) : Inv s :=
  { htables, hstatus with
    heapWf := hheap.wf
    heapLive := hheap.listedLive
    extProper := hheap.extents.1
    extOrdered := hheap.extents.2
    stackWf := hstack.wf
    stackInside := hstack.inside
    spBound := hstack.spBound }

/-- Taking a fault writes both `ENG_STATE` and `FAULT`, whatever they were (60_exceptions.md R310). -/
theorem statusOk_takeFault (pos : Nat) (opcode : Option Byte) (c : FaultCause) (s : State) :
    StatusOk (takeFault pos opcode c s) :=
  ⟨nofun, nofun, nofun, ⟨fun _ => nofun, fun _ => rfl⟩, rfl⟩

theorem inv_takeFault (h : Inv s) (pos : Nat) (opcode : Option Byte) (c : FaultCause) :
    Inv (takeFault pos opcode c s) :=
  inv_of_parts h.heapOk h.stackOk { h.tablesOk with } (statusOk_takeFault pos opcode c s)

/-- In `Ready` and `Running` no fault is recorded. -/
theorem Inv.fault_kind (h : Inv s) (hne : s.engState ≠ .faulted) : s.fault.kind = none :=
  by_contra fun hk => hne (h.faultRecorded.mpr hk)

/-- The end-of-stream test decides between `Running` and `Halted` (40_pipeline.md R141). -/
theorem statusOk_endOfStream (hr : s.engState = .running) (hk : s.fault.kind = none)
    (hc : s.fault.kind = s.fault.reason.map faultKindOf) : StatusOk (endOfStream s) := by
  by_cases hend : s.len ≤ s.pc
  · rw [show endOfStream s = s.setEng .halted from if_pos ⟨hr, hend⟩]
    exact ⟨nofun, nofun, fun _ => hend, ⟨nofun, fun h => absurd hk h⟩, hc⟩
  · rw [show endOfStream s = s from if_neg fun h => hend h.2]
    exact ⟨by simp [hr], fun _ => Nat.lt_of_not_le hend, by simp [hr], by simp [hr, hk], hc⟩

theorem inv_endOfStream (hheap : s.HeapOk) (hstack : s.StackOk) (htables : TablesOk s) (hr : s.engState = .running)
    (hk : s.fault.kind = none) (hc : s.fault.kind = s.fault.reason.map faultKindOf) : Inv (endOfStream s) := by
  have hstatus := statusOk_endOfStream hr hk hc
  rw [endOfStream_eq] at hstatus ⊢
  exact inv_of_parts hheap hstack { htables with } hstatus

/-- The decoded instruction, with the end-of-stream test after it, keeps the invariant. -/
theorem inv_exec {i : Instr} (h : Inv s) (hr : s.engState = .running)
    (hd : decodeOperands (s.stream.drop s.pc) = .ok i) (hu : exec i s = .next u) : Inv (endOfStream u) := by
  rcases exec_cases hu with he | ⟨c, rfl⟩
  · have heng : u.engState = s.engState := effect_keeps (p := .engState) he List.not_mem_nil
    have hfault : u.fault = s.fault := effect_keeps (p := .fault) he List.not_mem_nil
    have hkind := h.fault_kind (by simp [hr])
    exact inv_endOfStream (effect_heapOk h he) (effect_stackOk h he) (effect_tablesOk h hd he) (heng.trans hr)
      (hfault ▸ hkind) (hfault ▸ h.faultConsistent)
  · rw [endOfStream_faulted rfl]
    exact inv_takeFault h _ _ c

theorem inv_step (h : Inv s) (ht : step s = .next t) : Inv t := by
  obtain ⟨hr, ⟨i, u, hd, hu, rfl⟩ | ⟨-, rfl⟩ | ⟨c, rfl⟩⟩ := step_cases ht
  · exact inv_exec h hr hd hu
  · exact inv_endOfStream h.heapOk h.stackOk h.tablesOk hr (h.fault_kind (by simp [hr])) h.faultConsistent
  · exact inv_takeFault h _ _ c

/-! The host's transactions. -/

/-- A pre-scan that succeeds keeps the table within its capacity and its entries within the stream (40_pipeline.md
R170). -/
theorem preScan_ok_bounds {cap : Option Nat} {n q : Nat} {ops : List Operand} {jt jt' : List Nat}
    (h : preScan cap q ops jt = .ok jt') (hq : q + ops.length ≤ n) (hcap : withinCapacity cap jt.length)
    (hin : ∀ p ∈ jt, p ≤ n) : withinCapacity cap jt'.length ∧ ∀ p ∈ jt', p ≤ n := by
  induction ops generalizing q jt with
  | nil =>
    obtain rfl : jt = jt' := Except.ok.inj h
    exact ⟨hcap, hin⟩
  | cons o ops ih =>
    cases ops with
    | nil =>
      obtain rfl : jt = jt' := Except.ok.inj h
      exact ⟨hcap, hin⟩
    | cons label rest =>
      simp only [List.length_cons] at hq ih
      rw [preScan] at h
      split at h
      · split at h
        · cases h
        · rename_i hfull
          have hne : cap ≠ some jt.length := atCapacity_eq_false.mp (Bool.eq_false_iff.mpr hfull)
          exact ih h (by omega) (withinCapacity_append hcap hne _) (forall_mem_append_le hin (by omega))
      · exact ih h (by omega) hcap hin

/-- What `start` does with the loaded stream: the pre-scan's table, then the end-of-stream test of a running engine at
position 0; or the pre-scan's fault (70_reset_and_hazards.md R341, 40_pipeline.md R173). -/
theorem enterRun_cases (hpc : s.pc = 0) :
    (∃ jt, preScan s.config.jtCap 0 s.stream [] = .ok jt ∧
        enterRun s = endOfStream ((s.setJt jt).setEng .running)) ∨
      ∃ q c, enterRun s = takeFault q (some 0x20) c s := by
  unfold enterRun
  split
  · rename_i jt hjt
    refine .inl ⟨jt, hjt, ?_⟩
    by_cases hlen : s.len = 0
    · rw [if_pos hlen]
      exact Eq.symm (if_pos ⟨rfl, (hlen.trans hpc.symm).le⟩)
    · rw [if_neg hlen]
      exact Eq.symm (if_neg fun hend => hlen (Nat.le_zero.mp (hend.2.trans hpc.le)))
  · exact .inr ⟨_, _, rfl⟩

theorem start_next {img in0 : List Byte} (ht : start img in0 s = .next t) :
    s.engState = .ready ∧ t = enterRun { s with inq := in0, stream := decodeImage s.config.wireForm img } := by
  unfold start at ht
  split at ht
  · exact ⟨‹_›, (Host.Outcome.next.inj ht).symm⟩
  · cases ht

theorem inAppend_next {bytes : List Byte} (ht : inAppend bytes s = .next t) : t = s.setIn (s.inq ++ bytes) := by
  unfold inAppend at ht
  split at ht
  · exact (Host.Outcome.next.inj ht).symm
  · exact (Host.Outcome.next.inj ht).symm
  · cases ht

theorem hostAbort_next (ht : hostAbort s = .next t) : s.engState ≠ .faulted ∧ t = s.setEng .aborted := by
  unfold hostAbort at ht
  split at ht
  · rename_i he
    exact ⟨by simp [he], (Host.Outcome.next.inj ht).symm⟩
  · rename_i he
    exact ⟨by simp [he], (Host.Outcome.next.inj ht).symm⟩
  · cases ht

/-- In `Ready` no stream is loaded, so every jump-table entry and return position is 0, and the tables stay within any
stream that is loaded (70_reset_and_hazards.md R341). -/
theorem tablesOk_load (h : Inv s) (hready : s.engState = .ready) (in0 : List Byte) (ops : List Operand) :
    TablesOk { s with inq := in0, stream := ops } := by
  obtain ⟨-, hstream⟩ := h.readyAtStart hready
  have hlen : s.len = 0 := by rw [State.len, hstream, List.length_nil]
  exact { h.tablesOk with
    jtInside := fun p hp => (h.jtInside p hp).trans (hlen ▸ Nat.zero_le _)
    csInside := fun p hp => (h.csInside p hp).trans (hlen ▸ Nat.zero_le _) }

theorem inv_start (h : Inv s) {img in0 : List Byte} (ht : start img in0 s = .next t) : Inv t := by
  obtain ⟨hready, rfl⟩ := start_next ht
  have htables := tablesOk_load h hready in0 (decodeImage s.config.wireForm img)
  rcases enterRun_cases (s := { s with inq := in0, stream := decodeImage s.config.wireForm img })
    (h.readyAtStart hready).1 with ⟨jt, hjt, heq⟩ | ⟨q, c, heq⟩
  · rw [heq]
    obtain ⟨hcap, hin⟩ := preScan_ok_bounds hjt (Nat.zero_add _).le (fun _ _ => Nat.zero_le _) nofun
    exact inv_endOfStream h.heapOk h.stackOk { htables with jtBound := hcap, jtInside := hin } rfl
      (h.fault_kind (by simp [hready])) h.faultConsistent
  · rw [heq]
    exact inv_of_parts h.heapOk h.stackOk { htables with } (statusOk_takeFault q _ c _)

theorem inv_hostAbort (h : Inv s) (ht : hostAbort s = .next t) : Inv t := by
  obtain ⟨hne, rfl⟩ := hostAbort_next ht
  exact { h with
    readyAtStart := nofun
    runningInside := nofun
    haltedAtEnd := nofun
    faultRecorded := ⟨nofun, fun hk => absurd (h.fault_kind hne) hk⟩ }

/-- Settles O54: a step through its decoded instruction or the fetch's fault, part by part of the invariant; and each
transaction of the host. -/
theorem stepKeepsTheInvariant : Obligations.StepKeepsTheInvariant := by
  refine ⟨fun s t => inv_step, fun e s t h ht => ?_⟩
  cases e with
  | reset =>
    obtain rfl := Host.Outcome.next.inj ht
    exact resetMeetsTheInvariant s.config
  | start img in0 => exact inv_start h ht
  | step => exact inv_step h ht
  | inAppend bytes =>
    obtain rfl := inAppend_next ht
    exact { h with }
  | abort => exact inv_hostAbort h ht

end StorageParts
end Sys2Proof.Machine

namespace Sys2Proof.Machine

/-! Stack residue (20_memory.md R81). Two states that agree but for stack bytes at or above `SP` are a state and the same
state with another stack array. Every fetch answers the same in both, and every check, whether it ends well or faults,
ends alike in both. -/

section Residue

/-- Both checks end well in related values, or both raise the same fault. -/
inductive ChecksAlike {α β : Type} (R : α → β → Prop) : Check α → Check β → Prop where
  | ok {a : α} {b : β} : R a b → ChecksAlike R (.ok a) (.ok b)
  | error (c : FaultCause) : ChecksAlike R (.error c) (.error c)

/-- A check that answers the same on both sides, and then two that end alike. -/
theorem ChecksAlike.bind_eq {α γ δ : Type} {R : γ → δ → Prop} {p q : Check α} {f : α → Check γ} {g : α → Check δ}
    (hpq : q = p) (hfg : ∀ a, ChecksAlike R (f a) (g a)) : ChecksAlike R (p >>= f) (q >>= g) := by
  subst hpq
  cases q with
  | ok a => exact hfg a
  | error c => exact .error c

theorem ChecksAlike.ite {α β : Type} {R : α → β → Prop} {c : Prop} [Decidable c] {p p' : Check α} {q q' : Check β}
    (hpos : c → ChecksAlike R p q) (hneg : ¬ c → ChecksAlike R p' q') :
    ChecksAlike R (if c then p else p') (if c then q else q') := by
  split_ifs with hc
  · exact hpos hc
  · exact hneg hc

/-- The state with another stack array. -/
def State.withStack (s : State) (m : Memory) : State := { s with stack := m }

theorem SameButResidue.eq_withStack {s t : State} (h : SameButResidue s t) : ∃ m, t = s.withStack m := ⟨t.stack, h.1⟩

theorem sameButResidue_withStack {s : State} {m : Memory} (h : ∀ k, k < s.sp → m.read k = s.stack.read k) :
    SameButResidue s (s.withStack m) := ⟨rfl, h⟩

/-- States related by their residue, with whatever else an operation answers the same. -/
abbrev SameWithResult {α : Type} (p q : State × α) : Prop := SameButResidue p.1 q.1 ∧ p.2 = q.2

/-- A check of a state update, and then two checks that end alike on any two related states. -/
theorem ChecksAlike.bind_state {γ δ : Type} {R : γ → δ → Prop} {p q : Check State} {f : State → Check γ}
    {g : State → Check δ} (h : ChecksAlike SameButResidue p q)
    (hfg : ∀ u m, SameButResidue u (u.withStack m) → ChecksAlike R (f u) (g (u.withStack m))) :
    ChecksAlike R (p >>= f) (q >>= g) := by
  cases h with
  | ok huv =>
    obtain ⟨m, rfl⟩ := huv.eq_withStack
    exact hfg _ m huv
  | error c => exact .error c

/-- The same for an update with a further answer. -/
theorem ChecksAlike.bind_result {α γ δ : Type} {R : γ → δ → Prop} {p q : Check (State × α)} {f : State × α → Check γ}
    {g : State × α → Check δ} (h : ChecksAlike SameWithResult p q)
    (hfg : ∀ u m a, SameButResidue u (u.withStack m) → ChecksAlike R (f (u, a)) (g (u.withStack m, a))) :
    ChecksAlike R (p >>= f) (q >>= g) := by
  cases h with
  | @ok r r' hr =>
    obtain ⟨u, a⟩ := r
    obtain ⟨v, b⟩ := r'
    obtain ⟨huv, rfl⟩ : SameButResidue u v ∧ a = b := hr
    obtain ⟨m, rfl⟩ := huv.eq_withStack
    exact hfg u m a huv
  | error c => exact .error c

variable {s : State} {m : Memory}

@[simp] theorem withStack_config : (s.withStack m).config = s.config := rfl
@[simp] theorem withStack_cs : (s.withStack m).cs = s.cs := rfl
@[simp] theorem withStack_stack : (s.withStack m).stack = m := rfl
@[simp] theorem withStack_sp : (s.withStack m).sp = s.sp := rfl
@[simp] theorem withStack_heap : (s.withStack m).heap = s.heap := rfl
@[simp] theorem withStack_ext : (s.withStack m).ext = s.ext := rfl
@[simp] theorem withStack_outq : (s.withStack m).outq = s.outq := rfl
@[simp] theorem firstFit_withStack (n : Nat) : firstFit (s.withStack m) n = firstFit s n := rfl

/-! The fetches. -/

@[simp] theorem funcPos_withStack (j : Nat) (slot : Slot) : funcPos (s.withStack m) j slot = funcPos s j slot := rfl

@[simp] theorem memReadBytes_withStack (a n : Nat) : memReadBytes (s.withStack m) a n = memReadBytes s a n := by
  induction n generalizing a with
  | zero => rfl
  | succ n ih => simp only [memReadBytes, ih]; rfl

@[simp] theorem checkLiveBytes_withStack (a n : Nat) : checkLiveBytes (s.withStack m) a n = checkLiveBytes s a n := by
  induction n generalizing a with
  | zero => rfl
  | succ n ih => simp only [checkLiveBytes, ih]; rfl

variable (h : SameButResidue s (s.withStack m))
include h

theorem stackPeek_withStack (q : Nat) (k : Word) : stackPeek (s.withStack m) q k = stackPeek s q k := by
  unfold stackPeek
  by_cases hk : k.toNat < s.sp
  · have hread : (s.withStack m).stack.read (s.sp - 1 - k.toNat) = s.stack.read (s.sp - 1 - k.toNat) :=
      h.2 _ (by omega)
    exact (if_pos hk).trans ((congrArg Except.ok hread).trans (if_pos hk).symm)
  · exact (if_neg hk).trans (if_neg hk).symm

/-- The tag router reads the stack below `SP` only, in a `DerefStack` operand (40_pipeline.md R151). -/
theorem resolveOperand_withStack (j : Nat) (o : Operand) :
    resolveOperand (s.withStack m) j o = resolveOperand s j o := by
  obtain ⟨tag, p⟩ := o
  cases tag
  case derefStack => exact congrArg (· >>= fun b => pure (zext64 b)) (stackPeek_withStack h (s.pc + j) p)
  all_goals rfl

theorem typed_withStack (j : Nat) (slot : Slot) : typed (s.withStack m) j slot = typed s j slot := by
  cases slot with
  | none => rfl
  | some o => exact resolveOperand_withStack h j o

theorem typedMany_withStack (j n : Nat) (data : List Operand) :
    typedMany (s.withStack m) j n data = typedMany s j n data := by
  induction data generalizing j n with
  | nil => cases n <;> rfl
  | cons o rest ih =>
    cases n with
    | zero => rfl
    | succ n => simp only [typedMany, ih, typed_withStack h]

/-! The states: an update that leaves `S` and `SP` keeps the relation, and so does taking a fault. -/

theorem SameButResidue.carry {u : State} (hstack : u.stack = s.stack) (hsp : u.sp = s.sp) :
    SameButResidue u (u.withStack m) := by
  refine sameButResidue_withStack fun k hk => ?_
  rw [hstack]
  exact h.2 k (hsp ▸ hk)

theorem complete_alike (op : Byte) {p q : Check State} (hpq : ChecksAlike SameButResidue p q) :
    RelatedAnswers SameButResidue (complete op s p) (complete op (s.withStack m) q) := by
  cases hpq with
  | ok huv => exact .inl ⟨_, _, rfl, rfl, huv⟩
  | error c => exact .inl ⟨_, _, rfl, rfl, h.carry rfl rfl⟩

/-! The shared operations that do not use the stack. -/

theorem outAppend_alike (bytes : List Byte) :
    ChecksAlike SameButResidue (outAppend s bytes) (outAppend (s.withStack m) bytes) := by
  simp only [outAppend, withStack_config, withStack_outq]
  cases s.config.outCap with
  | none => exact .ok (h.carry rfl rfl)
  | some cap => exact .ite (fun _ => .error _) fun _ => .ok (h.carry rfl rfl)

theorem inTake_alike (n : Nat) : ChecksAlike SameWithResult (inTake s n) (inTake (s.withStack m) n) :=
  .ite (fun _ => .error _) fun _ => .ok ⟨h.carry rfl rfl, rfl⟩

theorem jtAppend_alike (p : Nat) : ChecksAlike SameButResidue (jtAppend s p) (jtAppend (s.withStack m) p) :=
  .ite (fun _ => .error _) fun _ => .ok (h.carry rfl rfl)

theorem csPush_alike (p : Nat) : ChecksAlike SameButResidue (csPush s p) (csPush (s.withStack m) p) :=
  .ite (fun _ => .error _) fun _ => .ok (h.carry rfl rfl)

theorem csPop_alike : ChecksAlike SameWithResult (csPop s) (csPop (s.withStack m)) := by
  simp only [csPop, withStack_cs]
  cases s.cs.getLast? with
  | none => exact .error _
  | some r => exact .ok ⟨h.carry rfl rfl, rfl⟩

theorem heapAlloc_alike (n : Nat) : ChecksAlike SameWithResult (heapAlloc s n) (heapAlloc (s.withStack m) n) := by
  simp only [heapAlloc, firstFit_withStack, withStack_ext]
  refine .ite (fun _ => .error _) fun _ => ?_
  cases firstFit s n with
  | none => exact .error _
  | some a => exact .ok ⟨h.carry rfl rfl, rfl⟩

theorem heapFree_alike (a : Nat) : ChecksAlike SameButResidue (heapFree s a) (heapFree (s.withStack m) a) := by
  simp only [heapFree, withStack_ext, withStack_heap]
  cases containing s.ext a with
  | none => exact .error _
  | some e => exact .ok (h.carry rfl rfl)

theorem heapRealloc_alike (a n : Nat) :
    ChecksAlike SameWithResult (heapRealloc s a n) (heapRealloc (s.withStack m) a n) := by
  simp only [heapRealloc, firstFit_withStack, withStack_ext, withStack_heap]
  cases containing s.ext a with
  | none => exact .error _
  | some e =>
    refine .ite (fun _ => .error _) fun _ => .ite (fun _ => .ok ⟨h.carry rfl rfl, rfl⟩) fun _ =>
      .ite (fun _ => .ok ⟨h.carry rfl rfl, rfl⟩) fun _ => ?_
    cases firstFit s n with
    | none => exact .error _
    | some t => exact .ok ⟨h.carry rfl rfl, rfl⟩

/-! The stack unit. A write puts the same byte at the same place of both arrays. -/

theorem stackPop_alike : ChecksAlike SameWithResult (stackPop s) (stackPop (s.withStack m)) := by
  refine .ite (fun _ => .error _) fun h0 => .ok ⟨?_, ?_⟩
  · exact sameButResidue_withStack (s := s.setStack s.stack (s.sp - 1)) fun k hk => h.2 k (hk.trans_le (Nat.sub_le _ _))
  · exact (h.2 _ (by omega)).symm

omit h in
/-- Arrays that agree below `n` agree below `n'` after a write of one byte to both, where each place below `n'` is
below `n` or is the written one. -/
theorem read_write_agree {p q : Memory} (hp : p.wf) (hq : q.wf) {a n n' : Nat} (b : Byte)
    (hag : ∀ k, k < n → q.read k = p.read k) (hn : ∀ k, k < n' → k < n ∨ k = a) :
    ∀ k, k < n' → (q.write a b).read k = (p.write a b).read k := by
  intro k hk
  rw [Memory.read_write hq, Memory.read_write hp]
  by_cases hak : a = k
  · rw [if_pos hak, if_pos hak]
  · rw [if_neg hak, if_neg hak]
    exact hag k ((hn k hk).resolve_right (Ne.symm hak))

variable (hs : s.stack.wf) (hm : m.wf)
include hs hm

theorem setStack_push_alike (b : Byte) :
    SameButResidue (s.setStack (s.stack.write s.sp b) (s.sp + 1))
      ((s.withStack m).setStack (m.write s.sp b) (s.sp + 1)) :=
  sameButResidue_withStack (s := s.setStack (s.stack.write s.sp b) (s.sp + 1))
    (read_write_agree hs hm b h.2 fun _ hk => Nat.lt_succ_iff_lt_or_eq.mp hk)

theorem stackPush_alike (b : Byte) : ChecksAlike SameButResidue (stackPush s b) (stackPush (s.withStack m) b) :=
  .ite (fun _ => .error _) fun _ => .ok (setStack_push_alike h hs hm b)

theorem stackDup_alike : ChecksAlike SameButResidue (stackDup s) (stackDup (s.withStack m)) := by
  refine .ite (fun _ => .error _) fun h0 => .ite (fun _ => .error _) fun _ => ?_
  have htop : m.read (s.sp - 1) = s.stack.read (s.sp - 1) := h.2 _ (by omega)
  simp only [withStack_sp, withStack_stack, htop]
  exact .ok (setStack_push_alike h hs hm _)

theorem stackSwap_alike : ChecksAlike SameButResidue (stackSwap s) (stackSwap (s.withStack m)) := by
  refine .ite (fun _ => .error _) fun h2 => ?_
  have htop : m.read (s.sp - 1) = s.stack.read (s.sp - 1) := h.2 _ (by omega)
  have hsecond : m.read (s.sp - 2) = s.stack.read (s.sp - 2) := h.2 _ (by omega)
  have hone := read_write_agree (a := s.sp - 1) hs hm (s.stack.read (s.sp - 2)) h.2 fun _ => .inl
  have htwo := read_write_agree (a := s.sp - 2) (Memory.wf_write hs _ _) (Memory.wf_write hm _ _)
    (s.stack.read (s.sp - 1)) hone fun _ => .inl
  simp only [withStack_sp, withStack_stack, htop, hsecond]
  exact .ok (sameButResidue_withStack (s := s.setStack _ s.sp) htwo)

omit hs hm

/-! The instructions. -/

theorem binaryOp_alike (op : Byte) (f : Word → Word → Check Word) (l r : Slot) :
    RelatedAnswers SameButResidue (binaryOp op f l r s) (binaryOp op f l r (s.withStack m)) :=
  complete_alike h op <| .bind_eq (typed_withStack h 1 l) fun _ => .bind_eq (typed_withStack h 2 r) fun _ =>
    .bind_eq rfl fun _ => .ok (h.carry rfl rfl)

theorem conditionalJump_alike (op : Byte) (taken : Bool) (f : Slot) :
    RelatedAnswers SameButResidue (conditionalJump op taken f s) (conditionalJump op taken f (s.withStack m)) := by
  refine complete_alike h op (.bind_eq (funcPos_withStack 1 f) fun t => ?_)
  cases taken with
  | true => exact .ok (h.carry rfl rfl)
  | false => exact .ok (h.carry rfl rfl)

theorem bump_alike (op : Byte) (onReg : Word → Word) (onByte : Byte → Byte) (slot : Slot) :
    RelatedAnswers SameButResidue (bump op onReg onByte slot s) (bump op onReg onByte slot (s.withStack m)) := by
  refine complete_alike h op (.bind_eq rfl fun o => .ite (fun _ => ?_) fun _ => ?_)
  · exact .bind_eq rfl fun i => .ok (h.carry rfl rfl)
  · exact .bind_eq (resolveOperand_withStack h 1 o) fun x => .bind_eq rfl fun _ => .ok (h.carry rfl rfl)

/-- Every instruction answers related states: its fetches answer the same, and its updates end alike. -/
theorem exec_alike (hs : s.stack.wf) (hm : m.wf) (i : Instr) :
    RelatedAnswers SameButResidue (exec i s) (exec i (s.withStack m)) := by
  have htyped := typed_withStack h
  cases i
  all_goals dsimp only [exec]
  case add | sub | mul | div | mod | and | or | xor | eq | neq | lt | gt => exact binaryOp_alike h _ _ _ _
  case jz | jnz => exact conditionalJump_alike h _ _ _
  case inc | dec => exact bump_alike h _ _ _ _
  all_goals refine complete_alike h _ ?_
  case nop | flush => exact .ok (h.carry rfl rfl)
  case not | reacc => exact .bind_eq rfl fun i => .ok (h.carry rfl rfl)
  case jmp | wracc => exact .bind_eq (htyped 1 _) fun x => .ok (h.carry rfl rfl)
  case mov => exact .bind_eq rfl fun i => .bind_eq (htyped 2 _) fun x => .ok (h.carry rfl rfl)
  case load =>
    exact .bind_eq rfl fun i => .bind_eq (htyped 2 _) fun x => .bind_eq rfl fun b => .ok (h.carry rfl rfl)
  case push =>
    exact .bind_eq (htyped 1 _) fun x => .bind_state (stackPush_alike h hs hm _) fun u m' hu => .ok (hu.carry rfl rfl)
  case pop =>
    exact .bind_eq rfl fun i => .bind_result (stackPop_alike h) fun u m' b hu => .ok (hu.carry rfl rfl)
  case dup => exact .bind_state (stackDup_alike h hs hm) fun u m' hu => .ok (hu.carry rfl rfl)
  case swap => exact .bind_state (stackSwap_alike h hs hm) fun u m' hu => .ok (hu.carry rfl rfl)
  case store a n data =>
    exact .bind_eq (htyped 1 a) fun x => .bind_eq (htyped 2 n) fun k =>
      .bind_eq (typedMany_withStack h 3 k.toNat data) fun vs =>
      .bind_eq (checkLiveBytes_withStack x.toNat k.toNat) fun _ => .ok (h.carry rfl rfl)
  case write a n =>
    exact .bind_eq (htyped 1 a) fun x => .bind_eq (htyped 2 n) fun k =>
      .bind_eq (memReadBytes_withStack x.toNat k.toNat) fun bytes =>
      .bind_state (outAppend_alike h bytes) fun u m' hu => .ok (hu.carry rfl rfl)
  case read a n =>
    exact .bind_eq (htyped 1 a) fun x => .bind_eq (htyped 2 n) fun k =>
      .bind_eq (checkLiveBytes_withStack x.toNat k.toNat) fun _ =>
      .bind_result (inTake_alike h k.toNat) fun u m' bytes hu => .ok (hu.carry rfl rfl)
  case alloc d n =>
    exact .bind_eq rfl fun i => .bind_eq (htyped 2 n) fun k =>
      .bind_result (heapAlloc_alike h k.toNat) fun u m' a hu => .ok (hu.carry rfl rfl)
  case free a =>
    exact .bind_eq (htyped 1 a) fun x => .bind_state (heapFree_alike h x.toNat) fun u m' hu => .ok (hu.carry rfl rfl)
  case realloc d n =>
    exact .bind_eq rfl fun i => .bind_eq (htyped 2 n) fun k =>
      .bind_result (heapRealloc_alike h (s.reg i).toNat k.toNat) fun u m' a hu => .ok (hu.carry rfl rfl)
  case func =>
    exact .bind_eq rfl fun _ => .bind_state (jtAppend_alike h (s.pc + 2)) fun u m' hu => .ok (hu.carry rfl rfl)
  case call =>
    exact .bind_eq rfl fun p => .bind_state (csPush_alike h (s.pc + 2)) fun u m' hu => .ok (hu.carry rfl rfl)
  case ret => exact .bind_result (csPop_alike h) fun u m' p hu => .ok (hu.carry rfl rfl)

end Residue

/-! The step. -/

theorem endOfStream_sameButResidue {s t : State} (h : SameButResidue s t) :
    SameButResidue (endOfStream s) (endOfStream t) := by
  obtain ⟨m, rfl⟩ := h.eq_withStack
  rw [endOfStream_eq, endOfStream_eq]
  exact h.carry rfl rfl

/-- The fetch finds the same instruction, or ends the step in related states. -/
theorem fetch_alike {s : State} {m : Memory} (h : SameButResidue s (s.withStack m)) :
    (∃ i, fetch s = .ok i ∧ fetch (s.withStack m) = .ok i) ∨
      ∃ u v, fetch s = .error u ∧ fetch (s.withStack m) = .error v ∧ SameButResidue u v := by
  have hend := endOfStream_sameButResidue h
  have hops : operandsAtPc (s.withStack m) = operandsAtPc s := rfl
  unfold fetch
  rw [hops]
  cases decodeOperands (operandsAtPc s) with
  | ok i => exact .inl ⟨i, rfl, rfl⟩
  | error e =>
    refine .inr ?_
    cases e with
    | endOfStream => exact ⟨_, _, rfl, rfl, hend⟩
    | notOpTag => exact ⟨_, _, rfl, rfl, h.carry rfl rfl⟩
    | undefinedOpcode p => exact ⟨_, _, rfl, rfl, h.carry rfl rfl⟩

theorem step_alike {s : State} {m : Memory} (h : SameButResidue s (s.withStack m)) (hs : s.stack.wf) (hm : m.wf) :
    RelatedAnswers SameButResidue (step s) (step (s.withStack m)) := by
  by_cases hr : s.engState = .running
  · refine .inl ?_
    rcases fetch_alike h with ⟨i, hi, hi'⟩ | ⟨u, v, hu, hv, huv⟩
    · obtain ⟨u, v, hu, hv, huv⟩ | ⟨hno, -⟩ := exec_alike h hs hm i
      · exact ⟨_, _, step_of_fetch_ok hr hi hu, step_of_fetch_ok hr hi' hv, endOfStream_sameButResidue huv⟩
      · obtain ⟨u, hu⟩ := exec_isNext i s
        exact absurd hu (hno u)
    · exact ⟨u, v, step_of_fetch_error hr hu, step_of_fetch_error hr hv, huv⟩
  · exact .inr ⟨fun _ => step_not_running hr, fun _ => step_not_running hr⟩

/-- Settles O56: related states step to related states, and a step keeps each stack array's canonical form. -/
theorem stackResidueIsUnobservable : Obligations.StackResidueIsUnobservable := by
  intro s t hs ht h
  obtain ⟨m, rfl⟩ := h.eq_withStack
  refine (step_alike h hs ht).imp_left ?_
  rintro ⟨u, v, hu, hv, huv⟩
  exact ⟨u, v, hu, hv, step_stack_wf hs hu, step_stack_wf ht hv, huv⟩

end Sys2Proof.Machine

namespace Sys2Proof

/-! The two wire forms (30_encoding.md R104 to R114): each decoder takes back what its encoder wrote, one operand at a
time. -/

section WireForms

variable {form : WireForm} {o : Operand} {ops : List Operand}

theorem wellFormed_iff : o.wellFormed form = true ↔ o.payload.toNat < 256 ^ o.tag.width form := decide_eq_true_iff

theorem wellFormed_compact_iff : o.wellFormed .compact = true ↔ o.payload.toNat ≤ 255 :=
  wellFormed_iff.trans Nat.lt_succ_iff

/-! The compact form. -/

theorem setWidth_zext64 (b : Byte) : (zext64 b).setWidth 8 = b := Machine.lowByte_zext64 b

theorem toNat_zext64_le (b : Byte) : (zext64 b).toNat ≤ 255 := by
  rw [Machine.toNat_zext64]
  exact Nat.le_of_lt_succ b.isLt

theorem encodeOperand_compact (o : Operand) :
    encodeOperand .compact o = [tagCode o.tag, BitVec.ofNat 8 o.payload.toNat] := by
  rw [BitVec.ofNat_toNat]
  rfl

/-- An image without two bytes has no whole operand (R106). -/
theorem half_length_eq_zero {img : List Byte} (hshort : ∀ t p rest, img = t :: p :: rest → False) :
    img.length / 2 = 0 := by
  rcases img with _ | ⟨t, _ | ⟨p, rest⟩⟩
  · rfl
  · exact Nat.div_eq_of_lt Nat.one_lt_two
  · exact (hshort t p rest rfl).elim

theorem length_decodeCompact (img : List Byte) : (decodeCompact img).length = img.length / 2 := by
  induction img using decodeCompact.induct with
  | case1 t p img ih =>
    rw [decodeCompact_cons, List.length_cons, ih, List.length_cons, List.length_cons]
    omega
  | case2 img hshort => rw [decodeCompact.eq_2 img hshort, half_length_eq_zero hshort, List.length_nil]

/-- Operand `i` is the tag of byte `2i` and the widened byte `2i + 1` (R105). -/
theorem getElem?_decodeCompact (img : List Byte) (i : Nat) (hi : i < img.length / 2) :
    (decodeCompact img)[i]? = some ⟨tagOf (img.getD (2 * i) 0), zext64 (img.getD (2 * i + 1) 0)⟩ := by
  induction img using decodeCompact.induct generalizing i with
  | case1 t p img ih =>
    cases i with
    | zero => rfl
    | succ i =>
      simp only [List.length_cons] at hi
      exact ih i (by omega)
  | case2 img hshort => exact absurd (half_length_eq_zero hshort) (by omega)

theorem decodeCompact_payload_le {img : List Byte} (h : o ∈ decodeCompact img) : o.payload.toNat ≤ 255 := by
  obtain ⟨i, hi, rfl⟩ := List.mem_iff_getElem.mp h
  have hget := getElem?_decodeCompact img i (length_decodeCompact img ▸ hi)
  rw [List.getElem?_eq_getElem hi, Option.some_inj] at hget
  rw [hget]
  exact toNat_zext64_le _

theorem length_encodeImage_compact (ops : List Operand) : (encodeImage .compact ops).length = 2 * ops.length := by
  induction ops with
  | nil => rfl
  | cons o ops ih =>
    rw [encodeImage_cons, encodeOperand_compact, List.length_append, ih]
    simp only [List.length_cons, List.length_nil]
    omega

/-- Two bytes decoded and encoded again: an unassigned tag byte becomes the code of `NoType` (R102). -/
theorem encodeImage_decodeCompact_cons (t p : Byte) (img : List Byte) :
    encodeImage .compact (decodeCompact (t :: p :: img)) =
      (if 0x0F ≤ t.toNat then 0x0E else t) :: p :: encodeImage .compact (decodeCompact img) := by
  rw [decodeCompact_cons, encodeImage_cons, ← tagCode_tagOf]
  simp only [encodeOperand, setWidth_zext64, List.cons_append, List.nil_append]

/-- Byte `i` of a re-encoded image is the image's own, but for an unassigned tag byte. -/
theorem getElem?_encodeImage_decodeCompact (img : List Byte) (i : Nat) (hi : i < 2 * (img.length / 2)) :
    (encodeImage .compact (decodeCompact img))[i]? =
      some (if i % 2 = 0 ∧ 0x0F ≤ (img.getD i 0).toNat then 0x0E else img.getD i 0) := by
  induction img using decodeCompact.induct generalizing i with
  | case1 t p img ih =>
    rw [encodeImage_decodeCompact_cons]
    match i with
    | 0 => simp
    | 1 => simp
    | i + 2 =>
      simp only [List.length_cons] at hi
      simpa using ih i (by omega)
  | case2 img hshort => exact absurd (half_length_eq_zero hshort) (by omega)

/-! The wide form. -/

/-- The number bytes spell, as a sum over their places (R110). -/
theorem bigEndian_eq_sum (bytes : List Byte) :
    bigEndian bytes =
      ((List.range bytes.length).map fun i => (bytes.getD i 0).toNat * 256 ^ (bytes.length - 1 - i)).sum := by
  induction bytes with
  | nil => rfl
  | cons b bytes ih =>
    rw [bigEndian_cons, ih, List.length_cons, List.range_succ_eq_map, List.map_cons, List.sum_cons, List.map_map]
    congr 3
    funext i
    simp only [Function.comp_apply, Nat.succ_eq_add_one, List.getD_cons_succ]
    congr 2
    omega

/-- A tag byte and as many bytes as its width give one operand in front of what the rest gives (R112). -/
theorem decodeWide_operand {b : Byte} {payload : List Byte} (rest : List Byte)
    (h : payload.length = (tagOf b).wideWidth) :
    decodeWide (b :: (payload ++ rest)) = ⟨tagOf b, BitVec.ofNat 64 (bigEndian payload)⟩ :: decodeWide rest := by
  have henough : ¬ (payload ++ rest).length < (tagOf b).wideWidth := by
    rw [List.length_append]
    omega
  rw [decodeWide_cons, if_neg henough, List.take_left' h, List.drop_left' h]

theorem decodeWide_incomplete {b : Byte} {payload : List Byte} (h : payload.length < (tagOf b).wideWidth) :
    decodeWide (b :: payload) = [] := by
  rw [decodeWide_cons, if_pos h]

/-- Where the tag's payload is one byte wide, both forms write the same two bytes (R114). -/
theorem encodeOperand_compact_eq_wide (h : o.tag.wideWidth = 1) : encodeOperand .compact o = encodeOperand .wide o := by
  rw [encodeOperand_compact]
  simp [encodeOperand, h, bigEndianBytes]

/-! Both forms. -/

/-- The decoder takes an encoded operand off an image (R107, R113). -/
theorem decodeImage_encodeOperand (h : o.wellFormed form = true) (img : List Byte) :
    decodeImage form (encodeOperand form o ++ img) = o :: decodeImage form img := by
  cases form with
  | compact =>
    have hpayload := zext64_setWidth (wellFormed_compact_iff.mp h)
    simp only [encodeOperand, decodeImage, List.cons_append, List.nil_append, decodeCompact_cons, tagOf_tagCode,
      hpayload]
  | wide =>
    have hfits : o.payload.toNat < 256 ^ o.tag.wideWidth := wellFormed_iff.mp h
    have hwidth : (bigEndianBytes o.tag.wideWidth o.payload.toNat).length = (tagOf (tagCode o.tag)).wideWidth := by
      rw [length_bigEndianBytes, tagOf_tagCode]
    simp only [encodeOperand, decodeImage, List.cons_append, decodeWide_operand img hwidth, tagOf_tagCode,
      bigEndian_bigEndianBytes, Nat.mod_eq_of_lt hfits, BitVec.ofNat_toNat, BitVec.setWidth_eq]

/-- Operands that the form can carry come back. -/
theorem decodeImage_encodeImage (h : ∀ o ∈ ops, o.wellFormed form = true) :
    decodeImage form (encodeImage form ops) = ops := by
  induction ops with
  | nil => cases form <;> rfl
  | cons o ops ih =>
    rw [List.forall_mem_cons] at h
    rw [encodeImage_cons, decodeImage_encodeOperand h.1, ih h.2]

theorem decodeCompact_encodeImage (h : ∀ o ∈ ops, o.payload.toNat ≤ 255) :
    decodeCompact (encodeImage .compact ops) = ops :=
  decodeImage_encodeImage (form := .compact) fun o ho => wellFormed_compact_iff.mpr (h o ho)

theorem decodeWide_encodeImage (h : ∀ o ∈ ops, o.payload.toNat < 256 ^ o.tag.wideWidth) :
    decodeWide (encodeImage .wide ops) = ops :=
  decodeImage_encodeImage (form := .wide) fun o ho => wellFormed_iff.mpr (h o ho)

theorem encodeImage_compact_eq_wide (h : ∀ o ∈ ops, o.tag.wideWidth = 1) :
    encodeImage .compact ops = encodeImage .wide ops :=
  List.flatMap_congr fun o ho => encodeOperand_compact_eq_wide (h o ho)

end WireForms

/-- Settles O3: the pointwise reading of the compact decoder, and the tag codes read back. -/
theorem compactDecoderPointwise : Obligations.CompactDecoderPointwise := by
  refine ⟨fun img => ⟨length_decodeCompact img, fun i hi => ?_⟩, tagOf_tagCode, fun _ => tagOf_unassigned⟩
  rw [getElem?_decodeCompact img i hi, zext64_eq]

/-- Settles O4: an operand's two bytes, the round trip, and the re-encoded image byte by byte. -/
theorem compactEncoderRoundTrips : Obligations.CompactEncoderRoundTrips := by
  refine ⟨fun o _ => encodeOperand_compact o, fun _ => decodeCompact_encodeImage,
    fun _ _ => decodeCompact_payload_le, fun img i hi => ⟨?_, getElem?_encodeImage_decodeCompact img i hi⟩⟩
  rw [length_encodeImage_compact, length_decodeCompact]

/-- Settles O5: one round of the wide decoder, with the payload's number as a sum over its bytes. -/
theorem wideDecoderTakesOperandsInOrder : Obligations.WideDecoderTakesOperandsInOrder := by
  refine ⟨rfl, fun b payload rest h => ?_, fun _ _ => decodeWide_incomplete⟩
  have hmod (n : Nat) : BitVec.ofNat 64 (n % 2 ^ 64) = BitVec.ofNat 64 n := BitVec.eq_of_toNat_eq (by simp)
  rw [decodeWide_operand rest h, ← bigEndian_eq_sum, hmod]

/-- Settles O6: the wide round trip; where the forms write the same bytes, both decoders give the operands back. -/
theorem wideEncoderRoundTrips : Obligations.WideEncoderRoundTrips := by
  refine ⟨fun _ => decodeWide_encodeImage, fun ops h => ?_⟩
  have hbytes := encodeImage_compact_eq_wide fun o ho => (h o ho).1
  have hfits : ∀ o ∈ ops, o.payload.toNat < 256 ^ o.tag.wideWidth := fun o ho => by
    obtain ⟨hwidth, hpayload⟩ := h o ho
    rw [hwidth]
    omega
  refine ⟨hbytes, ?_⟩
  rw [decodeCompact_encodeImage fun o ho => (h o ho).2, hbytes, decodeWide_encodeImage hfits]

/-! Instructions (R115, R120, R122): an instruction whose operands are all there is read back from the operands it
stands for, and these fit the form where the instruction does. -/

section Instructions

/-- The operands an instruction stands for are read back as the instruction. -/
theorem decodeOperands_encodeOperands : ∀ i : Instr, Laws.Operands.Statement i
  | .nop => Laws.Operands.nop
  | .add l r => Laws.Operands.add l r
  | .sub l r => Laws.Operands.sub l r
  | .mul l r => Laws.Operands.mul l r
  | .div l r => Laws.Operands.div l r
  | .mod l r => Laws.Operands.mod l r
  | .and l r => Laws.Operands.and l r
  | .or l r => Laws.Operands.or l r
  | .xor l r => Laws.Operands.xor l r
  | .not d => Laws.Operands.not d
  | .eq l r => Laws.Operands.eq l r
  | .neq l r => Laws.Operands.neq l r
  | .lt l r => Laws.Operands.lt l r
  | .gt l r => Laws.Operands.gt l r
  | .push v => Laws.Operands.push v
  | .pop d => Laws.Operands.pop d
  | .dup => Laws.Operands.dup
  | .swap => Laws.Operands.swap
  | .jmp t => Laws.Operands.jmp t
  | .jz f => Laws.Operands.jz f
  | .jnz f => Laws.Operands.jnz f
  | .load d a => Laws.Operands.load d a
  | .store a n data => Laws.Operands.store a n data
  | .write a n => Laws.Operands.write a n
  | .read a n => Laws.Operands.read a n
  | .flush => Laws.Operands.flush
  | .mov d v => Laws.Operands.mov d v
  | .inc o => Laws.Operands.inc o
  | .dec o => Laws.Operands.dec o
  | .alloc d n => Laws.Operands.alloc d n
  | .free a => Laws.Operands.free a
  | .realloc d n => Laws.Operands.realloc d n
  | .func label => Laws.Operands.func label
  | .call f => Laws.Operands.call f
  | .ret => Laws.Operands.ret
  | .wracc v => Laws.Operands.wracc v
  | .reacc d => Laws.Operands.reacc d

variable {form : WireForm} {i : Instr}

theorem instr_wellFormed_iff :
    i.wellFormed form = true ↔
      (∀ x ∈ i.slots, Slot.wellFormed form x = true) ∧ ∀ o ∈ i.tail, o.wellFormed form = true := by
  rw [Instr.wellFormed, Bool.and_eq_true, List.all_eq_true, List.all_eq_true]

/-- Both forms carry every opcode operand (R120). -/
theorem opcodeOperand_wellFormed (form : WireForm) (code : Byte) :
    Operand.wellFormed form ⟨.op, zext64 code⟩ = true := by
  have hle := toNat_zext64_le code
  cases form with
  | compact => exact wellFormed_iff.mpr (Nat.lt_succ_of_le hle)
  | wide => exact wellFormed_iff.mpr (Nat.lt_succ_of_le hle)

theorem slots_present (h : i.wellFormed form = true) : ∀ x ∈ i.slots, x ≠ none := by
  rintro _ hx rfl
  exact Bool.false_ne_true ((instr_wellFormed_iff.mp h).1 none hx)

theorem encodeOperands_wellFormed (h : i.wellFormed form = true) :
    ∀ o ∈ encodeOperands i, o.wellFormed form = true := by
  obtain ⟨hslots, htail⟩ := instr_wellFormed_iff.mp h
  rw [encodeOperands, List.forall_mem_cons, List.forall_mem_append]
  refine ⟨opcodeOperand_wellFormed form _, fun o ho => ?_, htail⟩
  obtain ⟨x, hx, rfl⟩ := List.mem_filterMap.mp ho
  exact hslots _ hx

end Instructions

/-- Settles O2: the image decodes to the instruction's operands, and these to the instruction. -/
theorem decodeOfEncode : Obligations.DecodeOfEncode := by
  intro form i h
  rw [decode, encode, decodeImage_encodeImage (encodeOperands_wellFormed h)]
  exact decodeOperands_encodeOperands i (slots_present h)

end Sys2Proof

namespace Sys2Proof.Machine

/-! The step around the instruction (40_pipeline.md R140 to R143, R161, R162). -/

section Pipeline

variable {s : State}

/-- Settles O7: a decoded instruction answers a next state, and the end-of-stream test follows it. -/
theorem stepRunsTheDecodedInstruction : Obligations.StepRunsTheDecodedInstruction := by
  intro s i hr hd
  obtain ⟨t, ht⟩ := exec_isNext i s
  exact ⟨t, ht, (step_of_decode hr hd ht).trans (by rw [endOfStream_eq])⟩

/-- The operands at `pc` begin with the stream's operand there. -/
theorem operandsAtPc_of_getElem? {o : Operand} (ho : s.stream[s.pc]? = some o) :
    operandsAtPc s = o :: s.stream.drop (s.pc + 1) := by
  obtain ⟨hlt, rfl⟩ := List.getElem?_eq_some_iff.mp ho
  exact List.drop_eq_getElem_cons hlt

theorem fetch_notOpTag {o : Operand} (ho : s.stream[s.pc]? = some o) (ht : o.tag ≠ .op) :
    fetch s = .error (faultedState s .invalidOpcode .notOpTag (some s.pc) none none) := by
  have hd : decodeOperands (operandsAtPc s) = .error .notOpTag := by
    rw [operandsAtPc_of_getElem? ho, decodeOperands, if_neg ht]
  rw [fetch, hd]
  rfl

theorem fetch_undefinedOpcode {o : Operand} (ho : s.stream[s.pc]? = some o) (ht : o.tag = .op)
    (hp : 0x24 < o.payload.toNat) :
    fetch s = .error (faultedState s .invalidOpcode .undefinedOpcode (some s.pc) none (some o.payload)) := by
  have hd : decodeOperands (operandsAtPc s) = .error (.undefinedOpcode o.payload) := by
    rw [operandsAtPc_of_getElem? ho, decodeOperands, if_pos ht, opcodeOf_undefined hp]
  rw [fetch, hd]
  rfl

/-- An opcode operand with a payload up to 0x24 begins the instruction with that opcode. -/
theorem decodeOperands_of_opcode {o : Operand} (rest : List Operand) (ht : o.tag = .op)
    (hp : o.payload.toNat ≤ 0x24) :
    ∃ i, decodeOperands (o :: rest) = .ok i ∧ (opcodeCode i.opcode).toNat = o.payload.toNat := by
  obtain ⟨c, hc, hcode⟩ := opcodeOf_defined hp
  exact ⟨instrOf c rest, decodeOperands_ok.mpr ⟨o, rest, c, rfl, ht, hc, rfl⟩, by rw [instrOf_opcode, hcode]⟩

/-- Settles O8: the tag and the payload of the operand at `pc` decide what the fetch finds. -/
theorem fetchFaultsOnNonOpcodes : Obligations.FetchFaultsOnNonOpcodes := by
  intro s o hr ho
  refine ⟨fun ht => step_of_fetch_error hr (fetch_notOpTag ho ht),
    fun ht hp => step_of_fetch_error hr (fetch_undefinedOpcode ho ht hp), fun ht hp => ?_⟩
  obtain ⟨i, hi⟩ := decodeOperands_of_opcode (s.stream.drop (s.pc + 1)) ht hp
  rw [← operandsAtPc_of_getElem? ho] at hi
  exact ⟨i, hi⟩

/-- The end-of-stream test leaves a running engine halted or running (40_pipeline.md R141). -/
theorem endOfStream_of_running (hr : s.engState = .running) :
    (endOfStream s).engState =
      if (endOfStream s).stream.length ≤ (endOfStream s).pc then .halted else .running := by
  simp [hr, State.len]

/-- Settles O9: an instruction's effect keeps the engine running for the end-of-stream test, and a fault is terminal. -/
theorem stepHaltsExactlyAtTheEnd : Obligations.StepHaltsExactlyAtTheEnd := by
  intro s t ht
  obtain ⟨hr, ⟨i, u, -, hu, rfl⟩ | ⟨-, rfl⟩ | ⟨c, rfl⟩⟩ := step_cases ht
  · rcases exec_cases hu with he | ⟨c, rfl⟩
    · have heng : u.engState = s.engState := effect_keeps (p := .engState) he List.not_mem_nil
      exact .inr (endOfStream_of_running (heng.trans hr))
    · rw [endOfStream_faulted rfl]
      exact .inl rfl
  · exact .inr (endOfStream_of_running hr)
  · exact .inl rfl

end Pipeline
end Sys2Proof.Machine

namespace Sys2Proof.Machine

/-! The fetch modes (40_pipeline.md R150 to R153): the fault of each check; the values are in the model's own laws. -/

section FetchModes

variable {s : State} {j : Nat} {p : Word}

theorem registerIndex_of_le (h : 60 ≤ p.toNat) :
    registerIndex s j p = .error ⟨.badRegister, some (s.pc + j), some p⟩ :=
  dif_neg h.not_gt

theorem functionPosition_of_le (h : s.jt.length ≤ p.toNat) :
    functionPosition s j p = .error ⟨.badFunctionIndex, some (s.pc + j), some p⟩ := by
  rw [functionPosition, List.getElem?_eq_none h]

theorem stackPeek_of_le {q : Nat} (h : s.sp ≤ p.toNat) :
    stackPeek s q p = .error ⟨.offsetOutOfRange, some q, some p⟩ :=
  if_neg h.not_gt

/-- The address of a faulting read is the register's own word. -/
theorem memRead_of_le {opnd : Option Nat} (h : s.config.heapSize ≤ p.toNat) :
    memRead s opnd p.toNat = .error ⟨.readOutOfRange, opnd, some p⟩ := by
  rw [memRead, if_neg h.not_gt, wordOfNat_toNat]

theorem typed_some (o : Operand) : typed s j (some o) = resolveOperand s j o := rfl

/-- Settles O11: one clause for each tag's value and for each check's fault. -/
theorem operandsResolveByTag : Obligations.OperandsResolveByTag := by
  intro s j p
  simp only [typed_some]
  refine ⟨?_, ?_, ?_, ?_, ?_, ?_, ?_, ?_, ?_, rfl⟩
  · simp [resolveOperand]
  · exact fun d hd => bind_eq_ok.mpr ⟨d, registerIndex_ok.mpr hd, rfl⟩
  · intro h
    rw [← zext64_eq]
    exact bind_eq_ok.mpr ⟨_, stackPeek_ok.mpr ⟨h, rfl⟩, rfl⟩
  · exact fun h => bind_eq_error.mpr (.inl (stackPeek_of_le h))
  · intro d hd h
    rw [← zext64_eq]
    exact bind_eq_ok.mpr ⟨d, registerIndex_ok.mpr hd, bind_eq_ok.mpr ⟨_, memRead_ok.mpr ⟨h, rfl⟩, rfl⟩⟩
  · exact fun d hd h => bind_eq_error.mpr
      (.inr ⟨d, registerIndex_ok.mpr hd, bind_eq_error.mpr (.inl (memRead_of_le h))⟩)
  · intro h
    have hbad := registerIndex_of_le (s := s) (j := j) h
    simp only [List.forall_mem_cons]
    exact ⟨bind_eq_error.mpr (.inl hbad), bind_eq_error.mpr (.inl hbad), nofun⟩
  · exact fun q hq => ⟨wordOfNat q, bind_eq_ok.mpr ⟨q, functionPosition_ok.mpr hq, rfl⟩, wordOfNat_of_lt⟩
  · exact fun h => bind_eq_error.mpr (.inl (functionPosition_of_le h))

/-- Settles O12: the three modes look at the payload only. -/
theorem otherFetchModesIgnoreTheTag : Obligations.OtherFetchModesIgnoreTheTag := by
  intro s j t p
  exact ⟨untyped_ok.mpr ⟨_, rfl, rfl⟩, fun d hd => dest_ok.mpr ⟨_, rfl, hd⟩, fun h => registerIndex_of_le h,
    fun q hq => funcPos_ok.mpr ⟨_, rfl, hq⟩, fun h => functionPosition_of_le h⟩

end FetchModes
end Sys2Proof.Machine

namespace Sys2Proof.Machine

/-! Operands that the stream does not hold (40_pipeline.md R145, R158). -/

section MissingOperands

variable {s : State} {i : Instr}

/-- What decodes at `pc` has its opcode operand there and takes its operands from behind it (R115). -/
theorem decode_at_pc (hd : decodeOperands (s.stream.drop s.pc) = .ok i) :
    s.pc < s.stream.length ∧ ∃ c, i = instrOf c (s.stream.drop (s.pc + 1)) := by
  obtain ⟨o, rest, c, hops, -, -, rfl⟩ := decodeOperands_ok.mp hd
  have hpc : s.pc < s.stream.length := by
    by_contra hge
    simp [List.drop_eq_nil_of_le (Nat.le_of_not_lt hge)] at hops
  rw [List.drop_eq_getElem_cons hpc] at hops
  obtain ⟨-, rfl⟩ := List.cons.inj hops
  exact ⟨hpc, c, rfl⟩

/-- The operands of the decoded instruction are the stream's from `pc + 1` on (R144). -/
theorem slots_of_decode (hd : decodeOperands (s.stream.drop s.pc) = .ok i) {j : Nat} (hj : j < i.slots.length) :
    i.slots[j]? = some s.stream[s.pc + 1 + j]? := by
  obtain ⟨-, c, rfl⟩ := decode_at_pc hd
  rw [instrOf_slots hj, List.getElem?_drop]

/-- STORE's values are the stream's operands from `pc + 3` on (R116). -/
theorem store_tail_of_decode (hd : decodeOperands (s.stream.drop s.pc) = .ok i) (hi : i.opcode = .store) (k : Nat) :
    i.tail[k]? = s.stream[s.pc + 3 + k]? := by
  obtain ⟨-, c, rfl⟩ := decode_at_pc hd
  obtain rfl : c = .store := (instrOf_opcode c _).symm.trans hi
  rw [instrOf_store_tail, List.getElem?_drop]
  congr 1
  omega

/-- The shapes of R122 fix at most two operands. -/
theorem length_slots_le (i : Instr) : i.slots.length ≤ 2 := by
  cases i <;> simp [Instr.slots]

/-- An instruction whose first operand is missing takes that fault: its first check is the fetch of that operand. -/
theorem exec_first_missing (h : i.slots.head? = some none) :
    exec i s = .next (faultedBy s (opcodeCode i.opcode) ⟨.truncated, some (s.pc + 1), none⟩) := by
  cases i
  case nop | dup | swap | flush | ret => cases h
  all_goals
    obtain rfl := Option.some.inj h
    rfl

/-- A check of the first operand, and then the fetch of a second that is missing. -/
theorem complete_second_missing {α : Type} {op : Byte} {p : Check α} {f : α → Check State}
    (hp : ∀ c, p = .error c → c.opnd = some (s.pc + 1) ∧ c.reason ≠ .truncated)
    (hf : ∀ x, f x = .error ⟨.truncated, some (s.pc + 2), none⟩) :
    ∃ c, complete op s (p >>= f) = .next (faultedBy s op c) ∧
      (c = ⟨.truncated, some (s.pc + 2), none⟩ ∨ c.opnd = some (s.pc + 1) ∧ c.reason ≠ .truncated) := by
  cases hx : p with
  | error c => exact ⟨c, rfl, .inr (hp c hx)⟩
  | ok x =>
    have hbind : (.ok x >>= f) = .error ⟨.truncated, some (s.pc + 2), none⟩ := hf x
    exact ⟨_, by rw [hbind]; rfl, .inl rfl⟩

/-- An instruction whose second operand is missing takes the first operand's fault, or else that of the second. -/
theorem exec_second_missing {o : Operand} (h : i.slots = [some o, none]) :
    ∃ c, exec i s = .next (faultedBy s (opcodeCode i.opcode) c) ∧
      (c = ⟨.truncated, some (s.pc + 2), none⟩ ∨ c.opnd = some (s.pc + 1) ∧ c.reason ≠ .truncated) := by
  cases i
  case add | sub | mul | div | mod | and | or | xor | eq | neq | lt | gt | store | write | read =>
    cases h
    exact complete_second_missing (fun _ => typed_some_error) (fun _ => rfl)
  case load | mov | alloc | realloc =>
    cases h
    exact complete_second_missing (fun _ => dest_some_error) (fun _ => rfl)
  all_goals cases h

/-- A step whose instruction takes a fault ends in that fault: the end-of-stream test leaves a faulted engine. -/
theorem step_of_exec_fault {c : FaultCause} (hr : s.engState = .running)
    (hd : decodeOperands (s.stream.drop s.pc) = .ok i)
    (hu : exec i s = .next (faultedBy s (opcodeCode i.opcode) c)) :
    step s = .next (faultedBy s (opcodeCode i.opcode) c) :=
  (step_of_decode hr hd hu).trans (congrArg _ (endOfStream_faulted rfl))

/-- A step whose shape runs past the end of the stream: the first operand is missing, or the second is. -/
theorem step_past_end (hr : s.engState = .running) (hd : decodeOperands (s.stream.drop s.pc) = .ok i)
    (hlen : s.stream.length < s.pc + 1 + i.slots.length) :
    ∃ c, step s = .next (faultedBy s (opcodeCode i.opcode) c) ∧
      (c = ⟨.truncated, some s.stream.length, none⟩ ∨
        (s.stream.length = s.pc + 2 ∧ c.opnd = some (s.pc + 1) ∧ c.reason ≠ .truncated)) := by
  obtain ⟨hpc, -⟩ := decode_at_pc hd
  have hle := length_slots_le i
  obtain hone | htwo : s.stream.length = s.pc + 1 ∨ s.stream.length = s.pc + 2 := by omega
  · have hfirst : i.slots.head? = some none := by
      rw [List.head?_eq_getElem?, slots_of_decode hd (by omega), List.getElem?_eq_none (by omega)]
    exact ⟨_, step_of_exec_fault hr hd (exec_first_missing hfirst), .inl (by rw [hone])⟩
  · have hslots : i.slots = [some s.stream[s.pc + 1], none] := by
      obtain ⟨d, r, hdr⟩ := List.length_eq_two.mp (show i.slots.length = 2 by omega)
      have hfirst : i.slots[0]? = some (some s.stream[s.pc + 1]) :=
        (slots_of_decode hd (by omega)).trans (congrArg some (List.getElem?_eq_getElem _))
      have hsecond : i.slots[1]? = some none :=
        (slots_of_decode hd (by omega)).trans (congrArg some (List.getElem?_eq_none htwo.le))
      rw [hdr] at hfirst hsecond
      rw [hdr, Option.some.inj hfirst, Option.some.inj hsecond]
    obtain ⟨c, hc, hcause⟩ := exec_second_missing hslots
    exact ⟨c, step_of_exec_fault hr hd hc, hcause.imp (fun h => by rw [h, htwo]) (fun h => ⟨htwo, h⟩)⟩

/-- Settles O13: an empty slot's fault is by definition; the others are the lemmas above. -/
theorem missingOperandsAreTruncated : Obligations.MissingOperandsAreTruncated :=
  ⟨fun _ _ => ⟨rfl, rfl, rfl, rfl⟩, fun _ _ hd => ⟨fun _ => slots_of_decode hd, store_tail_of_decode hd⟩,
    fun _ _ => exec_first_missing, fun _ _ => step_past_end⟩

end MissingOperands
end Sys2Proof.Machine

namespace Sys2Proof.Machine

/-! The pre-scan (40_pipeline.md R170 to R172). -/

section PreScan

variable {cap : Option Nat} {q : Nat} {ops : List Operand} {jt : List Nat}

/-- The positions of the markers among `ops`, in order, where `ops` begins at position `q`. -/
def markersFrom (q : Nat) (ops : List Operand) : List Nat :=
  ((List.range ops.length).filter (markerAt ops)).map (q + ·)

/-- A marker behind the first operand is one of the operands behind it. -/
theorem markerAt_cons_succ (o : Operand) (k : Nat) : markerAt (o :: ops) (k + 1) = markerAt ops k := by
  simp [markerAt]

theorem markersFrom_cons (o : Operand) :
    markersFrom q (o :: ops) =
      if markerAt (o :: ops) 0 then q :: markersFrom (q + 1) ops else markersFrom (q + 1) ops := by
  have hrest : ((List.range ops.length).map Nat.succ).filter (markerAt (o :: ops)) =
      ((List.range ops.length).filter (markerAt ops)).map Nat.succ := by
    rw [List.filter_map, show markerAt (o :: ops) ∘ Nat.succ = markerAt ops from funext (markerAt_cons_succ o)]
  have hshift : (((List.range ops.length).filter (markerAt ops)).map Nat.succ).map (q + ·) =
      markersFrom (q + 1) ops := by
    rw [markersFrom, List.map_map]
    exact List.map_congr_left fun k _ => Nat.add_right_comm q k 1
  rw [markersFrom, List.length_cons, List.range_succ_eq_map, List.filter_cons, hrest]
  split
  · rw [List.map_cons, hshift, Nat.add_zero]
  · exact hshift

/-- One position of the pre-scan. -/
theorem preScan_cons (o : Operand) :
    preScan cap q (o :: ops) jt =
      if markerAt (o :: ops) 0 then
        if atCapacity cap jt.length then .error (q, ⟨.jumpTableFull, some (q + 1), none⟩)
        else preScan cap (q + 1) ops (jt ++ [q + 2])
      else preScan cap (q + 1) ops jt := by
  cases ops with
  | nil => simp [preScan, markerAt]
  | cons label rest => rfl

/-- Where the table has room for all markers, the pre-scan appends the position after each. -/
theorem preScan_of_within (h : withinCapacity cap (jt.length + (markersFrom q ops).length)) :
    preScan cap q ops jt = .ok (jt ++ (markersFrom q ops).map (· + 2)) := by
  induction ops generalizing q jt with
  | nil => simp [preScan, markersFrom]
  | cons o ops ih =>
    rw [markersFrom_cons] at h ⊢
    rw [preScan_cons]
    split at h
    · rename_i hm
      have hroom : atCapacity cap jt.length = false := atCapacity_eq_false.mpr fun hc => by
        simpa using h _ hc
      rw [if_pos hm, if_pos hm, hroom, if_neg Bool.false_ne_true, ih ?_]
      · simp
      · simpa [Nat.add_assoc, Nat.add_comm 1] using h
    · rename_i hm
      rw [if_neg hm, if_neg hm, ih h]

/-- With room for `n` more entries, the pre-scan faults at the marker number `n`, counted from 0. -/
theorem preScan_of_full {c n m : Nat} (hroom : jt.length + n = c) (hm : (markersFrom q ops)[n]? = some m) :
    preScan (some c) q ops jt = .error (m, ⟨.jumpTableFull, some (m + 1), none⟩) := by
  induction ops generalizing q jt n with
  | nil => simp [markersFrom] at hm
  | cons o ops ih =>
    rw [markersFrom_cons] at hm
    rw [preScan_cons]
    split at hm
    · rename_i hmark
      rw [if_pos hmark]
      cases n with
      | zero =>
        obtain rfl : q = m := by simpa using hm
        obtain rfl : jt.length = c := hroom
        simp [atCapacity]
      | succ n =>
        have hfree : atCapacity (some c) jt.length = false := atCapacity_eq_false.mpr (by simp; omega)
        rw [hfree, if_neg Bool.false_ne_true]
        refine ih ?_ (by simpa using hm)
        rw [List.length_append, List.length_singleton]
        omega
    · rename_i hmark
      rw [if_neg hmark]
      exact ih hroom hm

/-- Settles O58: both clauses are the pre-scan's from an empty table at position 0. -/
theorem preScanRecordsEveryMarker : Obligations.PreScanRecordsEveryMarker := by
  rintro cap stream markers rfl
  have hall : markersFrom 0 stream = (List.range stream.length).filter fun q => markerAt stream q := by
    simp [markersFrom]
  refine ⟨fun h => ?_, ?_⟩
  · rw [preScan_of_within (by simpa [hall] using h), hall]
    rfl
  · rintro c q rfl hq
    exact preScan_of_full (Nat.zero_add c) (hall ▸ hq)

end PreScan
end Sys2Proof.Machine

namespace Sys2Proof.Machine

/-! NOP and the ALU (41_nop_alu.md R180 to R196): the shape its instructions share, the word each computes, and their
opcodes. -/

section Alu

variable {op : Byte} {f : Word → Word → Check Word} {g : Word → Word → Word}
variable {s : State} {l r : Slot} {x y v : Word} {c : FaultCause}

/-- An opcode operand begins the instruction of its opcode, over the operands that follow it (30_encoding.md R120). -/
theorem decodeOperands_cons_opcode (c : Opcode) (rest : List Operand) :
    decodeOperands (⟨.op, zext64 (opcodeCode c)⟩ :: rest) = .ok (instrOf c rest) :=
  decodeOperands_ok.mpr ⟨_, rest, c, rfl, rfl, by rw [toNat_zext64, opcodeOf_opcodeCode], rfl⟩

/-- With both operands resolved, the result goes to `ACC` and nothing else is written. -/
theorem binaryOp_of_resolved (hx : typed s 1 l = .ok x) (hy : typed s 2 r = .ok y) (hv : f x y = .ok v) :
    binaryOp op f l r s = .next { s with acc := v, pc := s.pc + 3 } :=
  binaryOp_next.mpr (.inl ⟨x, y, v, hx, hy, hv, rfl⟩)

/-- The first operand that faults decides the fault, whatever the operation. -/
theorem binaryOp_of_operand_fault (h : typed s 1 l = .error c ∨ ∃ x, typed s 1 l = .ok x ∧ typed s 2 r = .error c) :
    binaryOp op f l r s = .next (faultedBy s op c) :=
  binaryOp_next.mpr (.inr ⟨c, h.imp_right .inl, rfl⟩)

/-- A divisor of 0 faults at the second operand, before the division `g` (R184, R185). -/
theorem binaryOp_of_zero_divisor {why : FaultReason} (hx : typed s 1 l = .ok x) (hy : typed s 2 r = .ok 0) :
    binaryOp op (fun x y => do nonzeroDivisor s why y; return g x y) l r s =
      .next (faultedBy s op ⟨why, some (s.pc + 2), none⟩) :=
  binaryOp_next.mpr (.inr ⟨_, .inr (.inr ⟨x, 0, hx, hy, bind_eq_error.mpr (.inl (if_pos rfl))⟩), rfl⟩)

/-- A divisor other than 0 lets the division `g` through. -/
theorem binaryOp_of_nonzero_divisor {why : FaultReason} (hx : typed s 1 l = .ok x) (hy : typed s 2 r = .ok y)
    (hne : y ≠ 0) (hv : g x y = v) :
    binaryOp op (fun x y => do nonzeroDivisor s why y; return g x y) l r s =
      .next { s with acc := v, pc := s.pc + 3 } :=
  binaryOp_of_resolved hx hy (bind_eq_ok.mpr ⟨(), nonzeroDivisor_ok.mpr hne, congrArg _ hv⟩)

/-- A difference of words is the integers' difference modulo `2^64` (R195). -/
theorem sub_eq_ofInt (x y : Word) : x - y = BitVec.ofInt 64 ((x.toNat : Int) - y.toNat) := by
  apply BitVec.eq_of_toNat_eq
  rw [BitVec.toNat_sub, BitVec.toNat_ofInt]
  omega

/-- A word is read off the number it stands for. -/
theorem eq_ofNat_of_toNat_eq {n : Nat} (h : v.toNat = n) : v = BitVec.ofNat 64 n := by
  rw [← h, BitVec.ofNat_toNat, BitVec.setWidth_eq]

/-- What a comparison leaves is 1 where the relation it tests holds, and else 0 (R196). -/
theorem truthWord_of_iff {b : Bool} {p : Prop} [Decidable p] (h : b = true ↔ p) :
    truthWord b = if p then 1 else 0 := by
  simp only [truthWord, h]

end Alu

/-- Settles O16: NOP's effect is `pc + 1`. -/
theorem nopOnlyAdvances : Obligations.NopOnlyAdvances :=
  fun _ rest => ⟨decodeOperands_cons_opcode .nop rest, exec_of_effect (i := .nop) rfl⟩

/-- Settles O17: each operation on words is the numbers' operation modulo `2^64`. -/
theorem addSubMulWrapIntoAcc : Obligations.AddSubMulWrapIntoAcc := by
  intro s l r
  refine ⟨fun x y hx hy => ⟨?_, ?_, ?_⟩, fun c hc => ⟨?_, ?_, ?_⟩, fun o q rest => ⟨?_, ?_, ?_⟩⟩
  · exact binaryOp_of_resolved hx hy (congrArg _ (BitVec.add_def x y))
  · exact binaryOp_of_resolved hx hy (congrArg _ (sub_eq_ofInt x y))
  · exact binaryOp_of_resolved hx hy (congrArg _ BitVec.mul_def)
  · exact binaryOp_of_operand_fault hc
  · exact binaryOp_of_operand_fault hc
  · exact binaryOp_of_operand_fault hc
  · exact decodeOperands_cons_opcode .add (o :: q :: rest)
  · exact decodeOperands_cons_opcode .sub (o :: q :: rest)
  · exact decodeOperands_cons_opcode .mul (o :: q :: rest)

/-- Settles O18: the divisor is tested after both operands and before the division. -/
theorem divModAreUnsignedAndFaultOnZero : Obligations.DivModAreUnsignedAndFaultOnZero := by
  intro s l r
  refine ⟨fun x y hx hy hne => ⟨?_, ?_⟩, fun x hx hy => ⟨?_, ?_⟩, fun c hc => ⟨?_, ?_⟩, fun o q rest => ⟨?_, ?_⟩⟩
  · exact binaryOp_of_nonzero_divisor hx hy hne BitVec.udiv_def
  · exact binaryOp_of_nonzero_divisor hx hy hne BitVec.umod_def
  · exact binaryOp_of_zero_divisor hx hy
  · exact binaryOp_of_zero_divisor hx hy
  · exact binaryOp_of_operand_fault hc
  · exact binaryOp_of_operand_fault hc
  · exact decodeOperands_cons_opcode .div (o :: q :: rest)
  · exact decodeOperands_cons_opcode .mod (o :: q :: rest)

/-- Settles O19: each operation on words is the numbers' operation bit by bit. -/
theorem bitwiseOpsWriteAcc : Obligations.BitwiseOpsWriteAcc := by
  intro s l r
  refine ⟨fun x y hx hy => ⟨?_, ?_, ?_⟩, fun c hc => ⟨?_, ?_, ?_⟩, fun o q rest => ⟨?_, ?_, ?_⟩⟩
  · exact binaryOp_of_resolved hx hy (congrArg _ (eq_ofNat_of_toNat_eq (BitVec.toNat_and x y)))
  · exact binaryOp_of_resolved hx hy (congrArg _ (eq_ofNat_of_toNat_eq (BitVec.toNat_or x y)))
  · exact binaryOp_of_resolved hx hy (congrArg _ (eq_ofNat_of_toNat_eq (BitVec.toNat_xor x y)))
  · exact binaryOp_of_operand_fault hc
  · exact binaryOp_of_operand_fault hc
  · exact binaryOp_of_operand_fault hc
  · exact decodeOperands_cons_opcode .and (o :: q :: rest)
  · exact decodeOperands_cons_opcode .or (o :: q :: rest)
  · exact decodeOperands_cons_opcode .xor (o :: q :: rest)

/-- Settles O20: the complement goes to the one register that the operand names. -/
theorem notComplementsOneRegister : Obligations.NotComplementsOneRegister := by
  intro s d
  refine ⟨fun i hi => ?_, fun c hc => ?_, fun o rest => decodeOperands_cons_opcode .not (o :: rest)⟩
  · rw [← eq_ofNat_of_toNat_eq BitVec.toNat_not]
    exact exec_of_effect (i := .not d) ⟨i, hi, rfl⟩
  · exact complete_next.mpr (.inr ⟨c, bind_eq_error.mpr (.inl hc), rfl⟩)

/-- Settles O21: each comparison of words is that of their unsigned values (D26). -/
theorem comparisonsLeaveOneOrZero : Obligations.ComparisonsLeaveOneOrZero := by
  intro s l r
  refine ⟨fun x y hx hy => ⟨?_, ?_, ?_, ?_⟩, fun c hc => ⟨?_, ?_, ?_, ?_⟩, fun o q rest => ⟨?_, ?_, ?_, ?_⟩⟩
  · exact binaryOp_of_resolved hx hy (congrArg _ (truthWord_of_iff (beq_iff_eq.trans BitVec.toNat_inj.symm)))
  · exact binaryOp_of_resolved hx hy (congrArg _ (truthWord_of_iff (bne_iff_ne.trans BitVec.toNat_ne_iff_ne.symm)))
  · exact binaryOp_of_resolved hx hy (congrArg _ (truthWord_of_iff BitVec.ult_iff_toNat_lt))
  · exact binaryOp_of_resolved hx hy (congrArg _ (truthWord_of_iff BitVec.ult_iff_toNat_lt))
  · exact binaryOp_of_operand_fault hc
  · exact binaryOp_of_operand_fault hc
  · exact binaryOp_of_operand_fault hc
  · exact binaryOp_of_operand_fault hc
  · exact decodeOperands_cons_opcode .eq (o :: q :: rest)
  · exact decodeOperands_cons_opcode .neq (o :: q :: rest)
  · exact decodeOperands_cons_opcode .lt (o :: q :: rest)
  · exact decodeOperands_cons_opcode .gt (o :: q :: rest)

end Sys2Proof.Machine

namespace Sys2Proof.Machine

/-! The stack instructions (42_stack.md R210 to R213): the fault of each check of the stack unit, and what the array
reads as after a write. What ends well is in the model's own laws. -/

section StackInstructions

variable {s : State} {m : Memory} {a k : Nat} {b : Byte} {op : Byte} {r : Check State} {c : FaultCause}

/-- An instruction whose check fails leaves its fault (40_pipeline.md R160). -/
theorem complete_of_error (h : r = .error c) : complete op s r = .next (faultedBy s op c) :=
  complete_next.mpr (.inr ⟨c, h, rfl⟩)

/-- The same where the first of its checks fails, whatever follows it. -/
theorem complete_of_first_error {α : Type} {p : Check α} {f : α → Check State} (h : p = .error c) :
    complete op s (p >>= f) = .next (faultedBy s op c) :=
  complete_of_error (bind_eq_error.mpr (.inl h))

/-- The same where the first of its checks passes and what follows it fails. -/
theorem complete_of_later_error {α : Type} {p : Check α} {f : α → Check State} {x : α} (hx : p = .ok x)
    (h : f x = .error c) : complete op s (p >>= f) = .next (faultedBy s op c) :=
  complete_of_error (bind_eq_error.mpr (.inr ⟨x, hx, h⟩))

theorem stackPush_of_full (h : s.sp = s.config.stackCap) :
    stackPush s b = .error ⟨.overflow, none, some (wordOfNat s.sp)⟩ :=
  if_pos h

theorem stackPop_of_empty (h : s.sp = 0) : stackPop s = .error ⟨.underflow, none, some 0⟩ :=
  if_pos h

/-- An empty stack is found first, also where the capacity is 0 (R212). -/
theorem stackDup_of_empty (h : s.sp = 0) : stackDup s = .error ⟨.underflow, none, some 0⟩ :=
  if_pos h

theorem stackDup_of_full (hne : s.sp ≠ 0) (h : s.sp = s.config.stackCap) :
    stackDup s = .error ⟨.overflow, none, some (wordOfNat s.sp)⟩ :=
  (if_neg hne).trans (if_pos h)

/-- A pointer below 2 is its own 64-bit value. -/
theorem stackSwap_of_lt (h : s.sp < 2) :
    stackSwap s = .error ⟨.underflow, none, some (BitVec.ofNat 64 s.sp)⟩ := by
  rw [stackSwap, if_pos h, wordOfNat_of_lt (by omega)]

/-- The byte a value stores is its number modulo `2^8` (20_memory.md R82). -/
theorem lowByte_eq_ofNat (v : Word) : lowByte v = BitVec.ofNat 8 v.toNat :=
  (BitVec.ofNat_toNat 8 v).symm

/-- `Memory.read_write`, with the address read on the left of the test. -/
theorem read_write_at (hm : m.wf) : (m.write a b).read k = if k = a then b else m.read k :=
  (Memory.read_write hm a k b).trans (if_congr eq_comm rfl rfl)

/-- Two bytes written at two addresses are both there, and no other byte changes. -/
theorem read_write_write {a' : Nat} {b' : Byte} (hm : m.wf) (hne : a ≠ a') :
    ((m.write a b).write a' b').read k = if k = a then b else if k = a' then b' else m.read k := by
  rw [read_write_at (Memory.wf_write hm a b), read_write_at hm]
  by_cases ha : k = a
  · rw [if_neg (ha.trans_ne hne), if_pos ha, if_pos ha]
  · rw [if_neg ha, if_neg ha]

end StackInstructions

/-- Settles O22: the push writes at `SP`; the operand is resolved before the capacity is tested. -/
theorem pushStoresTheLowByte : Obligations.PushStoresTheLowByte := by
  intro s v
  refine ⟨fun x hs hx hroom => ?_, fun x hx hfull => ?_, fun c hc => ?_, fun o rest => ?_⟩
  · refine ⟨_, exec_of_effect (i := .push v) ⟨x, _, hx, stackPush_ok.mpr ⟨hroom, rfl⟩, rfl⟩, rfl, fun k => ?_⟩
    rw [← lowByte_eq_ofNat]
    exact read_write_at hs
  · exact complete_of_later_error (c := ⟨.overflow, none, _⟩) hx (bind_eq_error.mpr (.inl (stackPush_of_full hfull)))
  · exact complete_of_first_error hc
  · exact decodeOperands_cons_opcode .push (o :: rest)

/-- Settles O24: the copy is a push of the byte below `SP`; the emptiness test comes before the capacity test. -/
theorem dupCopiesTheTopByte : Obligations.DupCopiesTheTopByte := by
  intro s
  refine ⟨fun hs hne hroom => ?_, fun hempty => ?_, fun hne hfull => ?_, decodeOperands_cons_opcode .dup⟩
  · exact ⟨_, exec_of_effect (i := .dup) ⟨_, stackDup_ok.mpr ⟨hne, hroom, rfl⟩, rfl⟩, rfl, fun k => read_write_at hs⟩
  · exact complete_of_first_error (stackDup_of_empty hempty)
  · exact complete_of_first_error (stackDup_of_full hne hfull)

/-- Settles O25: with two bytes on the stack the two written places are different. -/
theorem swapExchangesTheTopTwoBytes : Obligations.SwapExchangesTheTopTwoBytes := by
  intro s
  refine ⟨fun hs hsp => ?_, fun hsp => ?_, decodeOperands_cons_opcode .swap⟩
  · have hne : s.sp - 1 ≠ s.sp - 2 := by omega
    exact ⟨_, exec_of_effect (i := .swap) ⟨_, stackSwap_ok.mpr ⟨hsp, rfl⟩, rfl⟩, rfl,
      fun k => read_write_write hs hne⟩
  · exact complete_of_first_error (stackSwap_of_lt hsp)

/-- Settles O23: the pop moves the pointer only; the register index is checked before the stack. -/
theorem popMovesTheTopByte : Obligations.PopMovesTheTopByte := by
  intro s d
  refine ⟨fun i hi hne => ?_, fun i hi hempty => ?_, fun c hc => ?_, fun o rest => ?_⟩
  · rw [← zext64_eq]
    exact exec_of_effect (i := .pop d) ⟨i, _, _, hi, stackPop_ok.mpr ⟨hne, rfl, rfl⟩, rfl⟩
  · exact complete_of_later_error (c := ⟨.underflow, none, _⟩) hi (bind_eq_error.mpr (.inl (stackPop_of_empty hempty)))
  · exact complete_of_first_error hc
  · exact decodeOperands_cons_opcode .pop (o :: rest)

end Sys2Proof.Machine

namespace Sys2Proof.Machine

/-! The jumps (43_jump.md R220 to R222): where the shape shared by JZ and JNZ goes, and the test of `ACC` on numbers. -/

section Jumps

variable {s : State} {f : Slot} {op : Byte} {taken : Bool} {p : Nat}

/-- JZ's test, on the number in `ACC` (R221). -/
theorem accIsZero_iff : accIsZero s = true ↔ s.acc.toNat = 0 :=
  beq_iff_eq.trans BitVec.toNat_inj.symm

/-- JNZ's test is the negation of JZ's (R222). -/
theorem not_accIsZero_iff : (!accIsZero s) = true ↔ ¬ s.acc.toNat = 0 := by
  rw [Bool.not_eq_true', ← Bool.not_eq_true, accIsZero_iff]

/-- With the function index in the table, only `pc` changes: to the entry where the tested condition `q` holds, and
else past the instruction. -/
theorem conditionalJump_of_resolved {q : Prop} [Decidable q] (hq : taken = true ↔ q) (hp : funcPos s 1 f = .ok p) :
    conditionalJump op taken f s = .next { s with pc := if q then p else s.pc + 2 } := by
  refine complete_next.mpr (.inl (bind_eq_ok.mpr ⟨p, hp, ?_⟩))
  by_cases h : q
  · rw [if_pos (hq.mpr h), if_pos h]
    rfl
  · rw [if_neg (mt hq.mp h), if_neg h]
    rfl

end Jumps

/-- Settles O26: the one operand decides both the position and the fault. -/
theorem jmpGoesToTheResolvedPosition : Obligations.JmpGoesToTheResolvedPosition := by
  intro s t
  refine ⟨fun x hx => ?_, fun c hc => ?_, fun o rest => ?_⟩
  · exact exec_of_effect (i := .jmp t) ⟨x, hx, rfl⟩
  · exact complete_of_first_error hc
  · exact decodeOperands_cons_opcode .jmp (o :: rest)

/-- Settles O27: the index is resolved before `ACC` decides where the jump goes. -/
theorem conditionalJumpsTestAcc : Obligations.ConditionalJumpsTestAcc := by
  intro s f
  refine ⟨fun p hp => ⟨?_, ?_⟩, fun c hc => ⟨?_, ?_⟩, fun o rest => ⟨?_, ?_⟩⟩
  · exact conditionalJump_of_resolved accIsZero_iff hp
  · rw [← ite_not]
    exact conditionalJump_of_resolved not_accIsZero_iff hp
  · exact complete_of_first_error hc
  · exact complete_of_first_error hc
  · exact decodeOperands_cons_opcode .jz (o :: rest)
  · exact decodeOperands_cons_opcode .jnz (o :: rest)

end Sys2Proof.Machine

namespace Sys2Proof.Machine

/-! The heap and I/O transfers (44_heap_transfer.md R230 to R234): an instruction of two operands that faults at one of
them or after both, the values of STORE as one list, and the heap bytes after a run of writes. What ends well is in the
model's own laws. -/

section TwoOperands

variable {α β : Type} {s : State} {op : Byte} {c : FaultCause}
variable {p : Check α} {q : Check β} {f : α → β → Check State} {x : α} {y : β}

/-- The first of two operands that does not resolve decides the fault, whatever the instruction does with them. -/
theorem complete_of_operand_fault (h : p = .error c ∨ ∃ x, p = .ok x ∧ q = .error c) :
    complete op s (p >>= fun x => q >>= f x) = .next (faultedBy s op c) := by
  obtain hp | ⟨x, hp, hq⟩ := h
  · exact complete_of_first_error hp
  · exact complete_of_later_error hp (bind_eq_error.mpr (.inl hq))

/-- With both operands resolved, a fault of what follows is the instruction's. -/
theorem complete_of_error_after_operands (hp : p = .ok x) (hq : q = .ok y) (h : f x y = .error c) :
    complete op s (p >>= fun x => q >>= f x) = .next (faultedBy s op c) :=
  complete_of_later_error hp (bind_eq_error.mpr (.inr ⟨y, hq, h⟩))

end TwoOperands

section HeapTransfer

variable {s : State} {n : Nat}

/-- STORE's values resolve to one list when each of them resolves. -/
theorem typedMany_of_resolved {j : Nat} {data : List Operand} {v : Nat → Word}
    (h : ∀ i, i < n → typed s (j + i) data[i]? = .ok (v i)) :
    typedMany s j n data = .ok ((List.range n).map v) :=
  typedMany_ok.mpr ⟨by simp, fun i hi => ⟨v i, by simp [hi], h i hi⟩⟩

/-- A run of `n` writes, read at one address: the run's byte inside it, the old byte outside. -/
theorem read_writeBytes_of_bytes {m : Memory} (hm : m.wf) {bs : List Byte} {w : Nat → Byte} (hlen : bs.length = n)
    (hw : ∀ i, i < n → bs[i]? = some (w i)) (a b : Nat) :
    (m.writeBytes a bs).read b = if a ≤ b ∧ b < a + n then w (b - a) else m.read b := by
  rw [Memory.read_writeBytes hm]
  by_cases hlo : a ≤ b
  · by_cases hhi : b < a + n
    · have hin : bs[b - a]? = some (w (b - a)) := hw _ (by omega)
      simp [hlo, hhi, hin]
    · have hpast : bs[b - a]? = none := List.getElem?_eq_none (by omega)
      simp [hlo, hhi, hpast]
  · simp [hlo]

theorem outAppend_of_full {cap : Nat} {bytes : List Byte} (hcap : s.config.outCap = some cap)
    (h : cap < s.outq.length + bytes.length) :
    outAppend s bytes = .error ⟨.outputFull, none, some (wordOfNat bytes.length)⟩ := by
  rw [outAppend, hcap]
  exact if_pos h

theorem inTake_of_short (h : s.inq.length < n) : inTake s n = .error ⟨.inputExhausted, none, some (wordOfNat n)⟩ :=
  if_pos h

end HeapTransfer

/-- Settles O28: the operands are resolved before the address is tested against `HEAP_SIZE`. -/
theorem loadReadsOneHeapByte : Obligations.LoadReadsOneHeapByte := by
  intro s d a
  refine ⟨fun i x hi hx hin => ?_, fun i x hi hx hout => ?_, fun c hc => ?_, fun o q rest => ?_⟩
  · rw [← zext64_eq]
    exact exec_of_effect (i := .load d a) ⟨i, x, _, hi, hx, memRead_ok.mpr ⟨hin, rfl⟩, rfl⟩
  · exact complete_of_error_after_operands (c := ⟨.readOutOfRange, none, some x⟩) hi hx
      (bind_eq_error.mpr (.inl (memRead_of_le hout)))
  · exact complete_of_operand_fault hc
  · exact decodeOperands_cons_opcode .load (o :: q :: rest)

/-- Settles O29: the run of writes is as long as the list of the values' low bytes. -/
theorem storeWritesExactlyItsBytes : Obligations.StoreWritesExactlyItsBytes := by
  intro s a n data x k v hwf hx hk hv hlive
  refine ⟨_, exec_of_effect (i := .store a n data)
    ⟨x, k, _, hx, hk, typedMany_of_resolved hv, checkLiveBytes_ok.mpr hlive, rfl⟩, ?_, fun b => ?_⟩
  · rw [Nat.add_assoc]
    rfl
  · refine read_writeBytes_of_bytes (w := fun i => BitVec.ofNat 8 (v i).toNat) hwf ?_ (fun i hi => ?_) x.toNat b
    · simp
    · simp [hi, lowByte_eq_ofNat]

/-- Settles O30: the values are resolved in order, before the first address is tested. -/
theorem storeFaultsInOrder : Obligations.StoreFaultsInOrder := by
  intro s a n data
  refine ⟨fun c hc => ?_, fun x k c i hx hk hi hbefore herr => ?_, fun x k i hx hk hval hi hbefore hdead => ?_,
    fun o q rest => ?_⟩
  · exact complete_of_operand_fault hc
  · exact complete_of_error_after_operands hx hk (bind_eq_error.mpr (.inl (typedMany_error hi hbefore herr)))
  · choose! v hv using hval
    have hlive := checkLiveBytes_error.mpr ⟨i, hi, hbefore, hdead, rfl⟩
    exact complete_of_error_after_operands (c := ⟨.writeOutsideExtent, none, _⟩) hx hk
      (bind_eq_error.mpr (.inr ⟨_, typedMany_of_resolved hv, bind_eq_error.mpr (.inl hlive)⟩))
  · exact decodeOperands_cons_opcode .store (o :: q :: rest)

/-- Settles O31: the bytes are read before the queue's capacity is tested. -/
theorem writeAppendsHeapBytesToOut : Obligations.WriteAppendsHeapBytesToOut := by
  intro s a n
  refine ⟨fun x k hx hk hin hroom => ?_, fun x k hx hk hne hout => ?_, fun x k cap hx hk hin hcap hfull => ?_,
    fun c hc => ?_, fun o q rest => ?_⟩
  · rw [← Memory.readBytes_eq]
    rw [← Memory.length_readBytes s.heap x.toNat k.toNat] at hroom
    exact exec_of_effect (i := .write a n)
      ⟨x, k, _, _, hx, hk, memReadBytes_ok.mpr ⟨hin, rfl⟩, outAppend_ok.mpr ⟨hroom, rfl⟩, rfl⟩
  · have hread := memReadBytes_error.mpr ⟨hne, hout, rfl⟩
    exact complete_of_error_after_operands (c := ⟨.readOutOfRange, none, _⟩) hx hk
      (bind_eq_error.mpr (.inl hread))
  · have hlen := Memory.length_readBytes s.heap x.toNat k.toNat
    rw [← hlen] at hfull
    have happend := outAppend_of_full hcap hfull
    rw [hlen, wordOfNat_toNat] at happend
    exact complete_of_error_after_operands (c := ⟨.outputFull, none, some k⟩) hx hk
      (bind_eq_error.mpr (.inr ⟨_, memReadBytes_ok.mpr ⟨hin, rfl⟩, bind_eq_error.mpr (.inl happend)⟩))
  · exact complete_of_operand_fault hc
  · exact decodeOperands_cons_opcode .write (o :: q :: rest)

/-- Settles O32: the addresses are tested before the queue is. -/
theorem readMovesInputBytesToTheHeap : Obligations.ReadMovesInputBytesToTheHeap := by
  intro s a n
  refine ⟨fun x k hwf hx hk hlive henough => ?_, fun x k i hx hk hi hbefore hdead => ?_,
    fun x k hx hk hlive hshort => ?_, fun c hc => ?_, fun o q rest => ?_⟩
  · refine ⟨_, exec_of_effect (i := .read a n)
      ⟨x, k, _, _, hx, hk, checkLiveBytes_ok.mpr hlive, inTake_ok.mpr ⟨henough, rfl, rfl⟩, rfl⟩, rfl, fun b => ?_⟩
    refine read_writeBytes_of_bytes (w := fun i => s.inq.getD i 0) hwf ?_ (fun i hi => ?_) x.toNat b
    · simp [henough]
    · have hlt : i < s.inq.length := by omega
      simp [hi, hlt]
  · have haddr := checkLiveBytes_error.mpr ⟨i, hi, hbefore, hdead, rfl⟩
    exact complete_of_error_after_operands (c := ⟨.writeOutsideExtent, none, _⟩) hx hk
      (bind_eq_error.mpr (.inl haddr))
  · have htake := inTake_of_short hshort
    rw [wordOfNat_toNat] at htake
    exact complete_of_error_after_operands (c := ⟨.inputExhausted, none, some k⟩) hx hk
      (bind_eq_error.mpr (.inr ⟨(), checkLiveBytes_ok.mpr hlive, bind_eq_error.mpr (.inl htake)⟩))
  · exact complete_of_operand_fault hc
  · exact decodeOperands_cons_opcode .read (o :: q :: rest)

/-- Settles O33: FLUSH has no operand and no check. -/
theorem flushHandsOverTheWholeOut : Obligations.FlushHandsOverTheWholeOut :=
  fun _ rest => ⟨decodeOperands_cons_opcode .flush rest, exec_of_effect (i := .flush) rfl⟩

end Sys2Proof.Machine

namespace Sys2Proof.Machine

/-! MOV, INC, DEC and the allocation instructions (45_move_alloc.md R250 to R255): the two forms of INC and DEC, the fault
of each check of the allocator, and the extents and bytes after a resize and a move. -/

section Bump

variable {w : Nat} {s : State} {op : Byte} {onReg : Word → Word} {onByte g : Byte → Byte}
variable {o : Operand} {p v x : Word} {c : FaultCause}

theorem exec_inc (slot : Slot) : exec (.inc slot) s = bump 0x1B (fun v => v + 1) (fun b => b + 1) slot s := rfl

theorem exec_dec (slot : Slot) : exec (.dec slot) s = bump 0x1C (fun v => v - 1) (fun b => b - 1) slot s := rfl

theorem add_one_eq_ofNat (b : BitVec w) : b + 1 = BitVec.ofNat w (b.toNat + 1) := by
  rw [BitVec.ofNat_add, BitVec.ofNat_toNat, BitVec.setWidth_eq]
  rfl

theorem sub_one_eq_ofInt (b : BitVec w) : b - 1 = BitVec.ofInt w (b.toNat - 1) := by
  rw [Int.sub_eq_add_neg, BitVec.ofInt_add, BitVec.ofInt_neg, BitVec.ofInt_natCast, BitVec.ofNat_toNat,
    BitVec.setWidth_eq, BitVec.sub_eq_add_neg]
  rfl

/-- The register form writes one register and nothing else (30_encoding.md R123). -/
theorem bump_register {i : Fin 60} (hp : p.toNat = i.val) (hv : onReg (s.regs.get i) = v) :
    bump op onReg onByte (some ⟨.reg, p⟩) s = .next { s with regs := s.regs.set i v, pc := s.pc + 2 } := by
  subst hv
  exact bump_next.mpr (.inl ⟨_, rfl, .inl ⟨rfl, i, registerIndex_ok.mpr hp, rfl⟩⟩)

theorem bump_register_of_le (h : 60 ≤ p.toNat) :
    bump op onReg onByte (some ⟨.reg, p⟩) s =
      .next (faultedState s .operandFault .badRegister (some (s.pc + 1)) (some op) (some p)) :=
  bump_next.mpr (.inr ⟨_, .inr ⟨_, rfl, .inl ⟨rfl, registerIndex_of_le h⟩⟩, rfl⟩)

/-- The heap form changes the one byte at the resolved address. -/
theorem bump_byte (hwf : s.heap.wf) (ht : o.tag ≠ .reg) (hx : typed s 1 (some o) = .ok x)
    (hl : live s.ext x.toNat = true) (hg : ∀ b, onByte b = g b) :
    ∃ t, bump op onReg onByte (some o) s = .next t ∧ t = { s with heap := t.heap, pc := s.pc + 2 } ∧
      ∀ b, t.heap.read b = if b = x.toNat then g (s.heap.read b) else s.heap.read b := by
  refine ⟨_, bump_next.mpr (.inl ⟨o, rfl, .inr ⟨ht, x, hx, hl, rfl⟩⟩), rfl, fun b => ?_⟩
  refine (read_write_at hwf).trans (ite_congr rfl (fun hb => ?_) fun _ => rfl)
  rw [hg, hb]

/-- The address of the fault is the operand's own word (20_memory.md R63). -/
theorem checkLive_of_dead (h : live s.ext x.toNat = false) :
    checkLive s x.toNat = .error ⟨.writeOutsideExtent, none, some x⟩ := by
  rw [checkLive, if_neg (Bool.eq_false_iff.mp h), wordOfNat_toNat]

theorem bump_byte_of_dead (ht : o.tag ≠ .reg) (hx : typed s 1 (some o) = .ok x) (hl : live s.ext x.toNat = false) :
    bump op onReg onByte (some o) s =
      .next (faultedState s .memoryFault .writeOutsideExtent none (some op) (some x)) :=
  bump_next.mpr (.inr ⟨_, .inr ⟨o, rfl, .inr ⟨ht, .inr ⟨x, hx, checkLive_of_dead hl⟩⟩⟩, rfl⟩)

theorem bump_byte_of_operand_fault (ht : o.tag ≠ .reg) (hc : typed s 1 (some o) = .error c) :
    bump op onReg onByte (some o) s = .next (faultedBy s op c) :=
  bump_next.mpr (.inr ⟨c, .inr ⟨o, rfl, .inr ⟨ht, .inl hc⟩⟩, rfl⟩)

end Bump

section AllocatorAnswers

variable {s : State} {k x : Word} {e : Extent} {a n : Nat}

theorem one_le_toNat (hk : k ≠ 0) : 1 ≤ k.toNat :=
  Nat.one_le_iff_ne_zero.mpr fun h0 => hk (BitVec.eq_of_toNat_eq h0)

theorem heapAlloc_of_no_fit (h : Inv s) (hk : k ≠ 0) (hno : ∀ a, ¬ Fits s k.toNat a) :
    heapAlloc s k.toNat = .error ⟨.noFit, none, some k⟩ := by
  have hpos := one_le_toNat hk
  rw [heapAlloc, if_neg (Nat.one_le_iff_ne_zero.mp hpos), (firstFit_eq_none_iff h hpos).mpr hno]
  simp only [wordOfNat_toNat]

theorem heapFree_of_dead (hc : containing s.ext x.toNat = none) :
    heapFree s x.toNat = .error ⟨.freeOutsideExtent, none, some x⟩ := by
  rw [heapFree, hc]
  simp only [wordOfNat_toNat]

theorem heapRealloc_of_dead (hc : containing s.ext x.toNat = none) :
    heapRealloc s x.toNat n = .error ⟨.sizeQueryOutsideExtent, none, some x⟩ := by
  rw [heapRealloc, hc]
  simp only [wordOfNat_toNat]

theorem heapRealloc_of_zero (hc : containing s.ext x.toNat = some e) :
    heapRealloc s x.toNat 0 = .error ⟨.zeroSize, none, some x⟩ := by
  rw [heapRealloc, hc]
  simp only [if_true, wordOfNat_toNat]

/-- No room in place and none elsewhere: the address of the fault is the size (R69). -/
theorem heapRealloc_of_no_fit (h : Inv s) (hc : containing s.ext a = some e) (hlt : e.stop - e.start < k.toNat)
    (hgrow : ¬ (e.start + k.toNat ≤ s.config.heapSize ∧
      ∀ b, e.stop ≤ b → b < e.start + k.toNat → live s.ext b = false))
    (hno : ∀ b, ¬ Fits s k.toNat b) : heapRealloc s a k.toNat = .error ⟨.noFit, none, some k⟩ := by
  have h0 : k.toNat ≠ 0 := by omega
  rw [← rangeFree_iff, ← decide_eq_true_iff (p := _ ≤ _), ← Bool.and_eq_true] at hgrow
  have hfit := (firstFit_eq_none_iff h (Nat.one_le_iff_ne_zero.mpr h0)).mpr hno
  rw [heapRealloc, hc]
  simp only [if_neg h0, if_neg hlt.not_ge, if_neg hgrow, hfit, wordOfNat_toNat]

/-- A resize in place has one answer whether the extent shrinks or grows: a growth zeroes an empty range (R69). -/
theorem heapRealloc_in_place (hc : containing s.ext a = some e) (hn : n ≠ 0)
    (hfit : n ≤ e.stop - e.start ∨
      (e.start + n ≤ s.config.heapSize ∧ ∀ b, e.stop ≤ b → b < e.start + n → live s.ext b = false)) :
    heapRealloc s a n = .ok ((s.setHeap (s.heap.zero (e.start + n) e.stop)).setExt
      (insertExtent ⟨e.start, e.start + n⟩ (removeExtent e s.ext)), e.start) := by
  refine heapRealloc_ok.mpr ⟨e, hc, hn, ?_⟩
  by_cases hle : n ≤ e.stop - e.start
  · exact .inl ⟨hle, rfl, rfl⟩
  · obtain ⟨hin, hfree⟩ := hfit.resolve_left hle
    rw [Memory.zero_of_le s.heap (by omega)]
    exact .inr (.inl ⟨by omega, hin, rangeFree_iff.mpr hfree, rfl, rfl⟩)

/-- An extent that cannot grow in place moves to the lowest fit (R69). -/
theorem heapRealloc_moved (h : Inv s) (hc : containing s.ext a = some e) (hlt : e.stop - e.start < n)
    (hgrow : ¬ (e.start + n ≤ s.config.heapSize ∧ ∀ b, e.stop ≤ b → b < e.start + n → live s.ext b = false))
    {b : Nat} (hlow : LowestFit s n b) :
    heapRealloc s a n = .ok
      ((s.setHeap ((s.heap.writeBytes b (s.heap.readBytes e.start (e.stop - e.start))).zero e.start e.stop)).setExt
        (insertExtent ⟨b, b + n⟩ (removeExtent e s.ext)), b) := by
  have hn : 1 ≤ n := by omega
  rw [← rangeFree_iff] at hgrow
  exact heapRealloc_ok.mpr ⟨e, hc, Nat.one_le_iff_ne_zero.mp hn,
    .inr (.inr ⟨hlt, hgrow, (firstFit_eq_some_iff h hn).mpr hlow, rfl⟩)⟩

/-- One extent put in another's place: the new one holds its range, and what is left of the old range is not live. -/
theorem containing_replaceExtent {size : Nat} {ext : List Extent} {f : Extent} (h : ExtentsOk size ext) (he : e ∈ ext)
    (h' : ExtentsOk size (insertExtent f (removeExtent e ext))) (b : Nat) :
    containing (insertExtent f (removeExtent e ext)) b =
      if f.start ≤ b ∧ b < f.stop then some f
      else if e.start ≤ b ∧ b < e.stop then none else containing ext b := by
  rw [containing_insertExtent h' (extentsOk_removeExtent h e), containing_removeExtent h he]

/-- The bytes after a move: the old place reads 0, the copy stands at the new one. -/
theorem read_moved {m : Memory} (hm : m.wf) (b : Nat) :
    ((m.writeBytes a (m.readBytes e.start (e.stop - e.start))).zero e.start e.stop).read b =
      if e.start ≤ b ∧ b < e.stop then 0
      else if a ≤ b ∧ b < a + (e.stop - e.start) then m.read (e.start + (b - a)) else m.read b := by
  rw [Memory.read_zero, read_writeBytes_of_bytes (w := fun i => m.read (e.start + i)) hm
    (Memory.length_readBytes ..) fun i hi => by rw [Memory.getElem?_readBytes, if_pos hi]]

end AllocatorAnswers

/-- Settles O36: the operand's tag selects the heap form, and the byte's arithmetic is that of numbers modulo 256. -/
theorem incDecHeapFormWrapsOneByte : Obligations.IncDecHeapFormWrapsOneByte := by
  intro s o ht
  simp only [exec_inc, exec_dec]
  refine ⟨fun x hwf hx hl => ⟨?_, ?_⟩, fun x hx hl => ⟨?_, ?_⟩, fun c hc => ⟨?_, ?_⟩⟩
  · exact bump_byte (g := fun b => BitVec.ofNat 8 (b.toNat + 1)) hwf ht hx hl add_one_eq_ofNat
  · exact bump_byte (g := fun b => BitVec.ofInt 8 (b.toNat - 1)) hwf ht hx hl sub_one_eq_ofInt
  · exact bump_byte_of_dead ht hx hl
  · exact bump_byte_of_dead ht hx hl
  · exact bump_byte_of_operand_fault ht hc
  · exact bump_byte_of_operand_fault ht hc

/-- Settles O37: first-fit finds the lowest fit, and the new extent meets no other. -/
theorem allocTakesTheLowestFit : Obligations.AllocTakesTheLowestFit := by
  intro s d n h
  refine ⟨fun i k a hi hk hk0 hlow => ?_, fun i hi hk => ?_, fun i k hi hk hk0 hno => ?_, fun c hc => ?_,
    fun o q rest => ?_⟩
  · have hpos := one_le_toNat hk0
    have halloc := heapAlloc_ok.mpr ⟨Nat.one_le_iff_ne_zero.mp hpos, (firstFit_eq_some_iff h hpos).mpr hlow, rfl⟩
    exact ⟨_, exec_of_effect (i := .alloc d n) ⟨i, k, _, a, hi, hk, halloc, rfl⟩, rfl,
      containing_insertExtent (heapOk_of_heapAlloc h halloc).extents h.extents⟩
  · exact complete_of_error_after_operands (c := ⟨.zeroSize, none, some 0⟩) hi hk (bind_eq_error.mpr (.inl rfl))
  · exact complete_of_error_after_operands (c := ⟨.noFit, none, some k⟩) hi hk
      (bind_eq_error.mpr (.inl (heapAlloc_of_no_fit h hk0 hno)))
  · exact complete_of_operand_fault hc
  · exact decodeOperands_cons_opcode .alloc (o :: q :: rest)

/-- Settles O38: the extent found is a member of the set, and no other member meets it. -/
theorem freeReleasesTheContainingExtent : Obligations.FreeReleasesTheContainingExtent := by
  intro s a h
  refine ⟨fun x e hx he => ?_, fun x hx hnone => ?_, fun c hc => ?_, fun o rest => ?_⟩
  · obtain ⟨hmem, -⟩ := containing_some he
    exact ⟨_, exec_of_effect (i := .free a) ⟨x, _, hx, heapFree_ok.mpr ⟨e, he, rfl⟩, rfl⟩, rfl,
      fun b => ⟨Memory.read_zero .., containing_removeExtent h.extents hmem b⟩⟩
  · exact complete_of_later_error (c := ⟨.freeOutsideExtent, none, some x⟩) hx
      (bind_eq_error.mpr (.inl (heapFree_of_dead hnone)))
  · exact complete_of_first_error hc
  · exact decodeOperands_cons_opcode .free (o :: rest)

/-- Settles O39: the shrink and the growth are one resize. -/
theorem reallocResizesInPlace : Obligations.ReallocResizesInPlace := by
  intro s d n i k e h hi hk hk0 he hfit
  have hresize := heapRealloc_in_place he (Nat.one_le_iff_ne_zero.mp (one_le_toNat hk0)) hfit
  obtain ⟨hmem, -⟩ := containing_some he
  exact ⟨_, exec_of_effect (i := .realloc d n) ⟨i, k, _, _, hi, hk, hresize, rfl⟩, rfl,
    fun b => ⟨Memory.read_zero ..,
      containing_replaceExtent h.extents hmem (heapOk_of_heapRealloc h hresize).extents b⟩⟩

/-- Settles O40: the copy is read before the old place is zeroed, and the new extent meets none of those kept. -/
theorem reallocMovesToTheLowestFit : Obligations.ReallocMovesToTheLowestFit := by
  intro s d n i k e a h hi hk he hlt hgrow hlow
  have hmove := heapRealloc_moved h he hlt hgrow hlow
  obtain ⟨hmem, -⟩ := containing_some he
  exact ⟨_, exec_of_effect (i := .realloc d n) ⟨i, k, _, _, hi, hk, hmove, rfl⟩, rfl,
    fun b => ⟨read_moved h.heapWf b,
      containing_replaceExtent h.extents hmem (heapOk_of_heapRealloc h hmove).extents b⟩⟩

/-- Settles O41: both operands are resolved before the size query, the zero test and the search for a fit. -/
theorem reallocFaultsInOrder : Obligations.ReallocFaultsInOrder := by
  intro s d n h
  refine ⟨fun c hc => ?_, fun i k hi hk hnone => ?_, fun i e hi hk he => ?_,
    fun i k e hi hk he hlt hgrow hno => ?_, fun o q rest => ?_⟩
  · exact complete_of_operand_fault hc
  · exact complete_of_error_after_operands (c := ⟨.sizeQueryOutsideExtent, none, some (s.reg i)⟩) hi hk
      (bind_eq_error.mpr (.inl (heapRealloc_of_dead hnone)))
  · exact complete_of_error_after_operands (c := ⟨.zeroSize, none, some (s.reg i)⟩) hi hk
      (bind_eq_error.mpr (.inl (heapRealloc_of_zero he)))
  · exact complete_of_error_after_operands (c := ⟨.noFit, none, some k⟩) hi hk
      (bind_eq_error.mpr (.inl (heapRealloc_of_no_fit h he hlt hgrow hno)))
  · exact decodeOperands_cons_opcode .realloc (o :: q :: rest)

/-- Settles O34: MOV has no check after its operands. -/
theorem movWritesOneRegister : Obligations.MovWritesOneRegister := by
  intro s d v
  refine ⟨fun i x hi hx => ?_, fun c hc => ?_, fun o q rest => ?_⟩
  · exact exec_of_effect (i := .mov d v) ⟨i, x, hi, hx, rfl⟩
  · exact complete_of_operand_fault hc
  · exact decodeOperands_cons_opcode .mov (o :: q :: rest)

/-- Settles O35: the tag `Reg` selects the register form, and the word's arithmetic is that of numbers modulo `2^64`. -/
theorem incDecRegisterFormWraps : Obligations.IncDecRegisterFormWraps := by
  intro s p
  simp only [exec_inc, exec_dec]
  refine ⟨fun i hp => ⟨?_, ?_⟩, fun hp => ⟨?_, ?_⟩, fun o rest => ⟨?_, ?_⟩⟩
  · exact bump_register hp (add_one_eq_ofNat _)
  · exact bump_register hp (sub_one_eq_ofInt _)
  · exact bump_register_of_le hp
  · exact bump_register_of_le hp
  · exact decodeOperands_cons_opcode .inc (o :: rest)
  · exact decodeOperands_cons_opcode .dec (o :: rest)

end Sys2Proof.Machine

namespace Sys2Proof.Machine

/-! FUNC, CALL and RET (46_function_call.md R270 to R272): the fault of each check of the jump table and the call stack,
what RET does with the newest record, and what a CALL that completed left. -/

section Functions

variable {s t : State} {p : Nat}

theorem jtAppend_of_full (h : s.config.jtCap = some s.jt.length) :
    jtAppend s p = .error ⟨.jumpTableFull, some (s.pc + 1), none⟩ :=
  if_pos (beq_iff_eq.mpr h)

theorem csPush_of_full (h : s.config.csCap = some s.cs.length) :
    csPush s p = .error ⟨.callOverflow, none, some (wordOfNat s.cs.length)⟩ :=
  if_pos (beq_iff_eq.mpr h)

theorem csPop_of_empty (h : s.cs = []) : csPop s = .error ⟨.returnEmpty, none, none⟩ := by
  rw [csPop, h]
  rfl

/-- The newest record stands at the end of `CS`. -/
theorem csPop_of_append {older : List Nat} (h : s.cs = older ++ [p]) : csPop s = .ok (s.setCs older, p) := by
  rw [csPop_ok, h, List.getLast?_concat, List.dropLast_concat]
  exact ⟨rfl, rfl⟩

/-- RET removes the newest record and goes to it (R272). -/
theorem exec_ret_of_append {older : List Nat} (h : s.cs = older ++ [p]) :
    exec .ret s = .next { s with cs := older, pc := p } :=
  exec_of_effect (i := .ret) ⟨_, p, csPop_of_append h, rfl⟩

/-- An instruction that left the engine not `Faulted` had its effect. -/
theorem effect_of_not_faulted {i : Instr} (h : exec i s = .next t) (ht : t.engState ≠ .faulted) : Effect i s t := by
  rcases exec_cases h with he | ⟨c, rfl⟩
  · exact he
  · exact absurd (takeFault_engState ..) ht

/-- CALL without a fault leaves the position after it the newest record (R271). -/
theorem effect_call_cs {f : Slot} (h : Effect (.call f) s t) : t.cs = s.cs ++ [s.pc + 2] := by
  obtain ⟨p, u, -, hu, rfl⟩ := h
  obtain ⟨-, rfl⟩ := csPush_ok.mp hu
  rfl

end Functions

/-- Settles O42: only the label's presence is checked, before the table's capacity. -/
theorem funcAppendsThePositionAfterItsLabel : Obligations.FuncAppendsThePositionAfterItsLabel := by
  intro s label
  refine ⟨fun v hv hroom => ?_, fun v hv hfull => ?_, fun c hc => ?_, fun o rest => ?_⟩
  · exact exec_of_effect (i := .func label) ⟨v, _, hv, jtAppend_ok.mpr ⟨hroom, rfl⟩, rfl⟩
  · exact complete_of_later_error (c := ⟨.jumpTableFull, some (s.pc + 1), none⟩) hv
      (bind_eq_error.mpr (.inl (jtAppend_of_full hfull)))
  · exact complete_of_first_error hc
  · exact decodeOperands_cons_opcode .func (o :: rest)

/-- Settles O43: the index is resolved before the call stack's capacity is tested. -/
theorem callPushesTheReturnPosition : Obligations.CallPushesTheReturnPosition := by
  intro s f
  refine ⟨fun p hp hroom => ?_, fun p hp hfull => ?_, fun c hc => ?_, fun o rest => ?_⟩
  · exact exec_of_effect (i := .call f) ⟨p, _, hp, csPush_ok.mpr ⟨hroom, rfl⟩, rfl⟩
  · exact complete_of_later_error (c := ⟨.callOverflow, none, some (wordOfNat s.cs.length)⟩) hp
      (bind_eq_error.mpr (.inl (csPush_of_full hfull)))
  · exact complete_of_first_error hc
  · exact decodeOperands_cons_opcode .call (o :: rest)

/-- Settles O44: a CALL that did not fault left its return position the newest record, which RET then finds. -/
theorem retPopsTheNewestRecord : Obligations.RetPopsTheNewestRecord := by
  refine ⟨fun s => ⟨fun older r hcs => ?_, fun hempty => ?_, fun rest => ?_⟩, fun s t u f hcall heng hs hu => ?_⟩
  · exact exec_ret_of_append hcs
  · exact complete_of_first_error (csPop_of_empty hempty)
  · exact decodeOperands_cons_opcode .ret rest
  · have hcs : t.cs = s.cs ++ [s.pc + 2] := effect_call_cs (effect_of_not_faulted hcall (heng.trans_ne hs))
    exact exec_ret_of_append (hu.trans hcs)

end Sys2Proof.Machine

namespace Sys2Proof.Machine

/-! The accumulator transfers (47_accumulator.md R280, R281). Each has one operand and no check after it, so the operand
alone decides between the effect and the fault. -/

/-- Settles O45: neither transfer has a check after its operand. -/
theorem accumulatorTransfersCopyWholeWords : Obligations.AccumulatorTransfersCopyWholeWords := by
  intro s v d
  refine ⟨fun x hx => ?_, fun c hc => ?_, fun i hi => ?_, fun c hc => ?_, fun o rest => ⟨?_, ?_⟩⟩
  · exact exec_of_effect (i := .wracc v) ⟨x, hx, rfl⟩
  · exact complete_of_first_error hc
  · exact exec_of_effect (i := .reacc d) ⟨i, hi, rfl⟩
  · exact complete_of_first_error hc
  · exact decodeOperands_cons_opcode .wracc (o :: rest)
  · exact decodeOperands_cons_opcode .reacc (o :: rest)

end Sys2Proof.Machine

namespace Sys2Proof

/-! The written-out images (30_encoding.md R120 to R122). -/

/-- Settles O1: the images are closed byte lists, and the decoder evaluates each to its instruction. -/
theorem writtenOutWordsDecode : Obligations.WrittenOutWordsDecode :=
  ⟨rfl, rfl, rfl, rfl, rfl, rfl, rfl, rfl⟩

end Sys2Proof

namespace Sys2Proof.Machine

/-! Faults and the ends of a run (60_exceptions.md R310 to R314): a step writes `FAULT` exactly where it ends in `Faulted`,
and a running engine always steps. -/

section Faults

variable {s t : State}

theorem exec_engState {i : Instr} (h : exec i s = .next t) : t.engState = s.engState ∨ t.engState = .faulted := by
  rcases exec_cases h with he | ⟨c, rfl⟩
  · exact .inl (effect_keeps (p := .engState) he List.not_mem_nil)
  · exact .inr rfl

/-- The end-of-stream test reaches no fault: it halts the engine or leaves `ENG_STATE`. -/
theorem endOfStream_ne_faulted (h : s.engState ≠ .faulted) : (endOfStream s).engState ≠ .faulted := by
  rw [endOfStream_engState]
  split
  · exact nofun
  · exact h

/-- A step takes a fault on the state it began in, or it ends outside `Faulted` with `FAULT` as it was. -/
theorem step_faults_or_keeps_fault (h : step s = .next t) :
    (∃ opcode c, t = takeFault s.pc opcode c s) ∨ (t.engState ≠ .faulted ∧ t.fault = s.fault) := by
  obtain ⟨hr, ⟨i, u, -, hu, rfl⟩ | ⟨-, rfl⟩ | ⟨c, rfl⟩⟩ := step_cases h
  · rcases exec_cases hu with he | ⟨c, rfl⟩
    · have heng : u.engState = s.engState := effect_keeps (p := .engState) he List.not_mem_nil
      have hfault : u.fault = s.fault := effect_keeps (p := .fault) he List.not_mem_nil
      exact .inr ⟨endOfStream_ne_faulted (by simp [heng, hr]), (endOfStream_fault u).trans hfault⟩
    · exact .inl ⟨_, c, endOfStream_faulted rfl⟩
  · exact .inr ⟨endOfStream_ne_faulted (by simp [hr]), endOfStream_fault s⟩
  · exact .inl ⟨none, c, rfl⟩

theorem step_isNext (hr : s.engState = .running) : ∃ t, step s = .next t := by
  rcases fetch_cases s with ⟨i, -, hf⟩ | ⟨-, hf⟩ | ⟨c, hf⟩
  · obtain ⟨u, hu⟩ := exec_isNext i s
    exact ⟨_, step_of_fetch_ok hr hf hu⟩
  · exact ⟨_, step_of_fetch_error hr hf⟩
  · exact ⟨_, step_of_fetch_error hr hf⟩

end Faults

/-- Settles O14: where the step ended in `Faulted` it took a fault on the old state, and nowhere else did it write
`FAULT`. -/
theorem faultsChangeNothingElse : Obligations.FaultsChangeNothingElse := by
  intro s t h
  rcases step_faults_or_keeps_fault h with ⟨opcode, c, rfl⟩ | ⟨hne, hfault⟩
  · exact ⟨fun _ => ⟨rfl, rfl, c.reason, rfl, rfl⟩, fun hne => absurd rfl hne⟩
  · exact ⟨fun hf => absurd hf hne, fun _ => hfault⟩

/-- Settles O15: `exec` has an answer everywhere, and so has the fetch before it. -/
theorem everyInstructionRunsEverywhere : Obligations.EveryInstructionRunsEverywhere := by
  refine ⟨fun i s => ?_, fun s hr => step_isNext hr⟩
  obtain ⟨t, ht⟩ := exec_isNext i s
  exact ⟨t, ht, exec_engState ht⟩

end Sys2Proof.Machine

namespace Sys2Proof.Machine

/-! The host's transactions (60_exceptions.md R330 to R332, 70_reset_and_hazards.md R340, R341): in which engine states each
is open, and what it answers there. -/

section Transactions

variable {s t : State}

theorem terminal_eq_false_iff {st : EngState} : st.terminal = false ↔ st = .ready ∨ st = .running := by
  cases st <;> decide

theorem terminal_eq_true_iff {st : EngState} : st.terminal = true ↔ st = .halted ∨ st = .faulted ∨ st = .aborted := by
  cases st <;> decide

theorem step_of_terminal (h : s.engState.terminal = true) : step s = .fault (.runEnded s.engState) := by
  rcases terminal_eq_true_iff.mp h with he | he | he <;> rw [step, he]

theorem inAppend_of_open (bytes : List Byte) (h : s.engState.terminal = false) :
    inAppend bytes s = .next (s.setIn (s.inq ++ bytes)) := by
  rcases terminal_eq_false_iff.mp h with he | he <;> rw [inAppend, he]

theorem inAppend_of_terminal (bytes : List Byte) (h : s.engState.terminal = true) :
    inAppend bytes s = .fault (.portClosed s.engState) := by
  rcases terminal_eq_true_iff.mp h with he | he | he <;> rw [inAppend, he]

theorem hostAbort_of_open (h : s.engState.terminal = false) : hostAbort s = .next (s.setEng .aborted) := by
  rcases terminal_eq_false_iff.mp h with he | he <;> rw [hostAbort, he]

theorem hostAbort_of_terminal (h : s.engState.terminal = true) : hostAbort s = .fault (.portClosed s.engState) := by
  rcases terminal_eq_true_iff.mp h with he | he | he <;> rw [hostAbort, he]

theorem start_of_ready (img in0 : List Byte) (h : s.engState = .ready) :
    start img in0 s = .next (enterRun { s with inq := in0, stream := decodeImage s.config.wireForm img }) := by
  rw [start, h]

theorem start_of_not_ready (img in0 : List Byte) (h : s.engState ≠ .ready) :
    start img in0 s = .fault (.portClosed s.engState) := by
  unfold start
  split
  · exact absurd ‹_› h
  · rfl

theorem enterRun_of_table {jt : List Nat} (h : preScan s.config.jtCap 0 s.stream [] = .ok jt) :
    enterRun s = (s.setJt jt).setEng (if s.len = 0 then .halted else .running) := by
  rw [enterRun, h]

/-- The only fault of the pre-scan is `JumpTableFull`, at the marker that did not fit (40_pipeline.md R170, R173). -/
theorem enterRun_of_full {q : Nat} {c : FaultCause} (h : preScan s.config.jtCap 0 s.stream [] = .error (q, c)) :
    enterRun s = takeFault q (some 0x20) ⟨.jumpTableFull, some (q + 1), none⟩ s := by
  rw [enterRun, h, preScan_error h]

/-- A transaction that answers a next state from a terminal state is a reset (R311, R340). -/
theorem eq_reset_of_terminal {e : HostEvent} (h : s.engState.terminal = true) (ht : transact e s = .next t) :
    e = .reset := by
  cases e with
  | reset => rfl
  | start img in0 =>
    obtain ⟨hready, -⟩ := start_next ht
    exact absurd h (by simp [hready, EngState.terminal])
  | step => exact absurd ((step_of_terminal h).symm.trans ht) nofun
  | inAppend bytes => exact absurd ((inAppend_of_terminal bytes h).symm.trans ht) nofun
  | abort => exact absurd ((hostAbort_of_terminal h).symm.trans ht) nofun

end Transactions

/-- Settles O10: every other transaction is closed in a terminal state. -/
theorem terminalStatesAreLeftOnlyByReset : Obligations.TerminalStatesAreLeftOnlyByReset := by
  refine ⟨fun s hready => by rw [step, hready], fun s h => step_of_terminal h, fun e s t h ht => ?_⟩
  obtain rfl := eq_reset_of_terminal h ht
  exact ⟨rfl, (Host.Outcome.next.inj ht).symm⟩

/-- Settles O60: each of the two is one update of the state where it is open. -/
theorem appendAndAbortChangeNothingElse : Obligations.AppendAndAbortChangeNothingElse :=
  fun _ bytes => ⟨fun h => ⟨inAppend_of_open bytes h, hostAbort_of_open h⟩,
    fun h => ⟨inAppend_of_terminal bytes h, hostAbort_of_terminal h⟩⟩

/-- Settles O59: `start` loads and enters the run, and the pre-scan's answer decides how. -/
theorem startLoadsAndRuns : Obligations.StartLoadsAndRuns := by
  refine fun s img in0 => ⟨fun hready => ⟨fun jt hjt => ?_, fun q c hfull => ?_⟩, start_of_not_ready img in0⟩
  · exact (start_of_ready img in0 hready).trans (congrArg _ (enterRun_of_table hjt))
  · exact (start_of_ready img in0 hready).trans (congrArg _ (enterRun_of_full hfull))

end Sys2Proof.Machine
